-- ==== Sys2Proof/Word.lean ====
section
/-! DEFINITION. The word types of the LZ77 codec core. -/

namespace Sys2Proof

/-- A byte is 8 bits (R10). -/
abbrev Byte := BitVec 8

/-- A register of `W` bits. `W = 64` is the only legal value of the parameter (R8). -/
abbrev Word := BitVec 64

/-- An index key: the four bytes at a scan position (R142). -/
abbrev Key := BitVec 32

end Sys2Proof
end

