-- ==== Sys2Proof/Config.lean ====
section
/-! DEFINITION. The parameters of R8, the format constants of R9 and the free values the spec leaves open. -/

namespace Sys2Proof

/-- `MATCH_TAG_10_POLICY` (R8, C5): what DECOMPRESS does with a header whose bits 7-6 are `10`. -/
inductive MatchTag10Policy where
  /-- Decode it as a match, bit 6 ignored (the default). -/
  | asMatch
  /-- Reject it with RESERVED_MATCH_TAG. -/
  | malformed
  deriving DecidableEq, Repr

/-- The implementation parameters of R8, fixed for a core instance (R55). `W` is the width of `Word`. -/
structure Config where
  /-- `N_MAX`: the largest input length a COMPRESS or DECOMPRESS accepts. -/
  nMax : Nat
  /-- `CAP_MAX`: the largest output capacity a command accepts. -/
  capMax : Nat
  /-- `CLEAR_INDEX_ON_COMPRESS` (R222). -/
  clearIndexOnCompress : Bool
  /-- `INDEX_UPDATE_ON_HIT` (R230). -/
  indexUpdateOnHit : Bool
  /-- `WINDOW_ENFORCED` (R227). -/
  windowEnforced : Bool
  /-- `MATCH_TAG_10_POLICY` (R180). -/
  matchTag10 : MatchTag10Policy
  deriving DecidableEq, Repr

/-- The default column of R8. -/
def Config.default : Config where
  nMax := 2 ^ 32 - 1
  capMax := 2 ^ 32 - 1
  clearIndexOnCompress := false
  indexUpdateOnHit := false
  windowEnforced := false
  matchTag10 := .asMatch

/-- The legal values column of R8. -/
abbrev Config.legal (c : Config) : Prop :=
  4 ≤ c.nMax ∧ c.nMax ≤ 2 ^ 56 - 1 ∧ 1 ≤ c.capMax ∧ c.capMax ≤ 2 ^ 64 - 1

/-- `MIN_INPUT` (R9). -/
def minInput : Nat := 4

/-- `KEY_BYTES` (R9). -/
def keyBytes : Nat := 4

/-- `LIT0_MAX` (R9). -/
def lit0Max : Nat := 31

/-- `LIT1_MAX` (R9). -/
def lit1Max : Nat := 8191

/-- `LIT_MAX` (R9): the longest run one literal token holds. -/
def litMax : Nat := 2097151

/-- `FIELD_BYTES_MAX` (R9). -/
def fieldBytesMax : Nat := 7

/-- `LEVEL_MAX` (R9); `LEVEL_MIN` is 0. -/
def levelMax : Nat := 9

/-- FREE VALUE (log 7): the byte at an offset of IN that the host has not written. -/
opaque Config.freeInByte : Nat → Byte

/-- FREE VALUE (log 8): the byte at an offset of OUT that nothing has written since a draw, by the
draw's number and the offset. Draw 0 is what OUT holds before any event (R56, R339, R372). -/
opaque Config.freeOutByte : Nat → Nat → Byte

/-- FREE VALUE (log 5): ARG_LEVEL after a reset event, by the draw's number (R36, R370). -/
opaque Config.freeArgLevel : Nat → BitVec 32

/-- FREE VALUE (log 5): ARG_IN_LEN after a reset event, by the draw's number (R37, R370). -/
opaque Config.freeArgInLen : Nat → Word

/-- FREE VALUE (log 5): ARG_OUT_CAP after a reset event, by the draw's number (R38, R370). -/
opaque Config.freeArgOutCap : Nat → Word

end Sys2Proof
end

