-- ==== Sys2Proof/Syntax.lean ====
section
/-! DEFINITION. The two vocabularies of the core (30_encoding.md): instructions and whole tokens. -/

namespace Sys2Proof

/-- One constructor per row of the opcode table. A token instruction holds what the header byte gives;
its meaning reads the rest of the token from IN (R263, R175 to R180). A command holds nothing: its
operands are registers (R114). Fields are the unsigned values of header bits (R10, R11). -/
inductive Instr where
  /-- LIT0 (R103): `len = h[4:0]`. -/
  | lit0 (len : Nat)
  /-- LIT1 (R104): `h[4:0]`, the high-order bits of the length. -/
  | lit1 (lenHi : Nat)
  /-- LIT2 (R105): `h[4:0]`, the high-order bits of the length. -/
  | lit2 (lenHi : Nat)
  /-- LIT3, the reserved literal class (R107): `h[4:0]`, which the decoder ignores. -/
  | lit3 (low : Nat)
  /-- MATCH10, the reserved match tag (R111): `Lc = h[5:3]`, `Dc = h[2:0]`. -/
  | match10 (lc dc : Nat)
  /-- MATCH (R109): `Lc = h[5:3]`, `Dc = h[2:0]`. -/
  | matchRef (lc dc : Nat)
  /-- CREATE_CONTEXT, command code 0x01 (R300). -/
  | createContext
  /-- DESTROY_CONTEXT, command code 0x02 (R303). -/
  | destroyContext
  /-- RESET_INDEX, command code 0x03 (R304). -/
  | resetIndex
  /-- COMPRESS, command code 0x04 (R220). -/
  | compress
  /-- DECOMPRESS, command code 0x05 (R260). -/
  | decompress
  deriving DecidableEq, Repr

/-- A whole token of the stream (R100 to R111, R116): what the token codec writes and reads. -/
inductive Token where
  /-- A literal of size class `cls` (LIT0, LIT1, LIT2) with its payload. -/
  | literal (cls : Nat) (payload : List Byte)
  /-- A match with its byte counts `lc`, `dc`, its length and its distance; `tag10` is the reserved tag. -/
  | reference (tag10 : Bool) (lc dc len dist : Nat)
  deriving DecidableEq, Repr

/-- The payload of a literal; a match has none. -/
def Token.payload : Token → List Byte
  | .literal _ payload => payload
  | .reference _ _ _ _ _ => []

/-- The instruction that a token's header byte is. -/
def Token.instr : Token → Instr
  | .literal 0 payload => .lit0 payload.length
  | .literal 1 payload => .lit1 (payload.length / 2 ^ 8)
  | .literal _ payload => .lit2 (payload.length / 2 ^ 16)
  | .reference true lc dc _ _ => .match10 lc dc
  | .reference false lc dc _ _ => .matchRef lc dc

end Sys2Proof
end

