-- ==== Sys2Proof/WellFormed.lean ====
section
/-! DEFINITION. Which instructions and tokens the encodings of 30_encoding.md admit. -/

namespace Sys2Proof

/-- The field ranges of R103 to R111: a 5-bit field, two 3-bit byte counts; a command has no field. -/
def Instr.wf : Instr → Bool
  | .lit0 len => len < 2 ^ 5
  | .lit1 lenHi => lenHi < 2 ^ 5
  | .lit2 lenHi => lenHi < 2 ^ 5
  | .lit3 low => low < 2 ^ 5
  | .match10 lc dc => lc < 2 ^ 3 && dc < 2 ^ 3
  | .matchRef lc dc => lc < 2 ^ 3 && dc < 2 ^ 3
  | .createContext => true
  | .destroyContext => true
  | .resetIndex => true
  | .compress => true
  | .decompress => true

/-- Whether the instruction is a token of the stream, not a command. -/
def Instr.isToken : Instr → Bool
  | .lit0 _ => true
  | .lit1 _ => true
  | .lit2 _ => true
  | .lit3 _ => true
  | .match10 _ _ => true
  | .matchRef _ _ => true
  | .createContext => false
  | .destroyContext => false
  | .resetIndex => false
  | .compress => false
  | .decompress => false

/-- A literal's class is 0, 1 or 2 and its length fits the class (R103 to R105); a match's byte counts
are 3 bits and its values fit them (R109, R110). Leading zero bytes and `len > dist` are allowed (R113). -/
def Token.wf : Token → Bool
  | .literal cls payload => cls ≤ 2 && payload.length < 2 ^ (5 + 8 * cls)
  | .reference _ lc dc len dist => lc ≤ 7 && dc ≤ 7 && len < 256 ^ lc && dist < 256 ^ dc

end Sys2Proof
end

