-- ==== Sys2Proof/Decode.lean ====
section
/-! DEFINITION. Decoding the two vocabularies of 30_encoding.md, and the encoders beside them. -/

namespace Sys2Proof

/-- Why bytes are no instruction, or no whole token. -/
inductive DecodeError where
  /-- No byte is left. -/
  | endOfInput
  /-- A `CMD` code outside R114 (R115). -/
  | illegalCommand (code : Byte)
  /-- The token runs past the end of its bytes (R266). -/
  | truncated
  /-- Literal class `11` (R107). -/
  | reservedLiteralClass
  /-- A command stands where a token is read; no header byte gives one. -/
  | notAToken
  deriving DecidableEq, Repr

/-- `h[lo+width-1 : lo]`, the unsigned value of these bits of a byte (R10). -/
def bits (h : Byte) (lo width : Nat) : Nat := h.toNat / 2 ^ lo % 2 ^ width

/-- `BE(s)`: a byte sequence read most-significant byte first (R12). -/
def beValue (s : List Byte) : Nat := s.foldl (fun acc b => acc * 256 + b.toNat) 0

/-- `be_k(v)`: the `k` bytes of `v`, most-significant first (R12). -/
def beBytes : Nat → Nat → List Byte
  | 0, _ => []
  | k + 1, v => BitVec.ofNat 8 (v / 256 ^ k) :: beBytes k v

/-- The header map of R112, dispatched as R263 does: bit 7, then bits 6:5 or bit 6. -/
def decodeHeader (h : Byte) : Instr :=
  if bits h 7 1 = 0 then
    match bits h 5 2 with
    | 0 => .lit0 (bits h 0 5)
    | 1 => .lit1 (bits h 0 5)
    | 2 => .lit2 (bits h 0 5)
    | _ => .lit3 (bits h 0 5)
  else if bits h 6 1 = 1 then .matchRef (bits h 3 3) (bits h 0 3)
  else .match10 (bits h 3 3) (bits h 0 3)

/-- The token instruction at the front of a byte sequence, and the bytes after its header (R101). -/
def decode : List Byte → Except DecodeError (Instr × List Byte)
  | [] => .error .endOfInput
  | h :: rest => .ok (decodeHeader h, rest)

/-- The command a `CMD` code stands for (R114); every other code is illegal (R115). -/
def decodeCommand (code : Byte) : Except DecodeError Instr :=
  match code.toNat with
  | 1 => .ok .createContext
  | 2 => .ok .destroyContext
  | 3 => .ok .resetIndex
  | 4 => .ok .compress
  | 5 => .ok .decompress
  | _ => .error (.illegalCommand code)

/-- The header byte of a token instruction (R103 to R111), the code of a command (R114). -/
def encode : Instr → Byte
  | .lit0 len => BitVec.ofNat 8 len
  | .lit1 lenHi => BitVec.ofNat 8 (0x20 + lenHi)
  | .lit2 lenHi => BitVec.ofNat 8 (0x40 + lenHi)
  | .lit3 low => BitVec.ofNat 8 (0x60 + low)
  | .match10 lc dc => BitVec.ofNat 8 (0x80 + lc * 8 + dc)
  | .matchRef lc dc => BitVec.ofNat 8 (0xC0 + lc * 8 + dc)
  | .createContext => 0x01#8
  | .destroyContext => 0x02#8
  | .resetIndex => 0x03#8
  | .compress => 0x04#8
  | .decompress => 0x05#8

/-- The header and continuation bytes of a literal of class `cls` and length `c` (R103 to R105, R170). -/
def litHeader (cls c : Nat) : List Byte :=
  match cls with
  | 0 => [encode (.lit0 c)]
  | 1 => encode (.lit1 (c / 2 ^ 8)) :: beBytes 1 c
  | _ => encode (.lit2 (c / 2 ^ 16)) :: beBytes 2 c

/-- The header byte of a match (R109, R111). -/
def matchHeader (tag10 : Bool) (lc dc : Nat) : Byte :=
  if tag10 then encode (.match10 lc dc) else encode (.matchRef lc dc)

/-- The bytes of a whole token (R103 to R111): the encoding of the notation of R116. -/
def Token.encode : Token → List Byte
  | .literal cls payload => litHeader cls payload.length ++ payload
  | .reference tag10 lc dc len dist => matchHeader tag10 lc dc :: (beBytes lc len ++ beBytes dc dist)

/-- A literal of class `cls` whose payload is the next `len` bytes. -/
def takeLiteral (cls len : Nat) (rest : List Byte) : Except DecodeError (Token × List Byte) :=
  if rest.length < len then .error .truncated
  else .ok (.literal cls (rest.take len), rest.drop len)

/-- A match whose values are the next `lc` and `dc` bytes. -/
def takeReference (tag10 : Bool) (lc dc : Nat) (rest : List Byte) :
    Except DecodeError (Token × List Byte) :=
  if rest.length < lc + dc then .error .truncated
  else .ok (.reference tag10 lc dc (beValue (rest.take lc)) (beValue ((rest.drop lc).take dc)),
    rest.drop (lc + dc))

/-- The whole token at the front of a byte sequence, and the bytes after it (R100, R112). -/
def Token.decode (bytes : List Byte) : Except DecodeError (Token × List Byte) :=
  match bytes with
  | [] => .error .endOfInput
  | h :: rest =>
    match decodeHeader h with
    | .lit0 len => takeLiteral 0 len rest
    | .lit1 hi =>
      match rest with
      | c1 :: rest => takeLiteral 1 (hi * 2 ^ 8 + c1.toNat) rest
      | _ => .error .truncated
    | .lit2 hi =>
      match rest with
      | c1 :: c2 :: rest => takeLiteral 2 (hi * 2 ^ 16 + c1.toNat * 2 ^ 8 + c2.toNat) rest
      | _ => .error .truncated
    | .lit3 _ => .error .reservedLiteralClass
    | .match10 lc dc => takeReference true lc dc rest
    | .matchRef lc dc => takeReference false lc dc rest
    | .createContext => .error .notAToken
    | .destroyContext => .error .notAToken
    | .resetIndex => .error .notAToken
    | .compress => .error .notAToken
    | .decompress => .error .notAToken

/-- `BYTEWIDTH(v)` (R140): the minimum number of bytes that hold the `W`-bit value `v`; `fuel` bounds
the loop of the rule's pseudocode, which increases `k` while `v >= 2^(8k)`. -/
def byteWidthFrom (v : Nat) : Nat → Nat → Nat
  | 0, k => k
  | fuel + 1, k => if 2 ^ (8 * k) ≤ v then byteWidthFrom v fuel (k + 1) else k

/-- `BYTEWIDTH(v)` (R140). A `W`-bit value needs at most 8 bytes. -/
def byteWidth (v : Nat) : Nat := byteWidthFrom v 8 0

/-- `LITCLASS(c)` (R171): the smallest class whose range holds `c`. -/
def litClass (c : Nat) : Nat := if c ≤ lit0Max then 0 else if c ≤ lit1Max then 1 else 2

/-- The match token the compressor writes for a length and a distance (R173). -/
def canonicalReference (len dist : Nat) : Token :=
  .reference false (byteWidth len) (byteWidth dist) len dist

/-- A token the compressor could have written (R112). -/
def Token.canonical : Token → Bool
  | .literal cls payload => cls == litClass payload.length && 1 ≤ payload.length && payload.length ≤ litMax
  | .reference tag10 lc dc len dist =>
    !tag10 && lc == byteWidth len && dc == byteWidth dist && 1 ≤ len && len ≤ dist

/-- `fuel` chunks of the expansion of R117. -/
def litRunFrom : Nat → List Byte → List Token
  | 0, _ => []
  | _ + 1, [] => []
  | fuel + 1, b :: run =>
    let chunk := (b :: run).take litMax
    .literal (litClass chunk.length) chunk :: litRunFrom fuel ((b :: run).drop litMax)

/-- The pseudo-instruction `LITRUN <bytes>` (R117): the literal tokens a run expands into. -/
def litRun (run : List Byte) : List Token := litRunFrom run.length run

/-- The `count` bytes of a table word: bit 0 is the least significant bit of the first byte. -/
def tableBytes : Nat → Nat → List Byte
  | 0, _ => []
  | count + 1, w => BitVec.ofNat 8 w :: tableBytes count (w / 256)

/-- Whether a table word is read as a command code: 8 bits with a value of R114. The table's two
vocabularies share the values 0x01 to 0x05 (log 3); every other word is read as a token. -/
def isCommandWord (nbits w : Nat) : Bool := nbits == 8 && 1 ≤ w && w ≤ 5

/-- The instruction the decoder reads from a word of the opcode table (log 3). -/
def decodeTableWord (nbits w : Nat) : Option Instr :=
  if isCommandWord nbits w then
    match decodeCommand (BitVec.ofNat 8 w) with
    | .ok i => some i
    | .error _ => none
  else
    match decode (tableBytes (nbits / 8) w) with
    | .ok (i, _) => some i
    | .error _ => none

end Sys2Proof
end

