-- ==== Sys2Proof/Machine/State.lean ====
section
/-! DEFINITION. The state of the core (10_state.md), the reasons a step can stop, and the state after reset. -/

namespace Sys2Proof.Machine

/-- A sparse byte space: (offset, byte) pairs, offsets strictly rising (20_memory.md, log 7 and 8). -/
abbrev Memory := List Host.Cell

/-- The backward-reference index: (key, offset) pairs, keys strictly rising; an unlisted key maps to
`none` (R49, R146). -/
abbrev Index := List (Nat × Nat)

/-- Where the unlisted bytes of OUT come from (log 8): (bound, draw) pairs, bounds strictly rising; an
unlisted byte belongs to the first pair whose bound is above its offset, else to draw 0. -/
abbrev Draws := List (Nat × Nat)

/-- The command the engine runs (R30, R47). -/
inductive Engine where
  /-- No command runs: `BUSY = 0`. -/
  | idle
  /-- COMPRESS runs: `BUSY = 1`. -/
  | compress
  /-- DECOMPRESS runs: `BUSY = 1`. -/
  | decompress
  deriving DecidableEq, Repr

/-- One transaction of the host (R30, R382), or its leave for the engine to move (log 10). -/
inductive HostAction where
  /-- Write a value to an interface register (R34); a write of register 0 is a `CMD` write. -/
  | write (reg : BitVec 8) (value : Word)
  /-- Read an interface register (R34). -/
  | read (reg : BitVec 8)
  /-- Write a byte of IN. -/
  | writeIn (offset : Word) (value : Byte)
  /-- Write a byte of OUT. -/
  | writeOut (offset : Word) (value : Byte)
  /-- Read a byte of OUT. -/
  | readOut (offset : Word)
  /-- Read a byte of IN. R30 lists no such access, while R334 has the host read a header byte back: that
  the host has it, at any time, is the model's choice (log 20). -/
  | readIn (offset : Word)
  /-- Poll `BUSY` until it reads 0 (R343, R373); the engine moves meanwhile. -/
  | waitIdle
  /-- Let the engine make one move. -/
  | letRun
  /-- Drive the reset input (R370, R372). -/
  | reset
  deriving DecidableEq, Repr

/-- The engine's working registers (R32), with the lengths it latched at command start. -/
structure Work where
  /-- `n`: ARG_IN_LEN as read at command start (R375). -/
  n : Nat
  /-- `cap`: ARG_OUT_CAP as read at command start (R375). -/
  cap : Nat
  /-- `p`: the scan cursor of COMPRESS. -/
  p : Nat
  /-- `anchor`: the start of the pending literal run. -/
  anchor : Nat
  /-- `o`: the output cursor. -/
  o : Nat
  /-- `i`: the input cursor of DECOMPRESS, its program counter (R33). -/
  i : Nat
  /-- `ref`: the offset returned by an index hit. -/
  ref : Option Nat
  /-- `k`: the key at `p`. -/
  k : Option Key
  /-- `L`: the length of the current match. -/
  len : Option Nat
  /-- `D`: the distance of the current match. -/
  dist : Option Nat
  /-- `Lc`: the number of length bytes. -/
  lc : Option (BitVec 3)
  /-- `Dc`: the number of distance bytes. -/
  dc : Option (BitVec 3)
  /-- `h`: the current token header. -/
  h : Option Byte
  /-- `cls`: the literal size class. -/
  cls : Option (BitVec 2)
  deriving DecidableEq, Repr

/-- The working registers at the start of a command with input length `n` and capacity `cap` (R32). -/
def Work.start (n cap : Nat) : Work where
  n := n
  cap := cap
  p := 0
  anchor := 0
  o := 0
  i := 0
  ref := none
  k := none
  len := none
  dist := none
  lc := none
  dc := none
  h := none
  cls := none

/-- The working registers while no command runs: the spec gives them no value (R32, R56; log 6). -/
def Work.idle : Work := Work.start 0 0

/-- Everything the spec gives the core (10_state.md), the host's pending transactions, and the model's
own counters of free draws. -/
structure State where
  /-- The parameters of the instance (R8, R55); nothing writes them (log 9). -/
  cfg : Config
  /-- ARG_LEVEL, register 1 (R36). -/
  argLevel : BitVec 32
  /-- ARG_IN_LEN, register 2 (R37). -/
  argInLen : Word
  /-- ARG_OUT_CAP, register 3 (R38). -/
  argOutCap : Word
  /-- STATUS, register 4 (R39). -/
  status : BitVec 8
  /-- DETAIL, register 5 (R40). -/
  detail : BitVec 8
  /-- BYTES_WRITTEN, register 6 (R41). -/
  bytesWritten : Word
  /-- ERR_IN_POS, register 7 (R42). -/
  errInPos : Word
  /-- ERR_OUT_POS, register 8 (R43). -/
  errOutPos : Word
  /-- CTX_VALID, register 9 (R44). -/
  ctxValid : BitVec 1
  /-- CTX_LEVEL, register 10 (R45). -/
  ctxLevel : BitVec 4
  /-- CTX_WINDOW, register 11 (R46). -/
  ctxWindow : BitVec 32
  /-- What the engine runs; BUSY, register 12 (R47), is a view of it (log 14). -/
  engine : Engine
  /-- INDEX (R49). -/
  index : Index
  /-- IN, the input space (R50). -/
  inMem : Memory
  /-- OUT, the output space (R50). -/
  outMem : Memory
  /-- The model's own: the draw each unlisted byte of OUT comes from (log 8). -/
  outDraws : Draws
  /-- The model's own: how many free draws were made (log 8). -/
  draws : Nat
  /-- The working registers (R32). -/
  work : Work
  /-- The host's pending transactions, first one first (R81, log 10). -/
  host : List HostAction
  /-- The model's own: what the host's last read returned (log 15). -/
  hostData : Word
  deriving DecidableEq, Repr

/-- Why a step can stop with a fault. No instruction raises one: errors are status results (R330). -/
inductive Fault where
  /-- SAFE. Raised by the host's `writeIn` while `BUSY = 1`: the host changes IN under a running command,
  a race by R86, with no move by R375 (log 11). -/
  | inputRace
  deriving DecidableEq, Repr

/-- Why a step can be refused. -/
inductive Refusal where
  /-- SAFE. Raised by `exec` for an instruction that has no meaning yet; no arm raises it. -/
  | notModelled (mnemonic : String)
  /-- SAFE. Raised by the host's `writeOut` while `BUSY = 1`: no move (R375; log 11). -/
  | hostWritesOut
  /-- SAFE. Raised by a host write of an ARG register while `BUSY = 1`: no move (R375; log 11). -/
  | hostWritesArgument
  deriving DecidableEq, Repr

/-- The state right after reset (R56, R370) of an instance with the default parameters: the ARG
registers and the working registers hold values the log names (log 4, 6); IN and OUT list nothing. -/
def State.reset : State where
  cfg := Config.default
  argLevel := 0
  argInLen := 0
  argOutCap := 0
  status := 0
  detail := 0
  bytesWritten := 0
  errInPos := 0
  errOutPos := 0
  ctxValid := 0
  ctxLevel := 0
  ctxWindow := 0
  engine := .idle
  index := []
  inMem := []
  outMem := []
  outDraws := []
  draws := 1
  work := Work.idle
  host := []
  hostData := 0

end Sys2Proof.Machine
end

