-- ==== Sys2Proof/Machine/Memory.lean ====
section
/-! DEFINITION. Reading and writing the sparse spaces: IN, OUT and the INDEX. -/

namespace Sys2Proof.Machine

/-- The value listed at a key, if any. -/
def sparseGet {α : Type} : List (Nat × α) → Nat → Option α
  | [], _ => none
  | (b, v) :: m, a => if a = b then some v else sparseGet m a

/-- List a value at a key, in place of the one it had; the keys stay in rising order. -/
def sparsePut {α : Type} : List (Nat × α) → Nat → α → List (Nat × α)
  | [], a, v => [(a, v)]
  | (b, w) :: m, a, v =>
    if a < b then (a, v) :: (b, w) :: m
    else if a = b then (a, v) :: m
    else (b, w) :: sparsePut m a v

/-- The canonical form: keys strictly rising. An unlisted key has no value a listed one could equal
(log 7, 8), so the order is the whole of it. -/
abbrev sparseWf {α : Type} (m : List (Nat × α)) : Prop := m.Pairwise (fun x y => x.1 < y.1)

/-- The canonical form of a byte space. -/
abbrev Memory.wf (m : Memory) : Prop := sparseWf m

/-- The canonical form of the index. -/
abbrev Index.wf (m : Index) : Prop := sparseWf m

/-- The canonical form of the draws: bounds strictly rising, none of them 0. -/
abbrev Draws.wf (d : Draws) : Prop := sparseWf d ∧ ∀ e ∈ d, 0 < e.1

/-- Write bytes one after another, the first at `a`, in increasing offset order (R72). -/
def putBytes : Memory → Nat → List Byte → Memory
  | m, _, [] => m
  | m, a, b :: bs => putBytes (sparsePut m a b) (a + 1) bs

/-- The draw that an unlisted byte of OUT comes from (log 8). -/
def drawOf : Draws → Nat → Nat
  | [], _ => 0
  | (bound, draw) :: d, a => if a < bound then draw else drawOf d a

/-- Let every byte below `bound` come from a new draw (log 8). -/
def newDraw (bound draw : Nat) (d : Draws) : Draws :=
  if bound = 0 then d else (bound, draw) :: d.filter (fun e => bound < e.1)

/-- `in[a]` (R12). A byte the host has not written is a free value (log 7). -/
def inByte (s : State) (a : Nat) : Byte := (sparseGet s.inMem a).getD (Config.freeInByte a)

/-- The byte of an OUT image at `a`. A byte not written since its draw is a free value (log 8). -/
def outByteOf (d : Draws) (m : Memory) (a : Nat) : Byte :=
  (sparseGet m a).getD (Config.freeOutByte (drawOf d a) a)

/-- `out[a]` (R12). -/
def outByte (s : State) (a : Nat) : Byte := outByteOf s.outDraws s.outMem a

/-- The `count` bytes of IN from `a` on, as single-byte reads (R70). -/
def inBytes (s : State) (a count : Nat) : List Byte := (List.range count).map (fun j => inByte s (a + j))

/-- The byte loop of `COPY(o, D, L)` (R181): strictly increasing offsets, each source byte read after
every write before it. -/
def copyBack (d : Draws) (dist : Nat) : Memory → Nat → Nat → Memory
  | m, _, 0 => m
  | m, dst, len + 1 => copyBack d dist (sparsePut m dst (outByteOf d m (dst - dist))) (dst + 1) len

/-- `Index.lookup(k)` (R143). -/
def indexLookup (x : Index) (k : Key) : Option Nat := sparseGet x k.toNat

/-- `Index.insert(k, off)` (R144): overwrites the entry of `k`, changes no other. -/
def indexInsert (x : Index) (k : Key) (off : Nat) : Index := sparsePut x k.toNat off

/-- `Index.clear()` (R145): every key maps to `none`. -/
def indexClear : Index := []

end Sys2Proof.Machine
end

