-- ==== Sys2Proof/Machine/Flags.lean ====
section
/-! DEFINITION. Status results. The core has no condition codes (R53): what a command reports are the
STATUS and DETAIL codes, and its one-bit status fields are CTX_VALID and BUSY. -/

namespace Sys2Proof.Machine

/-- The STATUS results (R331). -/
inductive Status where
  | ok
  | configError
  | invalidParam
  | outputCapacity
  | malformedStream
  | noContext
  | illegalCommand
  deriving DecidableEq, Repr

/-- The DETAIL sub-reasons (R332). -/
inductive Detail where
  | none
  | reservedLiteralClass
  | reservedMatchTag
  | truncated
  | badDistance
  deriving DecidableEq, Repr

/-- The STATUS codes (R331). -/
def statusCode : Status → BitVec 8
  | .ok => 0
  | .configError => 1
  | .invalidParam => 2
  | .outputCapacity => 3
  | .malformedStream => 4
  | .noContext => 5
  | .illegalCommand => 6

/-- The DETAIL codes (R332). -/
def detailCode : Detail → BitVec 8
  | .none => 0
  | .reservedLiteralClass => 1
  | .reservedMatchTag => 2
  | .truncated => 3
  | .badDistance => 4

/-- Whether an error leaves every byte of OUT below the capacity unspecified (R339). That CONFIG_ERROR
leaves OUT as it is, is the model's choice: R339 names neither side for it, and D19 reads otherwise (log 22). -/
def leavesOutUnspecified : Status → Bool
  | .ok => false
  | .configError => false
  | .invalidParam => false
  | .outputCapacity => true
  | .malformedStream => true
  | .noContext => false
  | .illegalCommand => false

/-- BUSY (R47): 1 while a command runs. -/
def busyBit (s : State) : BitVec 1 :=
  match s.engine with
  | .idle => 0
  | .compress => 1
  | .decompress => 1

end Sys2Proof.Machine
end

