-- ==== Sys2Proof/Machine/Operands.lean ====
section
/-! DEFINITION. The operands an instruction reads: lengths, distances, keys and the level. -/

namespace Sys2Proof.Machine

/-- `KEY(p)` (R142): the four bytes of IN at `p`, packed most-significant first. -/
def keyAt (s : State) (p : Nat) : Key := BitVec.ofNat 32 (beValue (inBytes s p keyBytes))

/-- A literal's length (R106): the 5-bit header field followed by `cls` continuation bytes, the first of
them at `a`, read as one big-endian number. -/
def litLength (s : State) (lenHi cls a : Nat) : Nat := lenHi * 256 ^ cls + beValue (inBytes s a cls)

/-- A field of a match (R110): `count` bytes of IN at `a`, most-significant first; 0 for no byte. -/
def fieldValue (s : State) (a count : Nat) : Nat := beValue (inBytes s a count)

/-- ARG_LEVEL as CREATE_CONTEXT reads it: a two's-complement integer (R36, R300). -/
def levelOf (s : State) : Int := s.argLevel.toInt

/-- The window size of a level (R301): 4096 shifted left by it. -/
def windowOf (level : Nat) : Nat := 4096 * 2 ^ level

/-- `fuel` iterations of the loop of R226, `len` bytes being equal so far. -/
def matchLenFrom (s : State) (ref p : Nat) : Nat → Nat → Nat
  | 0, len => len
  | fuel + 1, len =>
    if ref + len < p ∧ p + len < s.work.n ∧ inByte s (ref + len) = inByte s (p + len) then
      matchLenFrom s ref p fuel (len + 1)
    else len

/-- `MATCHLEN(ref, p)` (R226). The second condition stops the loop within `n - p` iterations. -/
def matchLen (s : State) (ref p : Nat) : Nat := matchLenFrom s ref p (s.work.n - p) 0

end Sys2Proof.Machine
end

