-- ==== Sys2Proof/Machine/Ops.lean ====
section
/-! DEFINITION. The shared operations: updates of the state, ending a command with a result or with an
error, and emitting a token. -/

namespace Sys2Proof.Machine

/-! ## Updates -/

def withWork (s : State) (w : Work) : State := { s with work := w }

def withOut (s : State) (m : Memory) : State := { s with outMem := m }

def withIn (s : State) (m : Memory) : State := { s with inMem := m }

def withIndex (s : State) (x : Index) : State := { s with index := x }

def withContext (s : State) (valid : BitVec 1) (level : BitVec 4) (window : BitVec 32) : State :=
  { s with ctxValid := valid, ctxLevel := level, ctxWindow := window }

def withBytes (s : State) (count : Word) : State := { s with bytesWritten := count }

def withHost (s : State) (actions : List HostAction) : State := { s with host := actions }

def withHostData (s : State) (value : Word) : State := { s with hostData := value }

/-- The result registers other than BYTES_WRITTEN (R39, R40, R42, R43). -/
def withResult (s : State) (status : Status) (detail : Detail) (inPos outPos : Nat) : State :=
  { s with
    status := statusCode status
    detail := detailCode detail
    errInPos := BitVec.ofNat 64 inPos
    errOutPos := BitVec.ofNat 64 outPos }

/-- Every byte of OUT below `bound` takes an arbitrary value: a new draw (R339, R372; log 8). -/
def scrambleOut (bound : Nat) (s : State) : State :=
  { s with
    outMem := s.outMem.filter (fun e => bound ≤ e.1)
    outDraws := newDraw bound s.draws s.outDraws
    draws := s.draws + 1 }

/-- BUSY becomes 1 and the working registers take their values at command start, `n` and `cap` read
from the argument registers (R32, R308, R375). -/
def startCommand (e : Engine) (s : State) : State :=
  { s with engine := e, work := Work.start s.argInLen.toNat s.argOutCap.toNat }

/-- The last effect of a command: BUSY becomes 0, and the working registers are discarded (R308, R338). -/
def endCommand (s : State) : State := { s with engine := .idle, work := Work.idle }

/-! ## Ending a command -/

/-- What `raise Error(status, detail, in_pos, out_pos)` records (R338). -/
structure Raise where
  status : Status
  detail : Detail
  inPos : Nat
  outPos : Nat
  deriving DecidableEq, Repr

/-- `raise Error(...)` (R338, R339), the one operation that takes an error. `codec` says that the
command is COMPRESS or DECOMPRESS, which then reports 0 bytes. Nothing returns from an error (R341). -/
def raise (codec : Bool) (r : Raise) (s : State) : State :=
  endCommand
    (withResult
      (withBytes (if leavesOutUnspecified r.status then scrambleOut s.work.cap s else s)
        (if codec then 0 else s.bytesWritten))
      r.status r.detail r.inPos r.outPos)

/-- An error that records no position (R334). -/
def plainRaise (status : Status) : Raise := ⟨status, .none, 0, 0⟩

/-- `COMPLETE()` of COMPRESS (R232) and the normal exit of DECOMPRESS (R267). -/
def complete (s : State) : State :=
  endCommand (withResult (withBytes s (BitVec.ofNat 64 s.work.o)) .ok .none 0 0)

/-- The normal end of a context command, which leaves BYTES_WRITTEN as it is (R41, R300, R303, R304). -/
def completeContext (s : State) : State := endCommand (withResult s .ok .none 0 0)

/-- The input length and capacity checks, in their order, that COMPRESS and DECOMPRESS make before any
other effect (R221, R261). -/
def sizeError (s : State) : Option Raise :=
  if s.argInLen.toNat < minInput ∨ s.cfg.nMax < s.argInLen.toNat then some (plainRaise .invalidParam)
  else if s.cfg.capMax < s.argOutCap.toNat then some (plainRaise .invalidParam)
  else none

/-! ## Writing OUT -/

/-- Write bytes at the output cursor, which moves past them (R72). -/
def append (t : List Byte) (s : State) : State :=
  withWork (withOut s (putBytes s.outMem s.work.o t)) { s.work with o := s.work.o + t.length }

/-- `EMIT(t, inpos)` (R174): all of the token or none of it. -/
def emit (t : List Byte) (inPos : Nat) (s : State) : Except Raise State :=
  if s.work.cap < s.work.o + t.length then .error ⟨.outputCapacity, .none, inPos, s.work.o⟩
  else .ok (append t s)

/-! ## Executing a token -/

/-- MALFORMED_STREAM at the token the input cursor stands on (R334). -/
def malformed (d : Detail) (s : State) : State :=
  raise true ⟨.malformedStream, d, s.work.i, s.work.o⟩ s

/-- OUTPUT_CAPACITY at the token the input cursor stands on (R334). -/
def overCapacity (s : State) : State :=
  raise true ⟨.outputCapacity, .none, s.work.i, s.work.o⟩ s

/-- The input cursor moves past a token of `size` bytes (R264). -/
def advance (size : Nat) (s : State) : State := withWork s { s.work with i := s.work.i + size }

/-- The payload part of LIT0, LIT1 and LIT2 (R175 to R177), `header` bytes standing before the payload.
IN and OUT are disjoint (R80), so the payload may be read before it is written. -/
def literalBody (header len : Nat) (s : State) : State :=
  if s.work.n < s.work.i + header + len then malformed .truncated s
  else if s.work.cap < s.work.o + len then overCapacity s
  else advance (header + len) (append (inBytes s (s.work.i + header) len) s)

/-- A match whose values are read and checked: `COPY(o, D, L)` and both cursors (R179, R181). -/
def copyMatch (lc dc len dist : Nat) (s : State) : State :=
  withWork (withOut s (copyBack s.outDraws dist s.outMem s.work.o len))
    { s.work with
      i := s.work.i + 1 + lc + dc
      o := s.work.o + len
      lc := some (BitVec.ofNat 3 lc)
      dc := some (BitVec.ofNat 3 dc)
      len := some len
      dist := some dist }

/-- `L` of the match the input cursor stands on (R109, R179). -/
def matchLength (lc : Nat) (s : State) : Nat := fieldValue s (s.work.i + 1) lc

/-- `D` of the match the input cursor stands on (R109, R179). -/
def matchDistance (lc dc : Nat) (s : State) : Nat := fieldValue s (s.work.i + 1 + lc) dc

/-- MATCH (R179), its checks in their order: truncation, distance (R182), capacity. -/
def matchBody (lc dc : Nat) (s : State) : State :=
  if s.work.n < s.work.i + 1 + lc + dc then malformed .truncated s
  else if matchDistance lc dc s = 0 ∨ s.work.o < matchDistance lc dc s then malformed .badDistance s
  else if s.work.cap < s.work.o + matchLength lc s then overCapacity s
  else copyMatch lc dc (matchLength lc s) (matchDistance lc dc s) s

end Sys2Proof.Machine
end

