-- ==== Sys2Proof/Machine/Compress.lean ====
section
/-! DEFINITION. COMPRESS: its start, and the moves of its scan, one loop iteration each (log 1). -/

namespace Sys2Proof.Machine

/-- The checks of R221 in their order: the context, then the sizes. -/
def compressStartError (s : State) : Option Raise :=
  if s.ctxValid = 0 then some (plainRaise .noContext) else sizeError s

/-- The optional clear of R222. -/
def clearOnCompress (s : State) : State :=
  if s.cfg.clearIndexOnCompress then withIndex s indexClear else s

/-- COMPRESS (R220): the checks of R221, the optional clear, and the scan set up (R223). The scan itself
is `compressMove`, which the engine repeats while `BUSY = 1` (R308, log 1). -/
def execCompress (s : State) : Host.Outcome State Fault Refusal :=
  match compressStartError s with
  | some r => .next (raise true r s)
  | none => .next (startCommand .compress (clearOnCompress s))

/-- `ENC_LITERAL(a, c)` (R170). -/
def encLiteral (a c : Nat) (s : State) : Except Raise State :=
  emit (Token.encode (.literal (litClass c) (inBytes s a c))) a s

/-- `fuel` iterations of the loop of R172. -/
def encLitrunFrom : Nat → Nat → Nat → State → Except Raise State
  | 0, _, _, s => .ok s
  | fuel + 1, a, b, s =>
    if a < b then
      match encLiteral a (min (b - a) litMax) s with
      | .error r => .error r
      | .ok s1 => encLitrunFrom fuel (a + min (b - a) litMax) b s1
    else .ok s

/-- `ENC_LITRUN(a, b)` (R172): each iteration covers at least one byte of the run. -/
def encLitrun (a b : Nat) (s : State) : Except Raise State := encLitrunFrom (b - a) a b s

/-- `ENC_MATCH(L, D, p)` (R173). -/
def encMatch (len dist p : Nat) (s : State) : Except Raise State :=
  emit (Token.encode (canonicalReference len dist)) p s

/-- The first lines of a scan iteration: the key at the scan cursor and what the index holds for it
(R225), then `L <- 0` (R220), which stands unless the iteration is a hit (log 21). -/
def lookupKey (s : State) : State :=
  withWork s { s.work with
    k := some (keyAt s s.work.p)
    ref := indexLookup s.index (keyAt s s.work.p)
    len := some 0 }

/-- The length of the match a hit at `ref` gives, 0 if it is not usable (R226 to R228). -/
def usableLen (ref : Nat) (s : State) : Nat :=
  if s.cfg.windowEnforced ∧ 0 < matchLen s ref s.work.p ∧ s.ctxWindow.toNat < s.work.p - ref then 0
  else matchLen s ref s.work.p

/-- `MISS(k)` (R229). -/
def missAt (s : State) : State :=
  withWork (withIndex s (indexInsert s.index (keyAt s s.work.p) s.work.p))
    { s.work with p := s.work.p + 1 }

/-- The tokens of `HIT` (R230): the pending run, then the match. -/
def emitHit (ref len : Nat) (s : State) : Except Raise State :=
  match encLitrun s.work.anchor s.work.p s with
  | .error r => .error r
  | .ok s1 => encMatch len (s.work.p - ref) s.work.p s1

/-- The optional insert of R230. -/
def updateOnHit (s : State) : State :=
  if s.cfg.indexUpdateOnHit then withIndex s (indexInsert s.index (keyAt s s.work.p) s.work.p) else s

/-- The cursors after a match of length `len` (R230), with the match's registers (R32). -/
def skipMatch (ref len : Nat) (s : State) : State :=
  withWork s { s.work with
    p := s.work.p + len
    anchor := s.work.p + len
    len := some len
    dist := some (s.work.p - ref)
    lc := some (BitVec.ofNat 3 (byteWidth len))
    dc := some (BitVec.ofNat 3 (byteWidth (s.work.p - ref))) }

/-- `HIT(k, ref, L)` (R230). A token that does not fit fails the command (R233), the index keeping the
inserts made so far (R340). -/
def hitAt (ref len : Nat) (s : State) : State :=
  match emitHit ref len s with
  | .error r => raise true r s
  | .ok s1 => skipMatch ref len (updateOnHit s1)

/-- One iteration of the scan (R224 to R230). -/
def scanMove (s : State) : State :=
  match indexLookup s.index (keyAt s s.work.p) with
  | none => missAt (lookupKey s)
  | some ref => if usableLen ref s = 0 then missAt (lookupKey s) else hitAt ref (usableLen ref s) (lookupKey s)

/-- The end of the scan (R231, R232): flush the tail, then complete. -/
def flushMove (s : State) : State :=
  match encLitrun s.work.anchor s.work.n s with
  | .error r => raise true r s
  | .ok s1 => complete s1

/-- One move of a running COMPRESS: the scan runs while at least 4 bytes remain at `p` (R224). -/
def compressMove (s : State) : State :=
  if s.work.p + keyBytes ≤ s.work.n then scanMove s else flushMove s

end Sys2Proof.Machine
end

