-- ==== Sys2Proof/Machine/Context.lean ====
section
/-! DEFINITION. The context commands: CREATE_CONTEXT, DESTROY_CONTEXT, RESET_INDEX. -/

namespace Sys2Proof.Machine

/-- No context: the index is empty and the context registers are 0 (R302, R303). -/
def dropContext (s : State) : State := withContext (withIndex s indexClear) 0 0 0

/-- A new context of a level, with an empty index (R300, R301). -/
def installContext (level : Nat) (s : State) : State :=
  withContext (withIndex s indexClear) 1 (BitVec.ofNat 4 level) (BitVec.ofNat 32 (windowOf level))

/-- CREATE_CONTEXT (R300); `CREATE_FAIL()` is R302. -/
def execCreateContext (s : State) : Host.Outcome State Fault Refusal :=
  if levelOf s < 0 ∨ (levelMax : Int) < levelOf s then
    .next (raise false (plainRaise .configError) (dropContext s))
  else .next (completeContext (installContext (levelOf s).toNat s))

/-- DESTROY_CONTEXT (R303). -/
def execDestroyContext (s : State) : Host.Outcome State Fault Refusal :=
  .next (completeContext (dropContext s))

/-- RESET_INDEX (R304). -/
def execResetIndex (s : State) : Host.Outcome State Fault Refusal :=
  if s.ctxValid = 0 then .next (raise false (plainRaise .noContext) s)
  else .next (completeContext (withIndex s indexClear))

end Sys2Proof.Machine
end

