-- ==== Sys2Proof/Machine/Decompress.lean ====
section
/-! DEFINITION. DECOMPRESS: its start, and the fetch of a token header (log 1). -/

namespace Sys2Proof.Machine

/-- DECOMPRESS (R260): the checks of R261, then the cursors at 0. It needs no context (R262). The loop
`while i < n` is the engine's, one token a move (R263, R308, log 1). -/
def execDecompress (s : State) : Host.Outcome State Fault Refusal :=
  match sizeError s with
  | some r => .next (raise true r s)
  | none => .next (startCommand .decompress s)

/-- What `cls` holds after the fetch of a header (R263): the class field of a literal header (R102). R263
does not assign it on a match header, so it then keeps its value, `old` (DEDUCED, log 21). -/
def classOf (h : Byte) (old : Option (BitVec 2)) : Option (BitVec 2) :=
  if bits h 7 1 = 0 then some (BitVec.ofNat 2 (bits h 5 2)) else old

/-- The header byte at the input cursor (R263). -/
def headerAt (s : State) : Byte := inByte s s.work.i

/-- The fetch of R263: `h`, and `cls` of a literal, are latched. -/
def latchHeader (s : State) : State :=
  withWork s { s.work with h := some (headerAt s), cls := classOf (headerAt s) s.work.cls }

end Sys2Proof.Machine
end

