-- ==== Sys2Proof/Machine/Literal.lean ====
section
/-! DEFINITION. The literal tokens: LIT0, LIT1, LIT2 and the reserved LIT3. -/

namespace Sys2Proof.Machine

/-- LIT0 (R175). -/
def execLit0 (len : Nat) (s : State) : Host.Outcome State Fault Refusal :=
  .next (literalBody 1 len s)

/-- LIT1 (R176): the continuation byte is read only if it lies below `n`. -/
def execLit1 (lenHi : Nat) (s : State) : Host.Outcome State Fault Refusal :=
  if s.work.n < s.work.i + 2 then .next (malformed .truncated s)
  else .next (literalBody 2 (litLength s lenHi 1 (s.work.i + 1)) s)

/-- LIT2 (R177): the continuation bytes are read only if both lie below `n`. -/
def execLit2 (lenHi : Nat) (s : State) : Host.Outcome State Fault Refusal :=
  if s.work.n < s.work.i + 3 then .next (malformed .truncated s)
  else .next (literalBody 3 (litLength s lenHi 2 (s.work.i + 1)) s)

/-- LIT3 (R178): rejected for every value of its low bits, before any other check. -/
def execLit3 (_low : Nat) (s : State) : Host.Outcome State Fault Refusal :=
  .next (malformed .reservedLiteralClass s)

end Sys2Proof.Machine
end

