-- ==== Sys2Proof/Machine/Match.lean ====
section
/-! DEFINITION. The match tokens: MATCH and the reserved MATCH10. -/

namespace Sys2Proof.Machine

/-- MATCH (R179). -/
def execMatchRef (lc dc : Nat) (s : State) : Host.Outcome State Fault Refusal :=
  .next (matchBody lc dc s)

/-- MATCH10 (R180): as MATCH under `AS_MATCH`, rejected before any other check under `MALFORMED`. -/
def execMatch10 (lc dc : Nat) (s : State) : Host.Outcome State Fault Refusal :=
  match s.cfg.matchTag10 with
  | .malformed => .next (malformed .reservedMatchTag s)
  | .asMatch => .next (matchBody lc dc s)

end Sys2Proof.Machine
end

