-- ==== Sys2Proof/Machine/Dispatch.lean ====
section
/-! DEFINITION. What each instruction does, one arm per constructor. -/

namespace Sys2Proof.Machine

def exec (i : Instr) (s : State) : Host.Outcome State Fault Refusal :=
  match i with
  | .lit0 len => Sys2Proof.Machine.execLit0 len s
  | .lit1 lenHi => Sys2Proof.Machine.execLit1 lenHi s
  | .lit2 lenHi => Sys2Proof.Machine.execLit2 lenHi s
  | .lit3 low => Sys2Proof.Machine.execLit3 low s
  | .match10 lc dc => Sys2Proof.Machine.execMatch10 lc dc s
  | .matchRef lc dc => Sys2Proof.Machine.execMatchRef lc dc s
  | .createContext => Sys2Proof.Machine.execCreateContext s
  | .destroyContext => Sys2Proof.Machine.execDestroyContext s
  | .resetIndex => Sys2Proof.Machine.execResetIndex s
  | .compress => Sys2Proof.Machine.execCompress s
  | .decompress => Sys2Proof.Machine.execDecompress s

end Sys2Proof.Machine
end

