-- ==== Sys2Proof/Machine/Interface.lean ====
section
/-! DEFINITION. The register file the host sees (R34 to R47), and the reset event (R370, R372). -/

namespace Sys2Proof.Machine

/-- What a host read of a register returns (R34): CMD reads 0 (R35), and so do the reserved indices. A
register narrower than the read data is zero-extended. -/
def readRegister (s : State) (reg : BitVec 8) : Word :=
  match reg.toNat with
  | 1 => s.argLevel.setWidth 64
  | 2 => s.argInLen
  | 3 => s.argOutCap
  | 4 => s.status.setWidth 64
  | 5 => s.detail.setWidth 64
  | 6 => s.bytesWritten
  | 7 => s.errInPos
  | 8 => s.errOutPos
  | 9 => s.ctxValid.setWidth 64
  | 10 => s.ctxLevel.setWidth 64
  | 11 => s.ctxWindow.setWidth 64
  | 12 => (busyBit s).setWidth 64
  | _ => 0

/-- The argument registers, the only ones a host write changes (R34, R36 to R38). -/
def isArgument (reg : BitVec 8) : Bool :=
  reg.toNat == 1 || reg.toNat == 2 || reg.toNat == 3

/-- A host write of a register other than CMD: it changes an argument register and is ignored anywhere
else (R34). A register takes its width's low bits of the value (log 12). -/
def writeRegister (reg : BitVec 8) (value : Word) (s : State) : State :=
  match reg.toNat with
  | 1 => { s with argLevel := value.setWidth 32 }
  | 2 => { s with argInLen := value }
  | 3 => { s with argOutCap := value }
  | _ => s

/-- A host read that returns a free value, by a new draw (log 11). -/
def freeRead (offset : Word) (s : State) : State :=
  { s with
    hostData := (Config.freeOutByte s.draws offset.toNat).setWidth 64
    draws := s.draws + 1 }

/-- A host read of a byte of OUT. While `BUSY = 1` it returns an unspecified value, a new draw (R78,
R86; log 11). -/
def hostReadOut (offset : Word) (s : State) : State :=
  match s.engine with
  | .idle => withHostData s ((outByte s offset.toNat).setWidth 64)
  | .compress => freeRead offset s
  | .decompress => freeRead offset s

/-- A host read of a byte of IN (R334; log 20). It changes no byte (R78), and the engine never writes IN
(R50), so it returns the byte also while `BUSY = 1`. -/
def hostReadIn (offset : Word) (s : State) : State := withHostData s ((inByte s offset.toNat).setWidth 64)

/-- A `CMD` write of a code outside R114 (R307). -/
def illegalCommand (s : State) : State := withResult s .illegalCommand .none 0 0

/-- A running command is abandoned: every byte of OUT below its capacity is unspecified (R372). -/
def abandon (s : State) : State :=
  match s.engine with
  | .idle => s
  | .compress => scrambleOut s.work.cap s
  | .decompress => scrambleOut s.work.cap s

/-- What reset sets (R370), the ARG registers taking free values (log 5). -/
def resetRegisters (s : State) : State :=
  { s with
    argLevel := Config.freeArgLevel s.draws
    argInLen := Config.freeArgInLen s.draws
    argOutCap := Config.freeArgOutCap s.draws
    status := statusCode .ok
    detail := detailCode .none
    bytesWritten := 0
    errInPos := 0
    errOutPos := 0
    ctxValid := 0
    ctxLevel := 0
    ctxWindow := 0
    engine := .idle
    index := indexClear
    draws := s.draws + 1
    work := Work.idle }

/-- The reset event (R370, R372). It leaves IN, OUT outside an abandoned command and the parameters. -/
def resetEvent (s : State) : State := resetRegisters (abandon s)

end Sys2Proof.Machine
end

