-- ==== Sys2Proof/Machine/Engine.lean ====
section
/-! DEFINITION. The moves of the engine and of the host, and placing a table word where the machine
takes its next instruction from. -/

namespace Sys2Proof.Machine

/-- One move of a running DECOMPRESS (R260, R263, R266): the token at the input cursor, or the end. -/
def decompressMove (s : State) : Host.Outcome State Fault Refusal :=
  if s.work.i < s.work.n then exec (decodeHeader (headerAt s)) (latchHeader s)
  else .next (complete s)

/-- One move of the engine (R308). While no command runs it waits (R349, R371). -/
def engineMove (s : State) : Host.Outcome State Fault Refusal :=
  match s.engine with
  | .idle => .next s
  | .compress => .next (compressMove s)
  | .decompress => decompressMove s

/-- An accepted `CMD` write (R308): the command's instruction, or R307. -/
def issueCommand (code : Byte) (s : State) : Host.Outcome State Fault Refusal :=
  match decodeCommand code with
  | .ok i => exec i s
  | .error _ => .next (illegalCommand s)

/-- A host write of a register (R34). A CMD write while `BUSY = 1` is ignored (R308); a write of an ARG
register then has no move (R375, log 11). -/
def hostWrite (reg : BitVec 8) (value : Word) (s : State) : Host.Outcome State Fault Refusal :=
  if reg = 0 then
    if busyBit s = 1 then .next s else issueCommand (value.setWidth 8) s
  else if isArgument reg then
    if busyBit s = 1 then .refused .hostWritesArgument else .next (writeRegister reg value s)
  else .next s

/-- One move of the host, `rest` being the transactions after it (R30, R81, R375). -/
def hostMove (a : HostAction) (rest : List HostAction) (s : State) : Host.Outcome State Fault Refusal :=
  match a with
  | .write reg value => hostWrite reg value (withHost s rest)
  | .read reg => .next (withHostData (withHost s rest) (readRegister s reg))
  | .writeIn offset value =>
    if busyBit s = 1 then .fault .inputRace
    else .next (withIn (withHost s rest) (sparsePut s.inMem offset.toNat value))
  | .writeOut offset value =>
    if busyBit s = 1 then .refused .hostWritesOut
    else .next (withOut (withHost s rest) (sparsePut s.outMem offset.toNat value))
  | .readOut offset => .next (hostReadOut offset (withHost s rest))
  | .readIn offset => .next (hostReadIn offset (withHost s rest))
  | .waitIdle =>
    if busyBit s = 1 then engineMove s
    else .next (withHostData (withHost s rest) (readRegister s 12))
  | .letRun => engineMove (withHost s rest)
  | .reset => .next (resetEvent (withHost s rest))

/-- The number of bytes of the token a table word begins, from its header and the bytes after it
(R112); LIT3 has no size and takes one byte. -/
def tableTokenSize (bytes : List Byte) : Nat :=
  match decodeHeader (bytes.getD 0 0) with
  | .lit0 len => 1 + len
  | .lit1 hi => 2 + (hi * 2 ^ 8 + (bytes.getD 1 0).toNat)
  | .lit2 hi => 3 + (hi * 2 ^ 16 + (bytes.getD 1 0).toNat * 2 ^ 8 + (bytes.getD 2 0).toNat)
  | .lit3 _ => 1
  | .match10 lc dc => 1 + lc + dc
  | .matchRef lc dc => 1 + lc + dc
  | .createContext => 1
  | .destroyContext => 1
  | .resetIndex => 1
  | .compress => 1
  | .decompress => 1

/-- A command word is a CMD write the idle core takes next (log 16). -/
def placeCommand (w : Nat) (s : State) : State :=
  { s with engine := .idle, host := .write 0 (BitVec.ofNat 64 w) :: s.host }

/-- The working registers a placed token runs with: those of a running DECOMPRESS, else those at the
start of one (log 16). -/
def placeWork (s : State) : Work :=
  match s.engine with
  | .decompress => s.work
  | .compress => Work.start s.argInLen.toNat s.argOutCap.toNat
  | .idle => Work.start s.argInLen.toNat s.argOutCap.toNat

/-- A token word stands in IN at the input cursor of a running DECOMPRESS, zeros after it, and IN is
long enough for it (log 16). -/
def placeToken (bytes : List Byte) (s : State) : State :=
  { s with
    engine := .decompress
    inMem := putBytes s.inMem (placeWork s).i (bytes ++ List.replicate 32 0)
    work := { placeWork s with n := max (placeWork s).n ((placeWork s).i + tableTokenSize bytes) }
    host := .letRun :: s.host }

end Sys2Proof.Machine
end

