-- ==== Sys2Proof/Machine/Step.lean ====
section
/-! DEFINITION. One step of the machine. -/

namespace Sys2Proof.Machine

/-- One step: the host's next transaction, or a move of the engine when none is pending (log 10). -/
def step (s : State) : Host.Outcome State Fault Refusal :=
  match s.host with
  | [] => engineMove s
  | a :: rest => hostMove a rest s

/-- The state in which the next step runs the instruction of a table word (log 3, 16). -/
def State.withFetchWord (s : State) (nbits w : Nat) : State :=
  if isCommandWord nbits w then placeCommand w s
  else placeToken (tableBytes (nbits / 8) w) s

end Sys2Proof.Machine
end

