-- ==== Sys2Proof/Safety.lean ====
section
/-! DEFINITION. What a claim about the core says: the invariants of its state, how a command ends, and
what a token stream stands for. -/

namespace Sys2Proof.Machine

/-! ## Invariants -/

/-- The spaces are in their canonical form; an index entry is a 32-bit key and an offset below 2^56 (R13). -/
abbrev SpacesOk (s : State) : Prop :=
  Memory.wf s.inMem ∧ Memory.wf s.outMem ∧ Index.wf s.index ∧ Draws.wf s.outDraws ∧
    ∀ e ∈ s.index, e.1 < 2 ^ 32 ∧ e.2 < 2 ^ 56

/-- Without a context the context registers are 0 and the index is empty; with one the level is at most
9 and the window is 4096 shifted left by it (R44 to R46, R302, R303). -/
abbrev ContextOk (s : State) : Prop :=
  (s.ctxValid = 0 ∧ s.ctxLevel = 0 ∧ s.ctxWindow = 0 ∧ s.index = []) ∨
    (s.ctxValid = 1 ∧ s.ctxLevel.toNat ≤ levelMax ∧ s.ctxWindow.toNat = 4096 * 2 ^ s.ctxLevel.toNat)

/-- STATUS is 0 to 6 and DETAIL 0 to 4; DETAIL is non-zero exactly with MALFORMED_STREAM; the error
positions are 0 unless STATUS is OUTPUT_CAPACITY or MALFORMED_STREAM (R39, R40, R42, R43, R332). -/
abbrev ResultOk (s : State) : Prop :=
  s.status.toNat ≤ 6 ∧ s.detail.toNat ≤ 4 ∧ (s.status = 4 ↔ s.detail ≠ 0) ∧
    (s.status ≠ 3 → s.status ≠ 4 → s.errInPos = 0 ∧ s.errOutPos = 0)

/-- The working registers stay in range (R13, R33, R234, R264), and every byte of OUT below the output
cursor was written by the running command (R51, R72). -/
abbrev EngineOk (s : State) : Prop :=
  (s.engine ≠ .idle →
      minInput ≤ s.work.n ∧ s.work.n ≤ s.cfg.nMax ∧ s.work.cap ≤ s.cfg.capMax ∧
        s.work.o ≤ s.work.cap ∧ ∀ a < s.work.o, (sparseGet s.outMem a).isSome) ∧
    (s.engine = .compress →
      s.ctxValid = 1 ∧ s.work.anchor ≤ s.work.p ∧ s.work.p ≤ s.work.n) ∧
    (s.engine = .decompress → s.work.i ≤ s.work.n)

/-- The invariant of the core: legal parameters (R8) and the four parts above. -/
abbrev Inv (s : State) : Prop :=
  s.cfg.legal ∧ SpacesOk s ∧ ContextOk s ∧ ResultOk s ∧ EngineOk s

/-! ## How a move or a command ends -/

/-- `r` is a next state that differs from `s` by its working registers `w` and by `bytes` written at the
output cursor: every other byte of OUT, and everything else, is as before. -/
def AppendsBytes (s : State) (w : Work) (bytes : List Byte)
    (r : Host.Outcome State Fault Refusal) : Prop :=
  ∃ m, r = .next { s with outMem := m, work := w } ∧
    (∀ j < bytes.length, outByteOf s.outDraws m (s.work.o + j) = bytes.getD j 0) ∧
    ∀ a, a < s.work.o ∨ s.work.o + bytes.length ≤ a → outByteOf s.outDraws m a = outByte s a

/-- `r` is the end of a COMPRESS or DECOMPRESS by an error that leaves OUT unspecified (R338, R339): the
result registers as given, BYTES_WRITTEN 0, BUSY 0, each byte of OUT below the capacity a new free
value, and everything else, the other bytes of OUT included, as before. Nothing is said of the working
registers, which have no value then (R32). -/
def FailsUnspecified (s : State) (status detail : BitVec 8) (inPos outPos : Nat)
    (r : Host.Outcome State Fault Refusal) : Prop :=
  ∃ m d w, r = .next { s with
      outMem := m
      outDraws := d
      draws := s.draws + 1
      status := status
      detail := detail
      bytesWritten := 0
      errInPos := BitVec.ofNat 64 inPos
      errOutPos := BitVec.ofNat 64 outPos
      engine := .idle
      work := w } ∧
    (∀ a < s.work.cap, outByteOf d m a = Config.freeOutByte s.draws a) ∧
    ∀ a, s.work.cap ≤ a → outByteOf d m a = outByte s a

/-- `r` is the end of a command that writes no byte of OUT: the result registers as given, BUSY 0, and
everything else as before. Nothing is said of the working registers, which have no value then (R32). -/
def EndsPlainly (s : State) (status : BitVec 8) (bytes : Word)
    (r : Host.Outcome State Fault Refusal) : Prop :=
  ∃ w, r = .next { s with
    status := status
    detail := 0
    bytesWritten := bytes
    errInPos := 0
    errOutPos := 0
    engine := .idle
    work := w }

/-- From `s`, with no host transaction pending, the instruction `i` starts and within `bound` engine
moves the core is idle again, in state `t`. -/
def FinishesWithin (bound : Nat) (i : Instr) (s t : State) : Prop :=
  ∃ s1, exec i s = .next s1 ∧ ∃ k ≤ bound, Host.Core.run core k s1 = .next t ∧ t.engine = .idle

/-- From `s` the instruction `i` runs to its end in state `t`. -/
def Finishes (i : Instr) (s t : State) : Prop := ∃ bound, FinishesWithin bound i s t

/-! ## What tokens stand for -/

/-- The output after a token, from the output before it (R175 to R182, R270): a match repeats the last
`dist` bytes periodically (R181); a bad distance or a reserved tag under MALFORMED has no output. -/
def expandToken (policy : MatchTag10Policy) (out : List Byte) : Token → Option (List Byte)
  | .literal _ payload => some (out ++ payload)
  | .reference tag10 _ _ len dist =>
    if tag10 ∧ policy = .malformed then none
    else if dist = 0 ∨ out.length < dist then none
    else some (out ++ (List.range len).map (fun j => out.getD (out.length - dist + j % dist) 0))

/-- The output of a token stream (R270). -/
def expandTokens (policy : MatchTag10Policy) : List Byte → List Token → Option (List Byte)
  | out, [] => some out
  | out, t :: ts =>
    match expandToken policy out t with
    | some out1 => expandTokens policy out1 ts
    | none => none

/-- The bytes of a token stream (R100). -/
def streamBytes (ts : List Token) : List Byte := ts.flatMap Token.encode

/-- IN holds these bytes at its beginning, and ARG_IN_LEN is their number (R373). -/
def InputIs (s : State) (bytes : List Byte) : Prop :=
  s.argInLen.toNat = bytes.length ∧ ∀ j < bytes.length, inByte s j = bytes.getD j 0

/-- OUT holds these bytes at its beginning. -/
def OutputIs (s : State) (bytes : List Byte) : Prop :=
  ∀ j < bytes.length, outByte s j = bytes.getD j 0

end Sys2Proof.Machine
end

