-- ==== Sys2Proof/Certificates/Slice0/Obligations.lean ====
section
/-! DEFINITION. The statements for the provers. Each holds for every state, or for every state that
meets the conditions it names. One that rests on a choice of the model names its log entry. -/

open Sys2Proof Sys2Proof.Machine

/-! ## Encoding -/

/-- Words written out from the layouts of R103 to R111 and the codes of R114 decode to what they stand
for. -/
def Obligations.SampleWordsDecode : Prop :=
  decodeHeader 0b00000011#8 = .lit0 3 ∧
  decodeHeader 0b00100001#8 = .lit1 1 ∧
  decodeHeader 0b01011111#8 = .lit2 31 ∧
  decodeHeader 0b01100000#8 = .lit3 0 ∧
  decodeHeader 0b10001001#8 = .match10 1 1 ∧
  decodeHeader 0b11010011#8 = .matchRef 2 3 ∧
  decodeCommand 0x01#8 = .ok .createContext ∧
  decodeCommand 0x02#8 = .ok .destroyContext ∧
  decodeCommand 0x03#8 = .ok .resetIndex ∧
  decodeCommand 0x04#8 = .ok .compress ∧
  decodeCommand 0x05#8 = .ok .decompress ∧
  Token.decode [0x20#8, 0x03#8, 0x61#8, 0x62#8, 0x63#8, 0xC0#8]
    = .ok (.literal 1 [0x61#8, 0x62#8, 0x63#8], [0xC0#8]) ∧
  Token.decode [0xD3#8, 0x01#8, 0x2C#8, 0x01#8, 0x11#8, 0x70#8]
    = .ok (.reference false 2 3 300 70000, [])

/-- Every header byte is decoded by the range it lies in, with its low bits as the fields (R112). -/
def Obligations.HeaderByteDecodesByItsRange : Prop :=
  ∀ h : Byte,
    (h.toNat < 0x20 → decodeHeader h = .lit0 h.toNat) ∧
    (0x20 ≤ h.toNat → h.toNat < 0x40 → decodeHeader h = .lit1 (h.toNat - 0x20)) ∧
    (0x40 ≤ h.toNat → h.toNat < 0x60 → decodeHeader h = .lit2 (h.toNat - 0x40)) ∧
    (0x60 ≤ h.toNat → h.toNat < 0x80 → decodeHeader h = .lit3 (h.toNat - 0x60)) ∧
    (0x80 ≤ h.toNat → h.toNat < 0xC0 →
      decodeHeader h = .match10 ((h.toNat - 0x80) / 8) ((h.toNat - 0x80) % 8)) ∧
    (0xC0 ≤ h.toNat → decodeHeader h = .matchRef ((h.toNat - 0xC0) / 8) ((h.toNat - 0xC0) % 8))

/-- The illegal command codes are exactly 0x00 and 0x06 to 0xFF (R115). -/
def Obligations.IllegalCodesAreTheUnlistedOnes : Prop :=
  ∀ code : Byte, decodeCommand code = .error (.illegalCommand code) ↔ code.toNat = 0 ∨ 6 ≤ code.toNat

/-- Every well-formed instruction is decoded from its encoding, whatever follows it. -/
def Obligations.InstructionDecodesFromItsEncoding : Prop :=
  ∀ i : Instr, i.wf = true →
    (i.isToken = true → ∀ rest, decode (encode i :: rest) = .ok (i, rest)) ∧
    (i.isToken = false → decodeCommand (encode i) = .ok i)

/-- Every well-formed token, with every payload and every value its byte counts admit, is decoded from
its bytes, whatever follows them (R100 to R111, R113). -/
def Obligations.TokenDecodesFromItsBytes : Prop :=
  ∀ (t : Token) (rest : List Byte), t.wf = true → Token.decode (t.encode ++ rest) = .ok (t, rest)

/-- `LITRUN` (R117): the run is cut into chunks of 2,097,151 bytes and a remainder, in order, each one
canonical. -/
def Obligations.LitrunCutsTheRunIntoChunks : Prop :=
  ∀ run : List Byte,
    (litRun run).flatMap Token.payload = run ∧
    (∀ t ∈ litRun run, t.canonical = true) ∧
    (litRun run).map (fun t => t.payload.length)
      = List.replicate (run.length / 2097151) 2097151 ++
        (if run.length % 2097151 = 0 then [] else [run.length % 2097151])

/-! ## Leaf operations -/

/-- `BYTEWIDTH(v)` is the least number of bytes that holds a `W`-bit value (R140). -/
def Obligations.BytewidthIsTheLeastWidth : Prop :=
  ∀ v : Nat, v < 2 ^ 64 →
    byteWidth v ≤ 8 ∧ v < 2 ^ (8 * byteWidth v) ∧ ∀ k, v < 2 ^ (8 * k) → byteWidth v ≤ k

/-- `LITCLASS(c)` is the smallest class whose range holds `c` (R171). -/
def Obligations.LitclassIsTheSmallestClass : Prop :=
  ∀ c : Nat, c ≤ 2097151 →
    (litClass c = 0 ↔ c ≤ 31) ∧ (litClass c = 1 ↔ 32 ≤ c ∧ c ≤ 8191) ∧ (litClass c = 2 ↔ 8192 ≤ c)

/-- Two positions have equal keys exactly when their four bytes are equal (R142). -/
def Obligations.KeysAreEqualWhenTheirBytesAre : Prop :=
  ∀ (s : State) (p q : Nat),
    keyAt s p = keyAt s q ↔ ∀ j < 4, inByte s (p + j) = inByte s (q + j)

/-- The fields of a token are read most-significant byte first (R74, R106, R110). -/
def Obligations.FieldsAreReadBigEndian : Prop :=
  ∀ (s : State) (a count : Nat),
    fieldValue s a 0 = 0 ∧
    fieldValue s a (count + 1)
      = (inByte s a).toNat * 256 ^ count + fieldValue s (a + 1) count ∧
    fieldValue s a count < 256 ^ count

/-- `MATCHLEN(ref, p)` (R226): the bytes agree for that length, the reference stays below `p` and the
probe below `n`, and the length is the greatest such; it is 0 for a reference at or past `p`. -/
def Obligations.MatchlenIsTheGreatestLength : Prop :=
  ∀ (s : State) (ref p : Nat), p ≤ s.work.n →
    (p ≤ ref → matchLen s ref p = 0) ∧
    (ref < p → ref + matchLen s ref p ≤ p) ∧
    p + matchLen s ref p ≤ s.work.n ∧
    (∀ j < matchLen s ref p, inByte s (ref + j) = inByte s (p + j)) ∧
    (ref + matchLen s ref p < p → p + matchLen s ref p < s.work.n →
      inByte s (ref + matchLen s ref p) ≠ inByte s (p + matchLen s ref p))

/-! ## Reset and the register file -/

/-- The reset values of R39 to R49 hold in `State.reset`. -/
def Obligations.ResetValuesHold : Prop :=
  State.reset.status = 0 ∧ State.reset.detail = 0 ∧ State.reset.bytesWritten = 0 ∧
  State.reset.errInPos = 0 ∧ State.reset.errOutPos = 0 ∧
  State.reset.ctxValid = 0 ∧ State.reset.ctxLevel = 0 ∧ State.reset.ctxWindow = 0 ∧
  busyBit State.reset = 0 ∧ ∀ k, indexLookup State.reset.index k = none

/-- The reset event (R370, R372): the result and context registers are 0, the core is idle and the
index empty, each ARG register holds a free value; IN and the parameters are as before; OUT is as before
unless a command is abandoned, whose OUT bytes below its capacity are free values. -/
def Obligations.ResetEventSetsTheRegisters : Prop :=
  ∀ (s : State) (rest : List HostAction), s.host = .reset :: rest →
    ∃ t, step s = .next t ∧
      t.status = 0 ∧ t.detail = 0 ∧ t.bytesWritten = 0 ∧ t.errInPos = 0 ∧ t.errOutPos = 0 ∧
      t.ctxValid = 0 ∧ t.ctxLevel = 0 ∧ t.ctxWindow = 0 ∧ busyBit t = 0 ∧
      (∀ k, indexLookup t.index k = none) ∧
      (∃ d, t.argLevel = Config.freeArgLevel d ∧ t.argInLen = Config.freeArgInLen d ∧
        t.argOutCap = Config.freeArgOutCap d) ∧
      t.inMem = s.inMem ∧ t.cfg = s.cfg ∧ t.host = rest ∧ t.hostData = s.hostData ∧
      (∀ a, busyBit s = 0 ∨ s.work.cap ≤ a → outByte t a = outByte s a) ∧
      (∀ a, busyBit s = 1 → a < s.work.cap → outByte t a = Config.freeOutByte s.draws a)

/-- What the host reads from each register (R34 to R47): CMD and the reserved indices read as 0. That a
narrower register is zero-extended is the model's choice (log 12). -/
def Obligations.RegisterReadReturnsItsValue : Prop :=
  ∀ (s : State) (reg : BitVec 8) (rest : List HostAction), s.host = .read reg :: rest →
    step s = .next { s with
      host := rest
      hostData :=
        if reg = 1 then s.argLevel.setWidth 64
        else if reg = 2 then s.argInLen
        else if reg = 3 then s.argOutCap
        else if reg = 4 then s.status.setWidth 64
        else if reg = 5 then s.detail.setWidth 64
        else if reg = 6 then s.bytesWritten
        else if reg = 7 then s.errInPos
        else if reg = 8 then s.errOutPos
        else if reg = 9 then s.ctxValid.setWidth 64
        else if reg = 10 then s.ctxLevel.setWidth 64
        else if reg = 11 then s.ctxWindow.setWidth 64
        else if reg = 12 then (busyBit s).setWidth 64
        else 0 }

/-- A host write of a register other than CMD changes an ARG register while BUSY = 0 (R36 to R38); a write
of a read-only or reserved register is ignored, whatever BUSY is (R34). That ARG_LEVEL takes the low 32
bits of a wider value is the model's choice (log 12). -/
def Obligations.RegisterWriteChangesOnlyArguments : Prop :=
  ∀ (s : State) (reg : BitVec 8) (value : Word) (rest : List HostAction),
    s.host = .write reg value :: rest → reg ≠ 0 →
      (busyBit s = 0 → step s = .next { s with
        host := rest
        argLevel := if reg = 1 then value.setWidth 32 else s.argLevel
        argInLen := if reg = 2 then value else s.argInLen
        argOutCap := if reg = 3 then value else s.argOutCap }) ∧
      (reg ≠ 1 → reg ≠ 2 → reg ≠ 3 → step s = .next { s with host := rest })

/-- While BUSY = 0 the host writes a byte of IN or of OUT, and no other byte changes (R30, R50). That it
may do so at every 64-bit offset, whatever the ARG lengths hold, is the model's choice (log 17). -/
def Obligations.HostWritesOneByteOfASpace : Prop :=
  ∀ (s : State) (offset : Word) (value : Byte) (rest : List HostAction), busyBit s = 0 →
    (s.host = .writeIn offset value :: rest →
      ∃ m, step s = .next { s with host := rest, inMem := m } ∧
        ∀ a, inByte { s with inMem := m } a = if a = offset.toNat then value else inByte s a) ∧
    (s.host = .writeOut offset value :: rest →
      ∃ m, step s = .next { s with host := rest, outMem := m } ∧
        ∀ a, outByte { s with outMem := m } a = if a = offset.toNat then value else outByte s a)

/-- A host read of a byte of OUT returns it while BUSY = 0 (R30, R50); while BUSY = 1 the value is
unspecified, a free value (R78, R86). No byte of OUT changes. Beside it, a host read of a byte of IN
returns it at any time and changes nothing. The model's choices here: any 64-bit offset may be read (log
17), the step goes on while BUSY = 1 (log 11), and the host can read IN (log 20). -/
def Obligations.HostReadsOneByteOfOut : Prop :=
  ∀ (s : State) (offset : Word) (rest : List HostAction),
    (s.host = .readOut offset :: rest →
      (busyBit s = 0 → step s = .next { s with
        host := rest, hostData := (outByte s offset.toNat).setWidth 64 }) ∧
      (busyBit s = 1 → ∃ d, step s = .next { s with
        host := rest
        hostData := (Config.freeOutByte d offset.toNat).setWidth 64
        draws := s.draws + 1 })) ∧
    (s.host = .readIn offset :: rest →
      step s = .next { s with host := rest, hostData := (inByte s offset.toNat).setWidth 64 })

/-- A polling host waits while the engine moves, and goes on when BUSY reads 0 (R343, R373). Beside it,
the other steps the host leaves to the engine: one with no transaction pending, and `letRun`; an idle
engine changes nothing in them (R349, R371). How the list of transactions says that the engine moves is
the model's choice (log 10). -/
def Obligations.PollingWaitsForTheEngine : Prop :=
  ∀ (s : State) (rest : List HostAction),
    (s.host = .waitIdle :: rest →
      (busyBit s = 1 → step s = engineMove s) ∧
      (busyBit s = 0 → step s = .next { s with host := rest, hostData := 0 })) ∧
    (s.host = .letRun :: rest →
      step s = engineMove { s with host := rest } ∧
      (busyBit s = 0 → step s = .next { s with host := rest })) ∧
    (s.host = [] → step s = engineMove s ∧ (busyBit s = 0 → step s = .next s))

/-! ## Steps -/

/-- With DECOMPRESS running and the input cursor below `n`, a step runs the instruction its header byte
decodes to, the header and a literal's class being latched (R263). That a match leaves the class as it was
is read from R263, which does not assign it (log 21). -/
def Obligations.StepRunsTheTokenAtTheCursor : Prop :=
  ∀ (s : State) (i : Instr) (rest : List Byte), s.host = [] → s.engine = .decompress →
    s.work.i < s.work.n →
    decode (inBytes s s.work.i (s.work.n - s.work.i)) = .ok (i, rest) →
      step s = exec i { s with work := { s.work with
        h := some (inByte s s.work.i)
        cls := if (inByte s s.work.i).toNat < 128
          then some (BitVec.ofNat 2 ((inByte s s.work.i).toNat / 32)) else s.work.cls } }

/-- With DECOMPRESS running and the input cursor at the end of the input, a step completes the command
(R266, R267). -/
def Obligations.DecompressEndsAtTheEndOfInput : Prop :=
  ∀ s : State, s.host = [] → s.engine = .decompress → s.work.n ≤ s.work.i →
    EndsPlainly s 0 (BitVec.ofNat 64 s.work.o) (step s)

/-- A CMD write while BUSY = 0 runs the command its code decodes to (R35, R308). That CMD takes the low
8 bits of a wider value is the model's choice (log 12). -/
def Obligations.CmdWriteRunsTheCommand : Prop :=
  ∀ (s : State) (value : Word) (rest : List HostAction) (i : Instr),
    s.host = .write 0 value :: rest → busyBit s = 0 → decodeCommand (value.setWidth 8) = .ok i →
      step s = exec i { s with host := rest }

/-- A CMD write of an illegal code while BUSY = 0 reports ILLEGAL_COMMAND and changes nothing else
(R115, R307). That CMD takes the low 8 bits of a wider value is the model's choice (log 12). -/
def Obligations.IllegalCommandChangesOnlyResults : Prop :=
  ∀ (s : State) (value : Word) (rest : List HostAction),
    s.host = .write 0 value :: rest → busyBit s = 0 →
    (value.setWidth 8).toNat = 0 ∨ 6 ≤ (value.setWidth 8).toNat →
      step s = .next { s with
        host := rest, status := 6, detail := 0, errInPos := 0, errOutPos := 0 }

/-- A CMD write while BUSY = 1 is ignored (R35, R308). -/
def Obligations.CmdWriteWhileBusyIsIgnored : Prop :=
  ∀ (s : State) (value : Word) (rest : List HostAction),
    s.host = .write 0 value :: rest → busyBit s = 1 → step s = .next { s with host := rest }

/-! ## Context commands -/

/-- CREATE_CONTEXT (R300 to R302): a level of 0 to 9 installs a context with its window and an empty
index; any other level leaves no context and reports CONFIG_ERROR. BYTES_WRITTEN is not written. That a
CONFIG_ERROR leaves OUT as it is, is the model's choice (log 22). Of the working registers, which the host
cannot see, nothing is said here and below where a command ends. -/
def Obligations.CreateContextInstallsOrFails : Prop :=
  ∀ s : State,
    (0 ≤ s.argLevel.toInt → s.argLevel.toInt ≤ 9 →
      ∃ w, exec .createContext s = .next { s with
        index := []
        ctxLevel := BitVec.ofNat 4 s.argLevel.toNat
        ctxWindow := 4096#32 <<< s.argLevel.toNat
        ctxValid := 1
        status := 0, detail := 0, errInPos := 0, errOutPos := 0
        engine := .idle, work := w }) ∧
    (s.argLevel.toInt < 0 ∨ 9 < s.argLevel.toInt →
      ∃ w, exec .createContext s = .next { s with
        index := [], ctxLevel := 0, ctxWindow := 0, ctxValid := 0
        status := 1, detail := 0, errInPos := 0, errOutPos := 0
        engine := .idle, work := w })

/-- DESTROY_CONTEXT (R303). -/
def Obligations.DestroyContextLeavesNoContext : Prop :=
  ∀ s : State, ∃ w, exec .destroyContext s = .next { s with
    index := [], ctxLevel := 0, ctxWindow := 0, ctxValid := 0
    status := 0, detail := 0, errInPos := 0, errOutPos := 0
    engine := .idle, work := w }

/-- RESET_INDEX (R304): with a context the index is emptied, without one NO_CONTEXT is reported. -/
def Obligations.ResetIndexNeedsAContext : Prop :=
  ∀ s : State,
    (s.ctxValid = 1 → ∃ w, exec .resetIndex s = .next { s with
      index := []
      status := 0, detail := 0, errInPos := 0, errOutPos := 0
      engine := .idle, work := w }) ∧
    (s.ctxValid = 0 → ∃ w, exec .resetIndex s = .next { s with
      status := 5, detail := 0, errInPos := 0, errOutPos := 0
      engine := .idle, work := w })

/-! ## Tokens -/

/-- LIT0 (R175): its payload is copied and both cursors move, or it is TRUNCATED, or it does not fit. -/
def Obligations.Lit0CopiesOrFails : Prop :=
  ∀ (s : State) (len : Nat),
    (s.work.n < s.work.i + 1 + len →
      FailsUnspecified s 4 3 s.work.i s.work.o (exec (.lit0 len) s)) ∧
    (s.work.i + 1 + len ≤ s.work.n → s.work.cap < s.work.o + len →
      FailsUnspecified s 3 0 s.work.i s.work.o (exec (.lit0 len) s)) ∧
    (s.work.i + 1 + len ≤ s.work.n → s.work.o + len ≤ s.work.cap →
      AppendsBytes s { s.work with i := s.work.i + 1 + len, o := s.work.o + len }
        (inBytes s (s.work.i + 1) len) (exec (.lit0 len) s))

/-- LIT1 (R176): as LIT0, with the length's low byte read from IN first. -/
def Obligations.Lit1CopiesOrFails : Prop :=
  ∀ (s : State) (lenHi len : Nat), len = lenHi * 256 + (inByte s (s.work.i + 1)).toNat →
    (s.work.n < s.work.i + 2 ∨ s.work.n < s.work.i + 2 + len →
      FailsUnspecified s 4 3 s.work.i s.work.o (exec (.lit1 lenHi) s)) ∧
    (s.work.i + 2 + len ≤ s.work.n → s.work.cap < s.work.o + len →
      FailsUnspecified s 3 0 s.work.i s.work.o (exec (.lit1 lenHi) s)) ∧
    (s.work.i + 2 + len ≤ s.work.n → s.work.o + len ≤ s.work.cap →
      AppendsBytes s { s.work with i := s.work.i + 2 + len, o := s.work.o + len }
        (inBytes s (s.work.i + 2) len) (exec (.lit1 lenHi) s))

/-- LIT2 (R177): as LIT0, with the length's two low bytes read from IN first. -/
def Obligations.Lit2CopiesOrFails : Prop :=
  ∀ (s : State) (lenHi len : Nat),
    len = lenHi * 65536 + (inByte s (s.work.i + 1)).toNat * 256 + (inByte s (s.work.i + 2)).toNat →
    (s.work.n < s.work.i + 3 ∨ s.work.n < s.work.i + 3 + len →
      FailsUnspecified s 4 3 s.work.i s.work.o (exec (.lit2 lenHi) s)) ∧
    (s.work.i + 3 + len ≤ s.work.n → s.work.cap < s.work.o + len →
      FailsUnspecified s 3 0 s.work.i s.work.o (exec (.lit2 lenHi) s)) ∧
    (s.work.i + 3 + len ≤ s.work.n → s.work.o + len ≤ s.work.cap →
      AppendsBytes s { s.work with i := s.work.i + 3 + len, o := s.work.o + len }
        (inBytes s (s.work.i + 3) len) (exec (.lit2 lenHi) s))

/-- LIT3 (R178) always fails with RESERVED_LITERAL_CLASS, whatever its low bits and whatever follows. -/
def Obligations.Lit3IsAlwaysRejected : Prop :=
  ∀ (s : State) (low : Nat), FailsUnspecified s 4 1 s.work.i s.work.o (exec (.lit3 low) s)

/-- MATCH (R179, R181, R182): TRUNCATED, then BAD_DISTANCE, then OUTPUT_CAPACITY; else the last `D` bytes
of the output are repeated periodically for `L` bytes and both cursors move. -/
def Obligations.MatchCopiesOrFails : Prop :=
  ∀ (s : State) (lc dc len dist : Nat),
    len = fieldValue s (s.work.i + 1) lc → dist = fieldValue s (s.work.i + 1 + lc) dc →
    (s.work.n < s.work.i + 1 + lc + dc →
      FailsUnspecified s 4 3 s.work.i s.work.o (exec (.matchRef lc dc) s)) ∧
    (s.work.i + 1 + lc + dc ≤ s.work.n → dist = 0 ∨ s.work.o < dist →
      FailsUnspecified s 4 4 s.work.i s.work.o (exec (.matchRef lc dc) s)) ∧
    (s.work.i + 1 + lc + dc ≤ s.work.n → 1 ≤ dist → dist ≤ s.work.o →
      s.work.cap < s.work.o + len →
      FailsUnspecified s 3 0 s.work.i s.work.o (exec (.matchRef lc dc) s)) ∧
    (s.work.i + 1 + lc + dc ≤ s.work.n → 1 ≤ dist → dist ≤ s.work.o →
      s.work.o + len ≤ s.work.cap →
      AppendsBytes s { s.work with
          i := s.work.i + 1 + lc + dc
          o := s.work.o + len
          len := some len
          dist := some dist
          lc := some (BitVec.ofNat 3 lc)
          dc := some (BitVec.ofNat 3 dc) }
        ((List.range len).map (fun j => outByte s (s.work.o - dist + j % dist)))
        (exec (.matchRef lc dc) s))

/-- The byte loop of R181: after a match that is not rejected, each byte it wrote equals the byte `D`
before it in the result, also where that byte is one it wrote itself. -/
def Obligations.CopyReadsTheBytesItWrote : Prop :=
  ∀ (s t : State) (lc dc len dist : Nat),
    len = fieldValue s (s.work.i + 1) lc → dist = fieldValue s (s.work.i + 1 + lc) dc →
    s.work.i + 1 + lc + dc ≤ s.work.n → 1 ≤ dist → dist ≤ s.work.o → s.work.o + len ≤ s.work.cap →
    exec (.matchRef lc dc) s = .next t →
      ∀ j < len, outByte t (s.work.o + j) = outByte t (s.work.o + j - dist)

/-- MATCH10 (R180): rejected before any other check under `MALFORMED`; under `AS_MATCH` it does what
MATCH does, so it copies where a MATCH would. -/
def Obligations.Match10FollowsThePolicy : Prop :=
  ∀ (s : State) (lc dc len dist : Nat),
    len = fieldValue s (s.work.i + 1) lc → dist = fieldValue s (s.work.i + 1 + lc) dc →
    (s.cfg.matchTag10 = .malformed →
      FailsUnspecified s 4 2 s.work.i s.work.o (exec (.match10 lc dc) s)) ∧
    (s.cfg.matchTag10 = .asMatch → exec (.match10 lc dc) s = exec (.matchRef lc dc) s) ∧
    (s.cfg.matchTag10 = .asMatch →
      s.work.i + 1 + lc + dc ≤ s.work.n → 1 ≤ dist → dist ≤ s.work.o →
      s.work.o + len ≤ s.work.cap →
      AppendsBytes s { s.work with
          i := s.work.i + 1 + lc + dc
          o := s.work.o + len
          len := some len
          dist := some dist
          lc := some (BitVec.ofNat 3 lc)
          dc := some (BitVec.ofNat 3 dc) }
        ((List.range len).map (fun j => outByte s (s.work.o - dist + j % dist)))
        (exec (.match10 lc dc) s))

/-! ## DECOMPRESS -/

/-- DECOMPRESS (R260 to R262): the size checks, then the engine starts with its cursors at 0, with or
without a context. -/
def Obligations.DecompressStartsOrFails : Prop :=
  ∀ s : State,
    (s.argInLen.toNat < 4 ∨ s.cfg.nMax < s.argInLen.toNat ∨ s.cfg.capMax < s.argOutCap.toNat →
      EndsPlainly s 2 0 (exec .decompress s)) ∧
    (4 ≤ s.argInLen.toNat → s.argInLen.toNat ≤ s.cfg.nMax → s.argOutCap.toNat ≤ s.cfg.capMax →
      exec .decompress s = .next { s with
        engine := .decompress
        work := Work.start s.argInLen.toNat s.argOutCap.toNat })

/-- DECOMPRESS always completes, within one move per input byte and one more, with OK, OUTPUT_CAPACITY
or MALFORMED_STREAM (R269, R333). -/
def Obligations.DecompressAlwaysCompletes : Prop :=
  ∀ s : State, s.host = [] → 4 ≤ s.argInLen.toNat → s.argInLen.toNat ≤ s.cfg.nMax →
    s.argOutCap.toNat ≤ s.cfg.capMax →
      ∃ t, FinishesWithin (s.argInLen.toNat + 1) .decompress s t ∧
        (t.status = 0 ∨ t.status = 3 ∨ t.status = 4)

/-- DECOMPRESS of a token stream produces what its tokens stand for (R263, R267, R270): the bytes in
OUT, their number in BYTES_WRITTEN, the rest of OUT and the context as before. -/
def Obligations.DecompressProducesTheExpansion : Prop :=
  ∀ (s : State) (ts : List Token) (out : List Byte), s.host = [] →
    (∀ t ∈ ts, t.wf = true) → InputIs s (streamBytes ts) →
    4 ≤ s.argInLen.toNat → s.argInLen.toNat ≤ s.cfg.nMax → s.argOutCap.toNat ≤ s.cfg.capMax →
    expandTokens s.cfg.matchTag10 [] ts = some out → out.length ≤ s.argOutCap.toNat →
      ∃ t, FinishesWithin (ts.length + 1) .decompress s t ∧
        t.status = 0 ∧ t.bytesWritten.toNat = out.length ∧ OutputIs t out ∧
        (∀ a, out.length ≤ a → outByte t a = outByte s a) ∧
        t.index = s.index ∧ t.ctxValid = s.ctxValid ∧ t.ctxLevel = s.ctxLevel ∧
        t.ctxWindow = s.ctxWindow ∧ t.inMem = s.inMem

/-- DECOMPRESS neither reads nor writes the context (R148, R262): with other context registers and
another index, its start and each of its moves are the same and leave them alone. -/
def Obligations.DecompressIgnoresTheContext : Prop :=
  ∀ (s t : State) (x : Index) (v : BitVec 1) (l : BitVec 4) (w : BitVec 32),
    (exec .decompress s = .next t →
      (t.index = s.index ∧ t.ctxValid = s.ctxValid ∧ t.ctxLevel = s.ctxLevel ∧
        t.ctxWindow = s.ctxWindow) ∧
      exec .decompress { s with index := x, ctxValid := v, ctxLevel := l, ctxWindow := w }
        = .next { t with index := x, ctxValid := v, ctxLevel := l, ctxWindow := w }) ∧
    (s.engine = .decompress → engineMove s = .next t →
      (t.index = s.index ∧ t.ctxValid = s.ctxValid ∧ t.ctxLevel = s.ctxLevel ∧
        t.ctxWindow = s.ctxWindow) ∧
      engineMove { s with index := x, ctxValid := v, ctxLevel := l, ctxWindow := w }
        = .next { t with index := x, ctxValid := v, ctxLevel := l, ctxWindow := w })

/-! ## COMPRESS -/

/-- COMPRESS (R220 to R223): NO_CONTEXT first, then the size checks; else the optional clear, and the
engine starts with its cursors at 0. -/
def Obligations.CompressStartsOrFails : Prop :=
  ∀ s : State,
    (s.ctxValid = 0 → EndsPlainly s 5 0 (exec .compress s)) ∧
    (s.ctxValid = 1 →
      s.argInLen.toNat < 4 ∨ s.cfg.nMax < s.argInLen.toNat ∨ s.cfg.capMax < s.argOutCap.toNat →
      EndsPlainly s 2 0 (exec .compress s)) ∧
    (s.ctxValid = 1 → 4 ≤ s.argInLen.toNat → s.argInLen.toNat ≤ s.cfg.nMax →
      s.argOutCap.toNat ≤ s.cfg.capMax →
      exec .compress s = .next { s with
        index := if s.cfg.clearIndexOnCompress then [] else s.index
        engine := .compress
        work := Work.start s.argInLen.toNat s.argOutCap.toNat })

/-- A scan step whose key has no usable hit (R224, R225, R227 to R229): the key is inserted at `p` in
place of any entry it had, `p` moves by 1, `L` is 0, nothing is written. That `ref`
takes the result of the lookup also where it is none is read from R225 (log 21). -/
def Obligations.ScanMissInsertsTheKey : Prop :=
  ∀ s : State, s.host = [] → s.engine = .compress → s.work.p + 4 ≤ s.work.n →
    (∀ ref, indexLookup s.index (keyAt s s.work.p) = some ref →
      matchLen s ref s.work.p = 0 ∨
        s.cfg.windowEnforced = true ∧ s.ctxWindow.toNat < s.work.p - ref) →
      ∃ x, step s = .next { s with
          index := x
          work := { s.work with
            p := s.work.p + 1
            k := some (keyAt s s.work.p)
            ref := indexLookup s.index (keyAt s s.work.p)
            len := some 0 } } ∧
        ∀ c, indexLookup x c = if c = keyAt s s.work.p then some s.work.p else indexLookup s.index c

/-- A scan step with a usable hit whose tokens fit (R172 to R174, R230): the pending run and the match
are written, both cursors move past the match, and the index changes only under INDEX_UPDATE_ON_HIT. -/
def Obligations.ScanHitEmitsRunAndMatch : Prop :=
  ∀ (s : State) (ref len : Nat) (bytes : List Byte),
    s.host = [] → s.engine = .compress → s.work.p + 4 ≤ s.work.n →
    indexLookup s.index (keyAt s s.work.p) = some ref →
    len = matchLen s ref s.work.p → 0 < len →
    (s.cfg.windowEnforced = true → s.work.p - ref ≤ s.ctxWindow.toNat) →
    bytes = streamBytes (litRun (inBytes s s.work.anchor (s.work.p - s.work.anchor)) ++
      [canonicalReference len (s.work.p - ref)]) →
    s.work.o + bytes.length ≤ s.work.cap →
      AppendsBytes
        { s with index :=
            if s.cfg.indexUpdateOnHit then indexInsert s.index (keyAt s s.work.p) s.work.p else s.index }
        { s.work with
          p := s.work.p + len
          anchor := s.work.p + len
          o := s.work.o + bytes.length
          k := some (keyAt s s.work.p)
          ref := some ref
          len := some len
          dist := some (s.work.p - ref)
          lc := some (BitVec.ofNat 3 (byteWidth len))
          dc := some (BitVec.ofNat 3 (byteWidth (s.work.p - ref))) }
        bytes (step s)

/-- A scan step with a usable hit, one of whose tokens is the first that does not fit (R174, R233, R334,
R340): OUTPUT_CAPACITY at the input offset where that token's data begins, with the index as it was. -/
def Obligations.ScanHitFailsAtTheTokenThatDoesNotFit : Prop :=
  ∀ (s : State) (ref len j : Nat) (ts : List Token),
    s.host = [] → s.engine = .compress → s.work.p + 4 ≤ s.work.n → s.work.anchor ≤ s.work.p →
    indexLookup s.index (keyAt s s.work.p) = some ref →
    len = matchLen s ref s.work.p → 0 < len →
    (s.cfg.windowEnforced = true → s.work.p - ref ≤ s.ctxWindow.toNat) →
    ts = litRun (inBytes s s.work.anchor (s.work.p - s.work.anchor)) ++
      [canonicalReference len (s.work.p - ref)] →
    j < ts.length →
    s.work.o + (streamBytes (ts.take j)).length ≤ s.work.cap →
    s.work.cap < s.work.o + (streamBytes (ts.take (j + 1))).length →
      FailsUnspecified s 3 0
        (s.work.anchor + ((ts.take j).flatMap Token.payload).length)
        (s.work.o + (streamBytes (ts.take j)).length) (step s)

/-- The end of the scan when the tail fits (R231, R232): the pending run is written, and COMPRESS
completes with the number of bytes written in BYTES_WRITTEN. -/
def Obligations.ScanEndFlushesAndCompletes : Prop :=
  ∀ (s : State) (bytes : List Byte), s.host = [] → s.engine = .compress → s.work.n < s.work.p + 4 →
    bytes = streamBytes (litRun (inBytes s s.work.anchor (s.work.n - s.work.anchor))) →
    s.work.o + bytes.length ≤ s.work.cap →
      ∃ m w, step s = .next { s with
          outMem := m
          status := 0
          detail := 0
          bytesWritten := BitVec.ofNat 64 (s.work.o + bytes.length)
          errInPos := 0
          errOutPos := 0
          engine := .idle
          work := w } ∧
        (∀ j < bytes.length, outByteOf s.outDraws m (s.work.o + j) = bytes.getD j 0) ∧
        ∀ a, a < s.work.o ∨ s.work.o + bytes.length ≤ a → outByteOf s.outDraws m a = outByte s a

/-- The end of the scan when a token of the tail does not fit (R174, R233, R334, R340). -/
def Obligations.ScanEndFailsAtTheTokenThatDoesNotFit : Prop :=
  ∀ (s : State) (j : Nat) (ts : List Token),
    s.host = [] → s.engine = .compress → s.work.n < s.work.p + 4 →
    ts = litRun (inBytes s s.work.anchor (s.work.n - s.work.anchor)) →
    j < ts.length →
    s.work.o + (streamBytes (ts.take j)).length ≤ s.work.cap →
    s.work.cap < s.work.o + (streamBytes (ts.take (j + 1))).length →
      FailsUnspecified s 3 0
        (s.work.anchor + ((ts.take j).flatMap Token.payload).length)
        (s.work.o + (streamBytes (ts.take j)).length) (step s)

/-- COMPRESS always completes, within one move per input byte, with OK or OUTPUT_CAPACITY (R233, R235). -/
def Obligations.CompressAlwaysCompletes : Prop :=
  ∀ s : State, s.host = [] → s.ctxValid = 1 → 4 ≤ s.argInLen.toNat →
    s.argInLen.toNat ≤ s.cfg.nMax → s.argOutCap.toNat ≤ s.cfg.capMax →
      ∃ t, FinishesWithin s.argInLen.toNat .compress s t ∧
        (t.status = 0 ∨ t.status = 3) ∧ t.detail = 0

/-- A COMPRESS that succeeds wrote a stream of canonical tokens, at least 5 bytes, the first token a
literal, that stands for its input, whatever the index held before (R234, R236, R238, R270). -/
def Obligations.CompressWritesTokensOfTheInput : Prop :=
  ∀ (s t : State) (input : List Byte), s.host = [] → s.cfg.legal → InputIs s input →
    Finishes .compress s t → t.status = 0 →
      ∃ ts, OutputIs t (streamBytes ts) ∧ t.bytesWritten.toNat = (streamBytes ts).length ∧
        5 ≤ (streamBytes ts).length ∧
        (∀ tok ∈ ts, tok.canonical = true) ∧
        (∃ cls payload more, ts = .literal cls payload :: more) ∧
        (∀ policy, expandTokens policy [] ts = some input) ∧
        ∀ a, (streamBytes ts).length ≤ a → outByte t a = outByte s a

/-- Round trip (R237): DECOMPRESS of what a successful COMPRESS wrote gives the input back, for any
earlier index contents and every parameter setting. -/
def Obligations.CompressThenDecompressGivesTheInput : Prop :=
  ∀ (s t u : State) (input : List Byte), s.host = [] → s.cfg.legal → InputIs s input →
    Finishes .compress s t → t.status = 0 →
    4 ≤ t.bytesWritten.toNat → t.bytesWritten.toNat ≤ s.cfg.nMax →
    u.host = [] → u.cfg = s.cfg → u.argInLen = t.bytesWritten →
    (∀ a < t.bytesWritten.toNat, inByte u a = outByte t a) →
    input.length ≤ u.argOutCap.toNat → u.argOutCap.toNat ≤ u.cfg.capMax →
      ∃ v, Finishes .decompress u v ∧ v.status = 0 ∧
        v.bytesWritten.toNat = input.length ∧ OutputIs v input

/-- A capacity of `(2 + BYTEWIDTH(n)) · n` always suffices for COMPRESS, and one of `3 · n` when the
index is fresh (R236, R378). -/
def Obligations.CompressCapacityThatSuffices : Prop :=
  ∀ (s : State) (bound : Nat), s.host = [] → s.cfg.legal → s.ctxValid = 1 →
    4 ≤ s.argInLen.toNat → s.argInLen.toNat ≤ s.cfg.nMax → s.argOutCap.toNat ≤ s.cfg.capMax →
    (bound = (2 + byteWidth s.argInLen.toNat) * s.argInLen.toNat ∨
      bound = 3 * s.argInLen.toNat ∧ (s.index = [] ∨ s.cfg.clearIndexOnCompress = true)) →
    bound ≤ s.argOutCap.toNat →
      ∃ t, Finishes .compress s t ∧ t.status = 0 ∧ t.bytesWritten.toNat ≤ bound

/-- Unless WINDOW_ENFORCED is set, the level and the window have no effect on COMPRESS (R147, R305): its
start and each of its moves are the same with others, and leave them alone. -/
def Obligations.WindowHasNoEffectUnlessEnforced : Prop :=
  ∀ (s t : State) (l : BitVec 4) (w : BitVec 32), s.cfg.windowEnforced = false →
    (exec .compress s = .next t →
      exec .compress { s with ctxLevel := l, ctxWindow := w }
        = .next { t with ctxLevel := l, ctxWindow := w }) ∧
    (s.engine = .compress → engineMove s = .next t →
      engineMove { s with ctxLevel := l, ctxWindow := w }
        = .next { t with ctxLevel := l, ctxWindow := w })

/-! ## Rules of the whole machine -/

/-- A move of the engine leaves IN, the ARG registers, the context registers, the parameters and the
host as they are (R34, R44 to R46, R50, R55). -/
def Obligations.EngineMoveLeavesInputsAndContext : Prop :=
  ∀ s t : State, engineMove s = .next t →
    t.inMem = s.inMem ∧ t.argLevel = s.argLevel ∧ t.argInLen = s.argInLen ∧
    t.argOutCap = s.argOutCap ∧ t.ctxValid = s.ctxValid ∧ t.ctxLevel = s.ctxLevel ∧
    t.ctxWindow = s.ctxWindow ∧ t.cfg = s.cfg ∧ t.host = s.host ∧ t.hostData = s.hostData

/-- IN changes only by a host write of it while BUSY = 0 (R30, R50, R84). -/
def Obligations.InIsWrittenOnlyByTheHost : Prop :=
  ∀ s t : State, step s = .next t →
    t.inMem = s.inMem ∨
    (busyBit s = 0 ∧ ∃ offset value rest, s.host = .writeIn offset value :: rest)

/-- While a command goes on, each move of the engine advances its cursor, and the cursor stays within
the input (R33, R235, R264). -/
def Obligations.CursorsAdvanceWithEveryMove : Prop :=
  ∀ s t : State, engineMove s = .next t → t.engine ≠ .idle →
    t.engine = s.engine ∧ t.work.n = s.work.n ∧
    (s.engine = .decompress → s.work.i < t.work.i ∧ t.work.i ≤ s.work.n) ∧
    (s.engine = .compress → s.work.p < t.work.p ∧ t.work.p ≤ s.work.n)

/-- OUT is written at the output cursor and upward only, and never at or past the capacity, while a
command goes on (R72). -/
def Obligations.OutIsWrittenInIncreasingOrder : Prop :=
  ∀ s t : State, engineMove s = .next t → t.engine ≠ .idle →
    t.work.cap = s.work.cap ∧ s.work.o ≤ t.work.o ∧
    (s.work.o ≤ s.work.cap → t.work.o ≤ s.work.cap) ∧
    ∀ a, a < s.work.o ∨ t.work.o ≤ a → outByte t a = outByte s a

/-- No move of the engine changes a byte of OUT at or past the capacity, not even one that fails (R72,
R339). -/
def Obligations.OutPastTheCapacityIsNeverChanged : Prop :=
  ∀ s t : State, engineMove s = .next t → ∀ a, s.work.cap ≤ a → outByte t a = outByte s a

/-- The result registers keep the previous command's values while a command runs (R39, R375). -/
def Obligations.ResultRegistersHoldWhileBusy : Prop :=
  ∀ s t : State, engineMove s = .next t → t.engine ≠ .idle →
    t.status = s.status ∧ t.detail = s.detail ∧ t.bytesWritten = s.bytesWritten ∧
    t.errInPos = s.errInPos ∧ t.errOutPos = s.errOutPos

/-- Only CREATE_CONTEXT, DESTROY_CONTEXT and reset change a context register (R44 to R46). -/
def Obligations.ContextRegistersHaveThreeWriters : Prop :=
  ∀ s t : State, step s = .next t →
    (t.ctxValid = s.ctxValid ∧ t.ctxLevel = s.ctxLevel ∧ t.ctxWindow = s.ctxWindow) ∨
    (∃ rest, s.host = .reset :: rest) ∨
    (busyBit s = 0 ∧ ∃ value rest, s.host = .write 0 value :: rest ∧
      (decodeCommand (value.setWidth 8) = .ok .createContext ∨
        decodeCommand (value.setWidth 8) = .ok .destroyContext))

/-- Only a move of the engine while COMPRESS runs, a command other than DECOMPRESS, and reset change the
index (R49, R145); a command and a reset that change it empty it. -/
def Obligations.IndexIsChangedByCompressAndClears : Prop :=
  ∀ s t : State, step s = .next t →
    t.index = s.index ∨
    (s.engine = .compress ∧
      (s.host = [] ∨ ∃ rest, s.host = .letRun :: rest ∨ s.host = .waitIdle :: rest)) ∨
    (t.index = [] ∧
      ((∃ rest, s.host = .reset :: rest) ∨
        (busyBit s = 0 ∧ ∃ value rest i, s.host = .write 0 value :: rest ∧
          decodeCommand (value.setWidth 8) = .ok i ∧ i ≠ .decompress)))

/-- The parameters never change (R55). -/
def Obligations.ParametersNeverChange : Prop :=
  ∀ s t : State, step s = .next t → t.cfg = s.cfg

/-- A step always has a next state, but where the host breaks a duty of R375 while BUSY = 1: it writes
IN (a race, R86), OUT, or an ARG register. -/
def Obligations.StepStopsOnlyOnABrokenHostDuty : Prop :=
  ∀ s : State,
    (∃ t, step s = .next t) ∨
    (busyBit s = 1 ∧
      ((∃ offset value rest, s.host = .writeIn offset value :: rest ∧ step s = .fault .inputRace) ∨
        (∃ offset value rest, s.host = .writeOut offset value :: rest ∧
          step s = .refused .hostWritesOut) ∨
        (∃ reg value rest, s.host = .write reg value :: rest ∧ (reg = 1 ∨ reg = 2 ∨ reg = 3) ∧
          step s = .refused .hostWritesArgument)))

/-- Every step keeps the invariant: canonical spaces, a consistent context, results in range, working
registers in range, and every byte of OUT below the output cursor written (R13, R33, R39 to R46, R51,
R234, R332). -/
def Obligations.StepKeepsTheCoreInvariant : Prop :=
  ∀ s t : State, Inv s → step s = .next t → Inv t

/-- The invariant holds after reset. -/
def Obligations.ResetMeetsTheCoreInvariant : Prop := Inv State.reset
end

