-- ==== Sys2Proof/Laws/Memory.lean ====
section
/-! SUPPORT. The laws of the sparse spaces: read after write, what a write leaves alone, and that every
memory operation keeps the canonical form. -/

namespace Sys2Proof.Machine

section Sparse

variable {α : Type}

@[simp] theorem sparseGet_sparsePut_self (m : List (Nat × α)) (a : Nat) (v : α) :
    sparseGet (sparsePut m a v) a = some v := by
  induction m with
  | nil => simp [sparsePut, sparseGet]
  | cons e m ih =>
    obtain ⟨b, w⟩ := e
    simp only [sparsePut]
    split
    · simp [sparseGet]
    · split
      · simp [sparseGet]
      · simp [sparseGet, *]

theorem sparseGet_sparsePut_ne (m : List (Nat × α)) {a c : Nat} (v : α) (h : c ≠ a) :
    sparseGet (sparsePut m a v) c = sparseGet m c := by
  induction m with
  | nil => simp [sparsePut, sparseGet, h]
  | cons e m ih =>
    obtain ⟨b, w⟩ := e
    simp only [sparsePut]
    split
    · simp [sparseGet, h]
    · split
      · subst a; simp [sparseGet, h]
      · simp [sparseGet, ih]

theorem sparseGet_sparsePut (m : List (Nat × α)) (a c : Nat) (v : α) :
    sparseGet (sparsePut m a v) c = if c = a then some v else sparseGet m c := by
  split
  · simp_all
  · exact sparseGet_sparsePut_ne m v ‹_›

theorem mem_sparsePut {m : List (Nat × α)} {a : Nat} {v : α} {e : Nat × α}
    (h : e ∈ sparsePut m a v) : e = (a, v) ∨ e ∈ m := by
  induction m with
  | nil => simpa [sparsePut] using h
  | cons x m ih =>
    obtain ⟨b, w⟩ := x
    simp only [sparsePut] at h
    split at h
    · simpa using h
    · split at h
      · simp at h ⊢; tauto
      · rcases List.mem_cons.mp h with h | h
        · simp [h]
        · rcases ih h with h | h <;> simp [h]

theorem sparsePut_wf {m : List (Nat × α)} (h : sparseWf m) (a : Nat) (v : α) :
    sparseWf (sparsePut m a v) := by
  induction m with
  | nil => simp [sparsePut]
  | cons x m ih =>
    obtain ⟨b, w⟩ := x
    obtain ⟨hb, hm⟩ := List.pairwise_cons.mp h
    simp only [sparsePut]
    split
    · refine List.pairwise_cons.mpr ⟨fun e he => ?_, h⟩
      rcases List.mem_cons.mp he with rfl | he
      · assumption
      · exact lt_trans ‹_› (hb e he)
    · split
      · subst a; exact List.pairwise_cons.mpr ⟨hb, hm⟩
      · refine List.pairwise_cons.mpr ⟨fun e he => ?_, ih hm⟩
        rcases mem_sparsePut he with rfl | he
        · show b < a; omega
        · exact hb e he

theorem filter_wf {m : List (Nat × α)} (h : sparseWf m) (p : Nat × α → Bool) :
    sparseWf (m.filter p) := h.filter p

theorem sparseGet_filter (m : List (Nat × α)) (bound a : Nat) :
    sparseGet (m.filter (fun e => bound ≤ e.1)) a = if bound ≤ a then sparseGet m a else none := by
  induction m with
  | nil => simp [sparseGet]
  | cons e m ih =>
    obtain ⟨b, w⟩ := e
    by_cases hb : bound ≤ b
    · simp only [List.filter_cons, hb, decide_true, if_true, sparseGet, ih]
      split
      · subst a; simp [hb]
      · rfl
    · rw [List.filter_cons_of_neg (by simpa using hb), ih]
      by_cases ha : bound ≤ a
      · have : a ≠ b := by omega
        simp [sparseGet, ha, this]
      · simp [ha]

theorem mem_of_sparseGet {m : List (Nat × α)} {a : Nat} {v : α} (h : sparseGet m a = some v) :
    (a, v) ∈ m := by
  induction m with
  | nil => simp [sparseGet] at h
  | cons e m ih =>
    obtain ⟨b, w⟩ := e
    simp only [sparseGet] at h
    split at h
    · simp_all
    · exact List.mem_cons_of_mem _ (ih h)

end Sparse

/-! ## Writing runs of bytes -/

theorem sparseGet_putBytes (bs : List Byte) : ∀ (m : Memory) (a c : Nat),
    sparseGet (putBytes m a bs) c
      = if a ≤ c ∧ c < a + bs.length then bs[c - a]? else sparseGet m c := by
  induction bs with
  | nil => intro m a c; simp [putBytes]
  | cons b bs ih =>
    intro m a c
    simp only [putBytes, ih, List.length_cons, sparseGet_sparsePut]
    by_cases hc : c = a
    · subst c; simp
    · by_cases h : a + 1 ≤ c ∧ c < a + 1 + bs.length
      · have h2 : a ≤ c ∧ c < a + (bs.length + 1) := by omega
        have h3 : c - a = (c - (a + 1)) + 1 := by omega
        simp [h, h2, h3]
      · have h2 : ¬(a ≤ c ∧ c < a + (bs.length + 1)) := by omega
        rw [if_neg h, if_neg h2, if_neg hc]

theorem putBytes_wf (bs : List Byte) : ∀ {m : Memory} (_ : m.wf) (a : Nat), (putBytes m a bs).wf := by
  induction bs with
  | nil => intro m h a; exact h
  | cons b bs ih => intro m h a; exact ih (sparsePut_wf h a b) (a + 1)

theorem putBytes_append (bs cs : List Byte) : ∀ (m : Memory) (a : Nat),
    putBytes m a (bs ++ cs) = putBytes (putBytes m a bs) (a + bs.length) cs := by
  induction bs with
  | nil => intro m a; rfl
  | cons b bs ih =>
    intro m a
    simp only [List.cons_append, putBytes, ih, List.length_cons]
    congr 1; omega

theorem outByteOf_putBytes (d : Draws) (m : Memory) (a : Nat) (bs : List Byte) (c : Nat) :
    outByteOf d (putBytes m a bs) c
      = if a ≤ c ∧ c < a + bs.length then bs.getD (c - a) 0 else outByteOf d m c := by
  unfold outByteOf
  rw [sparseGet_putBytes]
  split
  · have h : c - a < bs.length := by omega
    simp [List.getD, h]
  · rfl

/-! ## The overlapping copy -/

theorem copyBack_wf (d : Draws) (dist len : Nat) : ∀ {m : Memory} (_ : m.wf) (dst : Nat),
    (copyBack d dist m dst len).wf := by
  induction len with
  | zero => intro m h dst; exact h
  | succ len ih => intro m h dst; exact ih (sparsePut_wf h _ _) _

/-- A copy writes `len` bytes from `dst` on and no other. -/
theorem sparseGet_copyBack_outside (d : Draws) (dist len : Nat) : ∀ (m : Memory) (dst c : Nat),
    c < dst ∨ dst + len ≤ c → sparseGet (copyBack d dist m dst len) c = sparseGet m c := by
  induction len with
  | zero => intro m dst c _; rfl
  | succ len ih =>
    intro m dst c h
    simp only [copyBack]
    rw [ih _ _ _ (by omega), sparseGet_sparsePut_ne _ _ (by omega)]

/-- Each byte a copy writes equals the byte `dist` before it in the result (R181). -/
theorem outByteOf_copyBack (d : Draws) (dist len : Nat) (hd : 0 < dist) : ∀ (m : Memory) (dst j : Nat),
    dist ≤ dst → j < len →
      sparseGet (copyBack d dist m dst len) (dst + j)
        = some (outByteOf d (copyBack d dist m dst len) (dst + j - dist)) := by
  induction len with
  | zero => intro m dst j _ h; omega
  | succ len ih =>
    intro m dst j hdst hj
    simp only [copyBack]
    cases j with
    | zero =>
      have h1 := sparseGet_copyBack_outside d dist len
        (sparsePut m dst (outByteOf d m (dst - dist))) (dst + 1) dst (by omega)
      have h2 := sparseGet_copyBack_outside d dist len
        (sparsePut m dst (outByteOf d m (dst - dist))) (dst + 1) (dst - dist) (by omega)
      rw [sparseGet_sparsePut_ne _ _ (by omega)] at h2
      simp only [Nat.add_zero]
      rw [h1, sparseGet_sparsePut_self]
      simp only [outByteOf] at h2 ⊢
      rw [h2]
    | succ j =>
      have h := ih (sparsePut m dst (outByteOf d m (dst - dist))) (dst + 1) j (by omega) (by omega)
      rwa [show dst + 1 + j = dst + (j + 1) by omega] at h

/-! ## The draws of OUT -/

theorem newDraw_wf {d : Draws} (h : d.wf) (bound draw : Nat) : (newDraw bound draw d).wf := by
  unfold newDraw
  split
  · exact h
  · refine ⟨List.pairwise_cons.mpr ⟨fun e he => ?_, h.1.filter _⟩, fun e he => ?_⟩
    · simpa using (List.mem_filter.mp he).2
    · rcases List.mem_cons.mp he with rfl | he
      · show 0 < bound; omega
      · exact h.2 e (List.mem_filter.mp he).1

theorem drawOf_filter (d : Draws) {bound a : Nat} (h : bound ≤ a) :
    drawOf (d.filter (fun e => bound < e.1)) a = drawOf d a := by
  induction d with
  | nil => rfl
  | cons e d ih =>
    obtain ⟨b, w⟩ := e
    by_cases hb : bound < b
    · simp [hb, drawOf, ih]
    · have : ¬a < b := by omega
      simp [hb, drawOf, ih, this]

/-- Below its bound a new draw decides, at and above it nothing changes. -/
theorem drawOf_newDraw (d : Draws) (bound draw a : Nat) :
    drawOf (newDraw bound draw d) a = if a < bound then draw else drawOf d a := by
  unfold newDraw
  split
  · simp_all
  · simp only [drawOf]
    split
    · rfl
    · exact drawOf_filter d (by omega)

/-- An image of OUT after every byte below `bound` is drawn anew. -/
theorem outByteOf_scrambled (d : Draws) (m : Memory) (bound draw a : Nat) :
    outByteOf (newDraw bound draw d) (m.filter (fun e => bound ≤ e.1)) a
      = if a < bound then Config.freeOutByte draw a else outByteOf d m a := by
  unfold outByteOf
  rw [sparseGet_filter, drawOf_newDraw]
  by_cases h : a < bound
  · have : ¬bound ≤ a := by omega
    simp [h, this]
  · have : bound ≤ a := by omega
    simp [h, this]

/-! ## The index -/

theorem indexLookup_indexInsert (x : Index) (k c : Key) (off : Nat) :
    indexLookup (indexInsert x k off) c = if c = k then some off else indexLookup x c := by
  unfold indexLookup indexInsert
  rw [sparseGet_sparsePut]
  simp [BitVec.toNat_inj]

theorem indexLookup_clear (k : Key) : indexLookup indexClear k = none := rfl

/-! ## Reset -/

theorem reset_spaces_wf :
    State.reset.inMem.wf ∧ State.reset.outMem.wf ∧ State.reset.index.wf ∧ State.reset.outDraws.wf := by
  decide

end Sys2Proof.Machine
end

