-- ==== Sys2Proof/Laws/State.lean ====
section
/-! SUPPORT. One lemma per field per update, so that no proof unfolds a record update. -/

namespace Sys2Proof.Machine

@[simp] theorem withWork_cfg (s : State) (w : Work) : (withWork s w).cfg = s.cfg := rfl
@[simp] theorem withWork_argLevel (s : State) (w : Work) : (withWork s w).argLevel = s.argLevel := rfl
@[simp] theorem withWork_argInLen (s : State) (w : Work) : (withWork s w).argInLen = s.argInLen := rfl
@[simp] theorem withWork_argOutCap (s : State) (w : Work) : (withWork s w).argOutCap = s.argOutCap := rfl
@[simp] theorem withWork_status (s : State) (w : Work) : (withWork s w).status = s.status := rfl
@[simp] theorem withWork_detail (s : State) (w : Work) : (withWork s w).detail = s.detail := rfl
@[simp] theorem withWork_bytesWritten (s : State) (w : Work) : (withWork s w).bytesWritten = s.bytesWritten := rfl
@[simp] theorem withWork_errInPos (s : State) (w : Work) : (withWork s w).errInPos = s.errInPos := rfl
@[simp] theorem withWork_errOutPos (s : State) (w : Work) : (withWork s w).errOutPos = s.errOutPos := rfl
@[simp] theorem withWork_ctxValid (s : State) (w : Work) : (withWork s w).ctxValid = s.ctxValid := rfl
@[simp] theorem withWork_ctxLevel (s : State) (w : Work) : (withWork s w).ctxLevel = s.ctxLevel := rfl
@[simp] theorem withWork_ctxWindow (s : State) (w : Work) : (withWork s w).ctxWindow = s.ctxWindow := rfl
@[simp] theorem withWork_engine (s : State) (w : Work) : (withWork s w).engine = s.engine := rfl
@[simp] theorem withWork_index (s : State) (w : Work) : (withWork s w).index = s.index := rfl
@[simp] theorem withWork_inMem (s : State) (w : Work) : (withWork s w).inMem = s.inMem := rfl
@[simp] theorem withWork_outMem (s : State) (w : Work) : (withWork s w).outMem = s.outMem := rfl
@[simp] theorem withWork_outDraws (s : State) (w : Work) : (withWork s w).outDraws = s.outDraws := rfl
@[simp] theorem withWork_draws (s : State) (w : Work) : (withWork s w).draws = s.draws := rfl
@[simp] theorem withWork_work (s : State) (w : Work) : (withWork s w).work = w := rfl
@[simp] theorem withWork_host (s : State) (w : Work) : (withWork s w).host = s.host := rfl
@[simp] theorem withWork_hostData (s : State) (w : Work) : (withWork s w).hostData = s.hostData := rfl

@[simp] theorem withOut_cfg (s : State) (m : Memory) : (withOut s m).cfg = s.cfg := rfl
@[simp] theorem withOut_argLevel (s : State) (m : Memory) : (withOut s m).argLevel = s.argLevel := rfl
@[simp] theorem withOut_argInLen (s : State) (m : Memory) : (withOut s m).argInLen = s.argInLen := rfl
@[simp] theorem withOut_argOutCap (s : State) (m : Memory) : (withOut s m).argOutCap = s.argOutCap := rfl
@[simp] theorem withOut_status (s : State) (m : Memory) : (withOut s m).status = s.status := rfl
@[simp] theorem withOut_detail (s : State) (m : Memory) : (withOut s m).detail = s.detail := rfl
@[simp] theorem withOut_bytesWritten (s : State) (m : Memory) : (withOut s m).bytesWritten = s.bytesWritten := rfl
@[simp] theorem withOut_errInPos (s : State) (m : Memory) : (withOut s m).errInPos = s.errInPos := rfl
@[simp] theorem withOut_errOutPos (s : State) (m : Memory) : (withOut s m).errOutPos = s.errOutPos := rfl
@[simp] theorem withOut_ctxValid (s : State) (m : Memory) : (withOut s m).ctxValid = s.ctxValid := rfl
@[simp] theorem withOut_ctxLevel (s : State) (m : Memory) : (withOut s m).ctxLevel = s.ctxLevel := rfl
@[simp] theorem withOut_ctxWindow (s : State) (m : Memory) : (withOut s m).ctxWindow = s.ctxWindow := rfl
@[simp] theorem withOut_engine (s : State) (m : Memory) : (withOut s m).engine = s.engine := rfl
@[simp] theorem withOut_index (s : State) (m : Memory) : (withOut s m).index = s.index := rfl
@[simp] theorem withOut_inMem (s : State) (m : Memory) : (withOut s m).inMem = s.inMem := rfl
@[simp] theorem withOut_outMem (s : State) (m : Memory) : (withOut s m).outMem = m := rfl
@[simp] theorem withOut_outDraws (s : State) (m : Memory) : (withOut s m).outDraws = s.outDraws := rfl
@[simp] theorem withOut_draws (s : State) (m : Memory) : (withOut s m).draws = s.draws := rfl
@[simp] theorem withOut_work (s : State) (m : Memory) : (withOut s m).work = s.work := rfl
@[simp] theorem withOut_host (s : State) (m : Memory) : (withOut s m).host = s.host := rfl
@[simp] theorem withOut_hostData (s : State) (m : Memory) : (withOut s m).hostData = s.hostData := rfl

@[simp] theorem withIn_cfg (s : State) (m : Memory) : (withIn s m).cfg = s.cfg := rfl
@[simp] theorem withIn_argLevel (s : State) (m : Memory) : (withIn s m).argLevel = s.argLevel := rfl
@[simp] theorem withIn_argInLen (s : State) (m : Memory) : (withIn s m).argInLen = s.argInLen := rfl
@[simp] theorem withIn_argOutCap (s : State) (m : Memory) : (withIn s m).argOutCap = s.argOutCap := rfl
@[simp] theorem withIn_status (s : State) (m : Memory) : (withIn s m).status = s.status := rfl
@[simp] theorem withIn_detail (s : State) (m : Memory) : (withIn s m).detail = s.detail := rfl
@[simp] theorem withIn_bytesWritten (s : State) (m : Memory) : (withIn s m).bytesWritten = s.bytesWritten := rfl
@[simp] theorem withIn_errInPos (s : State) (m : Memory) : (withIn s m).errInPos = s.errInPos := rfl
@[simp] theorem withIn_errOutPos (s : State) (m : Memory) : (withIn s m).errOutPos = s.errOutPos := rfl
@[simp] theorem withIn_ctxValid (s : State) (m : Memory) : (withIn s m).ctxValid = s.ctxValid := rfl
@[simp] theorem withIn_ctxLevel (s : State) (m : Memory) : (withIn s m).ctxLevel = s.ctxLevel := rfl
@[simp] theorem withIn_ctxWindow (s : State) (m : Memory) : (withIn s m).ctxWindow = s.ctxWindow := rfl
@[simp] theorem withIn_engine (s : State) (m : Memory) : (withIn s m).engine = s.engine := rfl
@[simp] theorem withIn_index (s : State) (m : Memory) : (withIn s m).index = s.index := rfl
@[simp] theorem withIn_inMem (s : State) (m : Memory) : (withIn s m).inMem = m := rfl
@[simp] theorem withIn_outMem (s : State) (m : Memory) : (withIn s m).outMem = s.outMem := rfl
@[simp] theorem withIn_outDraws (s : State) (m : Memory) : (withIn s m).outDraws = s.outDraws := rfl
@[simp] theorem withIn_draws (s : State) (m : Memory) : (withIn s m).draws = s.draws := rfl
@[simp] theorem withIn_work (s : State) (m : Memory) : (withIn s m).work = s.work := rfl
@[simp] theorem withIn_host (s : State) (m : Memory) : (withIn s m).host = s.host := rfl
@[simp] theorem withIn_hostData (s : State) (m : Memory) : (withIn s m).hostData = s.hostData := rfl

@[simp] theorem withIndex_cfg (s : State) (x : Index) : (withIndex s x).cfg = s.cfg := rfl
@[simp] theorem withIndex_argLevel (s : State) (x : Index) : (withIndex s x).argLevel = s.argLevel := rfl
@[simp] theorem withIndex_argInLen (s : State) (x : Index) : (withIndex s x).argInLen = s.argInLen := rfl
@[simp] theorem withIndex_argOutCap (s : State) (x : Index) : (withIndex s x).argOutCap = s.argOutCap := rfl
@[simp] theorem withIndex_status (s : State) (x : Index) : (withIndex s x).status = s.status := rfl
@[simp] theorem withIndex_detail (s : State) (x : Index) : (withIndex s x).detail = s.detail := rfl
@[simp] theorem withIndex_bytesWritten (s : State) (x : Index) : (withIndex s x).bytesWritten = s.bytesWritten := rfl
@[simp] theorem withIndex_errInPos (s : State) (x : Index) : (withIndex s x).errInPos = s.errInPos := rfl
@[simp] theorem withIndex_errOutPos (s : State) (x : Index) : (withIndex s x).errOutPos = s.errOutPos := rfl
@[simp] theorem withIndex_ctxValid (s : State) (x : Index) : (withIndex s x).ctxValid = s.ctxValid := rfl
@[simp] theorem withIndex_ctxLevel (s : State) (x : Index) : (withIndex s x).ctxLevel = s.ctxLevel := rfl
@[simp] theorem withIndex_ctxWindow (s : State) (x : Index) : (withIndex s x).ctxWindow = s.ctxWindow := rfl
@[simp] theorem withIndex_engine (s : State) (x : Index) : (withIndex s x).engine = s.engine := rfl
@[simp] theorem withIndex_index (s : State) (x : Index) : (withIndex s x).index = x := rfl
@[simp] theorem withIndex_inMem (s : State) (x : Index) : (withIndex s x).inMem = s.inMem := rfl
@[simp] theorem withIndex_outMem (s : State) (x : Index) : (withIndex s x).outMem = s.outMem := rfl
@[simp] theorem withIndex_outDraws (s : State) (x : Index) : (withIndex s x).outDraws = s.outDraws := rfl
@[simp] theorem withIndex_draws (s : State) (x : Index) : (withIndex s x).draws = s.draws := rfl
@[simp] theorem withIndex_work (s : State) (x : Index) : (withIndex s x).work = s.work := rfl
@[simp] theorem withIndex_host (s : State) (x : Index) : (withIndex s x).host = s.host := rfl
@[simp] theorem withIndex_hostData (s : State) (x : Index) : (withIndex s x).hostData = s.hostData := rfl

@[simp] theorem withContext_cfg (s : State) (v : BitVec 1) (l : BitVec 4) (w : BitVec 32) : (withContext s v l w).cfg = s.cfg := rfl
@[simp] theorem withContext_argLevel (s : State) (v : BitVec 1) (l : BitVec 4) (w : BitVec 32) : (withContext s v l w).argLevel = s.argLevel := rfl
@[simp] theorem withContext_argInLen (s : State) (v : BitVec 1) (l : BitVec 4) (w : BitVec 32) : (withContext s v l w).argInLen = s.argInLen := rfl
@[simp] theorem withContext_argOutCap (s : State) (v : BitVec 1) (l : BitVec 4) (w : BitVec 32) : (withContext s v l w).argOutCap = s.argOutCap := rfl
@[simp] theorem withContext_status (s : State) (v : BitVec 1) (l : BitVec 4) (w : BitVec 32) : (withContext s v l w).status = s.status := rfl
@[simp] theorem withContext_detail (s : State) (v : BitVec 1) (l : BitVec 4) (w : BitVec 32) : (withContext s v l w).detail = s.detail := rfl
@[simp] theorem withContext_bytesWritten (s : State) (v : BitVec 1) (l : BitVec 4) (w : BitVec 32) : (withContext s v l w).bytesWritten = s.bytesWritten := rfl
@[simp] theorem withContext_errInPos (s : State) (v : BitVec 1) (l : BitVec 4) (w : BitVec 32) : (withContext s v l w).errInPos = s.errInPos := rfl
@[simp] theorem withContext_errOutPos (s : State) (v : BitVec 1) (l : BitVec 4) (w : BitVec 32) : (withContext s v l w).errOutPos = s.errOutPos := rfl
@[simp] theorem withContext_ctxValid (s : State) (v : BitVec 1) (l : BitVec 4) (w : BitVec 32) : (withContext s v l w).ctxValid = v := rfl
@[simp] theorem withContext_ctxLevel (s : State) (v : BitVec 1) (l : BitVec 4) (w : BitVec 32) : (withContext s v l w).ctxLevel = l := rfl
@[simp] theorem withContext_ctxWindow (s : State) (v : BitVec 1) (l : BitVec 4) (w : BitVec 32) : (withContext s v l w).ctxWindow = w := rfl
@[simp] theorem withContext_engine (s : State) (v : BitVec 1) (l : BitVec 4) (w : BitVec 32) : (withContext s v l w).engine = s.engine := rfl
@[simp] theorem withContext_index (s : State) (v : BitVec 1) (l : BitVec 4) (w : BitVec 32) : (withContext s v l w).index = s.index := rfl
@[simp] theorem withContext_inMem (s : State) (v : BitVec 1) (l : BitVec 4) (w : BitVec 32) : (withContext s v l w).inMem = s.inMem := rfl
@[simp] theorem withContext_outMem (s : State) (v : BitVec 1) (l : BitVec 4) (w : BitVec 32) : (withContext s v l w).outMem = s.outMem := rfl
@[simp] theorem withContext_outDraws (s : State) (v : BitVec 1) (l : BitVec 4) (w : BitVec 32) : (withContext s v l w).outDraws = s.outDraws := rfl
@[simp] theorem withContext_draws (s : State) (v : BitVec 1) (l : BitVec 4) (w : BitVec 32) : (withContext s v l w).draws = s.draws := rfl
@[simp] theorem withContext_work (s : State) (v : BitVec 1) (l : BitVec 4) (w : BitVec 32) : (withContext s v l w).work = s.work := rfl
@[simp] theorem withContext_host (s : State) (v : BitVec 1) (l : BitVec 4) (w : BitVec 32) : (withContext s v l w).host = s.host := rfl
@[simp] theorem withContext_hostData (s : State) (v : BitVec 1) (l : BitVec 4) (w : BitVec 32) : (withContext s v l w).hostData = s.hostData := rfl

@[simp] theorem withBytes_cfg (s : State) (b : Word) : (withBytes s b).cfg = s.cfg := rfl
@[simp] theorem withBytes_argLevel (s : State) (b : Word) : (withBytes s b).argLevel = s.argLevel := rfl
@[simp] theorem withBytes_argInLen (s : State) (b : Word) : (withBytes s b).argInLen = s.argInLen := rfl
@[simp] theorem withBytes_argOutCap (s : State) (b : Word) : (withBytes s b).argOutCap = s.argOutCap := rfl
@[simp] theorem withBytes_status (s : State) (b : Word) : (withBytes s b).status = s.status := rfl
@[simp] theorem withBytes_detail (s : State) (b : Word) : (withBytes s b).detail = s.detail := rfl
@[simp] theorem withBytes_bytesWritten (s : State) (b : Word) : (withBytes s b).bytesWritten = b := rfl
@[simp] theorem withBytes_errInPos (s : State) (b : Word) : (withBytes s b).errInPos = s.errInPos := rfl
@[simp] theorem withBytes_errOutPos (s : State) (b : Word) : (withBytes s b).errOutPos = s.errOutPos := rfl
@[simp] theorem withBytes_ctxValid (s : State) (b : Word) : (withBytes s b).ctxValid = s.ctxValid := rfl
@[simp] theorem withBytes_ctxLevel (s : State) (b : Word) : (withBytes s b).ctxLevel = s.ctxLevel := rfl
@[simp] theorem withBytes_ctxWindow (s : State) (b : Word) : (withBytes s b).ctxWindow = s.ctxWindow := rfl
@[simp] theorem withBytes_engine (s : State) (b : Word) : (withBytes s b).engine = s.engine := rfl
@[simp] theorem withBytes_index (s : State) (b : Word) : (withBytes s b).index = s.index := rfl
@[simp] theorem withBytes_inMem (s : State) (b : Word) : (withBytes s b).inMem = s.inMem := rfl
@[simp] theorem withBytes_outMem (s : State) (b : Word) : (withBytes s b).outMem = s.outMem := rfl
@[simp] theorem withBytes_outDraws (s : State) (b : Word) : (withBytes s b).outDraws = s.outDraws := rfl
@[simp] theorem withBytes_draws (s : State) (b : Word) : (withBytes s b).draws = s.draws := rfl
@[simp] theorem withBytes_work (s : State) (b : Word) : (withBytes s b).work = s.work := rfl
@[simp] theorem withBytes_host (s : State) (b : Word) : (withBytes s b).host = s.host := rfl
@[simp] theorem withBytes_hostData (s : State) (b : Word) : (withBytes s b).hostData = s.hostData := rfl

@[simp] theorem withHost_cfg (s : State) (q : List HostAction) : (withHost s q).cfg = s.cfg := rfl
@[simp] theorem withHost_argLevel (s : State) (q : List HostAction) : (withHost s q).argLevel = s.argLevel := rfl
@[simp] theorem withHost_argInLen (s : State) (q : List HostAction) : (withHost s q).argInLen = s.argInLen := rfl
@[simp] theorem withHost_argOutCap (s : State) (q : List HostAction) : (withHost s q).argOutCap = s.argOutCap := rfl
@[simp] theorem withHost_status (s : State) (q : List HostAction) : (withHost s q).status = s.status := rfl
@[simp] theorem withHost_detail (s : State) (q : List HostAction) : (withHost s q).detail = s.detail := rfl
@[simp] theorem withHost_bytesWritten (s : State) (q : List HostAction) : (withHost s q).bytesWritten = s.bytesWritten := rfl
@[simp] theorem withHost_errInPos (s : State) (q : List HostAction) : (withHost s q).errInPos = s.errInPos := rfl
@[simp] theorem withHost_errOutPos (s : State) (q : List HostAction) : (withHost s q).errOutPos = s.errOutPos := rfl
@[simp] theorem withHost_ctxValid (s : State) (q : List HostAction) : (withHost s q).ctxValid = s.ctxValid := rfl
@[simp] theorem withHost_ctxLevel (s : State) (q : List HostAction) : (withHost s q).ctxLevel = s.ctxLevel := rfl
@[simp] theorem withHost_ctxWindow (s : State) (q : List HostAction) : (withHost s q).ctxWindow = s.ctxWindow := rfl
@[simp] theorem withHost_engine (s : State) (q : List HostAction) : (withHost s q).engine = s.engine := rfl
@[simp] theorem withHost_index (s : State) (q : List HostAction) : (withHost s q).index = s.index := rfl
@[simp] theorem withHost_inMem (s : State) (q : List HostAction) : (withHost s q).inMem = s.inMem := rfl
@[simp] theorem withHost_outMem (s : State) (q : List HostAction) : (withHost s q).outMem = s.outMem := rfl
@[simp] theorem withHost_outDraws (s : State) (q : List HostAction) : (withHost s q).outDraws = s.outDraws := rfl
@[simp] theorem withHost_draws (s : State) (q : List HostAction) : (withHost s q).draws = s.draws := rfl
@[simp] theorem withHost_work (s : State) (q : List HostAction) : (withHost s q).work = s.work := rfl
@[simp] theorem withHost_host (s : State) (q : List HostAction) : (withHost s q).host = q := rfl
@[simp] theorem withHost_hostData (s : State) (q : List HostAction) : (withHost s q).hostData = s.hostData := rfl

@[simp] theorem withHostData_cfg (s : State) (v : Word) : (withHostData s v).cfg = s.cfg := rfl
@[simp] theorem withHostData_argLevel (s : State) (v : Word) : (withHostData s v).argLevel = s.argLevel := rfl
@[simp] theorem withHostData_argInLen (s : State) (v : Word) : (withHostData s v).argInLen = s.argInLen := rfl
@[simp] theorem withHostData_argOutCap (s : State) (v : Word) : (withHostData s v).argOutCap = s.argOutCap := rfl
@[simp] theorem withHostData_status (s : State) (v : Word) : (withHostData s v).status = s.status := rfl
@[simp] theorem withHostData_detail (s : State) (v : Word) : (withHostData s v).detail = s.detail := rfl
@[simp] theorem withHostData_bytesWritten (s : State) (v : Word) : (withHostData s v).bytesWritten = s.bytesWritten := rfl
@[simp] theorem withHostData_errInPos (s : State) (v : Word) : (withHostData s v).errInPos = s.errInPos := rfl
@[simp] theorem withHostData_errOutPos (s : State) (v : Word) : (withHostData s v).errOutPos = s.errOutPos := rfl
@[simp] theorem withHostData_ctxValid (s : State) (v : Word) : (withHostData s v).ctxValid = s.ctxValid := rfl
@[simp] theorem withHostData_ctxLevel (s : State) (v : Word) : (withHostData s v).ctxLevel = s.ctxLevel := rfl
@[simp] theorem withHostData_ctxWindow (s : State) (v : Word) : (withHostData s v).ctxWindow = s.ctxWindow := rfl
@[simp] theorem withHostData_engine (s : State) (v : Word) : (withHostData s v).engine = s.engine := rfl
@[simp] theorem withHostData_index (s : State) (v : Word) : (withHostData s v).index = s.index := rfl
@[simp] theorem withHostData_inMem (s : State) (v : Word) : (withHostData s v).inMem = s.inMem := rfl
@[simp] theorem withHostData_outMem (s : State) (v : Word) : (withHostData s v).outMem = s.outMem := rfl
@[simp] theorem withHostData_outDraws (s : State) (v : Word) : (withHostData s v).outDraws = s.outDraws := rfl
@[simp] theorem withHostData_draws (s : State) (v : Word) : (withHostData s v).draws = s.draws := rfl
@[simp] theorem withHostData_work (s : State) (v : Word) : (withHostData s v).work = s.work := rfl
@[simp] theorem withHostData_host (s : State) (v : Word) : (withHostData s v).host = s.host := rfl
@[simp] theorem withHostData_hostData (s : State) (v : Word) : (withHostData s v).hostData = v := rfl

@[simp] theorem withResult_cfg (s : State) (st : Status) (de : Detail) (ip op : Nat) : (withResult s st de ip op).cfg = s.cfg := rfl
@[simp] theorem withResult_argLevel (s : State) (st : Status) (de : Detail) (ip op : Nat) : (withResult s st de ip op).argLevel = s.argLevel := rfl
@[simp] theorem withResult_argInLen (s : State) (st : Status) (de : Detail) (ip op : Nat) : (withResult s st de ip op).argInLen = s.argInLen := rfl
@[simp] theorem withResult_argOutCap (s : State) (st : Status) (de : Detail) (ip op : Nat) : (withResult s st de ip op).argOutCap = s.argOutCap := rfl
@[simp] theorem withResult_status (s : State) (st : Status) (de : Detail) (ip op : Nat) : (withResult s st de ip op).status = statusCode st := rfl
@[simp] theorem withResult_detail (s : State) (st : Status) (de : Detail) (ip op : Nat) : (withResult s st de ip op).detail = detailCode de := rfl
@[simp] theorem withResult_bytesWritten (s : State) (st : Status) (de : Detail) (ip op : Nat) : (withResult s st de ip op).bytesWritten = s.bytesWritten := rfl
@[simp] theorem withResult_errInPos (s : State) (st : Status) (de : Detail) (ip op : Nat) : (withResult s st de ip op).errInPos = BitVec.ofNat 64 ip := rfl
@[simp] theorem withResult_errOutPos (s : State) (st : Status) (de : Detail) (ip op : Nat) : (withResult s st de ip op).errOutPos = BitVec.ofNat 64 op := rfl
@[simp] theorem withResult_ctxValid (s : State) (st : Status) (de : Detail) (ip op : Nat) : (withResult s st de ip op).ctxValid = s.ctxValid := rfl
@[simp] theorem withResult_ctxLevel (s : State) (st : Status) (de : Detail) (ip op : Nat) : (withResult s st de ip op).ctxLevel = s.ctxLevel := rfl
@[simp] theorem withResult_ctxWindow (s : State) (st : Status) (de : Detail) (ip op : Nat) : (withResult s st de ip op).ctxWindow = s.ctxWindow := rfl
@[simp] theorem withResult_engine (s : State) (st : Status) (de : Detail) (ip op : Nat) : (withResult s st de ip op).engine = s.engine := rfl
@[simp] theorem withResult_index (s : State) (st : Status) (de : Detail) (ip op : Nat) : (withResult s st de ip op).index = s.index := rfl
@[simp] theorem withResult_inMem (s : State) (st : Status) (de : Detail) (ip op : Nat) : (withResult s st de ip op).inMem = s.inMem := rfl
@[simp] theorem withResult_outMem (s : State) (st : Status) (de : Detail) (ip op : Nat) : (withResult s st de ip op).outMem = s.outMem := rfl
@[simp] theorem withResult_outDraws (s : State) (st : Status) (de : Detail) (ip op : Nat) : (withResult s st de ip op).outDraws = s.outDraws := rfl
@[simp] theorem withResult_draws (s : State) (st : Status) (de : Detail) (ip op : Nat) : (withResult s st de ip op).draws = s.draws := rfl
@[simp] theorem withResult_work (s : State) (st : Status) (de : Detail) (ip op : Nat) : (withResult s st de ip op).work = s.work := rfl
@[simp] theorem withResult_host (s : State) (st : Status) (de : Detail) (ip op : Nat) : (withResult s st de ip op).host = s.host := rfl
@[simp] theorem withResult_hostData (s : State) (st : Status) (de : Detail) (ip op : Nat) : (withResult s st de ip op).hostData = s.hostData := rfl

@[simp] theorem scrambleOut_cfg (b : Nat) (s : State) : (scrambleOut b s).cfg = s.cfg := rfl
@[simp] theorem scrambleOut_argLevel (b : Nat) (s : State) : (scrambleOut b s).argLevel = s.argLevel := rfl
@[simp] theorem scrambleOut_argInLen (b : Nat) (s : State) : (scrambleOut b s).argInLen = s.argInLen := rfl
@[simp] theorem scrambleOut_argOutCap (b : Nat) (s : State) : (scrambleOut b s).argOutCap = s.argOutCap := rfl
@[simp] theorem scrambleOut_status (b : Nat) (s : State) : (scrambleOut b s).status = s.status := rfl
@[simp] theorem scrambleOut_detail (b : Nat) (s : State) : (scrambleOut b s).detail = s.detail := rfl
@[simp] theorem scrambleOut_bytesWritten (b : Nat) (s : State) : (scrambleOut b s).bytesWritten = s.bytesWritten := rfl
@[simp] theorem scrambleOut_errInPos (b : Nat) (s : State) : (scrambleOut b s).errInPos = s.errInPos := rfl
@[simp] theorem scrambleOut_errOutPos (b : Nat) (s : State) : (scrambleOut b s).errOutPos = s.errOutPos := rfl
@[simp] theorem scrambleOut_ctxValid (b : Nat) (s : State) : (scrambleOut b s).ctxValid = s.ctxValid := rfl
@[simp] theorem scrambleOut_ctxLevel (b : Nat) (s : State) : (scrambleOut b s).ctxLevel = s.ctxLevel := rfl
@[simp] theorem scrambleOut_ctxWindow (b : Nat) (s : State) : (scrambleOut b s).ctxWindow = s.ctxWindow := rfl
@[simp] theorem scrambleOut_engine (b : Nat) (s : State) : (scrambleOut b s).engine = s.engine := rfl
@[simp] theorem scrambleOut_index (b : Nat) (s : State) : (scrambleOut b s).index = s.index := rfl
@[simp] theorem scrambleOut_inMem (b : Nat) (s : State) : (scrambleOut b s).inMem = s.inMem := rfl
@[simp] theorem scrambleOut_outMem (b : Nat) (s : State) : (scrambleOut b s).outMem = s.outMem.filter (fun e => b ≤ e.1) := rfl
@[simp] theorem scrambleOut_outDraws (b : Nat) (s : State) : (scrambleOut b s).outDraws = newDraw b s.draws s.outDraws := rfl
@[simp] theorem scrambleOut_draws (b : Nat) (s : State) : (scrambleOut b s).draws = s.draws + 1 := rfl
@[simp] theorem scrambleOut_work (b : Nat) (s : State) : (scrambleOut b s).work = s.work := rfl
@[simp] theorem scrambleOut_host (b : Nat) (s : State) : (scrambleOut b s).host = s.host := rfl
@[simp] theorem scrambleOut_hostData (b : Nat) (s : State) : (scrambleOut b s).hostData = s.hostData := rfl

@[simp] theorem startCommand_cfg (e : Engine) (s : State) : (startCommand e s).cfg = s.cfg := rfl
@[simp] theorem startCommand_argLevel (e : Engine) (s : State) : (startCommand e s).argLevel = s.argLevel := rfl
@[simp] theorem startCommand_argInLen (e : Engine) (s : State) : (startCommand e s).argInLen = s.argInLen := rfl
@[simp] theorem startCommand_argOutCap (e : Engine) (s : State) : (startCommand e s).argOutCap = s.argOutCap := rfl
@[simp] theorem startCommand_status (e : Engine) (s : State) : (startCommand e s).status = s.status := rfl
@[simp] theorem startCommand_detail (e : Engine) (s : State) : (startCommand e s).detail = s.detail := rfl
@[simp] theorem startCommand_bytesWritten (e : Engine) (s : State) : (startCommand e s).bytesWritten = s.bytesWritten := rfl
@[simp] theorem startCommand_errInPos (e : Engine) (s : State) : (startCommand e s).errInPos = s.errInPos := rfl
@[simp] theorem startCommand_errOutPos (e : Engine) (s : State) : (startCommand e s).errOutPos = s.errOutPos := rfl
@[simp] theorem startCommand_ctxValid (e : Engine) (s : State) : (startCommand e s).ctxValid = s.ctxValid := rfl
@[simp] theorem startCommand_ctxLevel (e : Engine) (s : State) : (startCommand e s).ctxLevel = s.ctxLevel := rfl
@[simp] theorem startCommand_ctxWindow (e : Engine) (s : State) : (startCommand e s).ctxWindow = s.ctxWindow := rfl
@[simp] theorem startCommand_engine (e : Engine) (s : State) : (startCommand e s).engine = e := rfl
@[simp] theorem startCommand_index (e : Engine) (s : State) : (startCommand e s).index = s.index := rfl
@[simp] theorem startCommand_inMem (e : Engine) (s : State) : (startCommand e s).inMem = s.inMem := rfl
@[simp] theorem startCommand_outMem (e : Engine) (s : State) : (startCommand e s).outMem = s.outMem := rfl
@[simp] theorem startCommand_outDraws (e : Engine) (s : State) : (startCommand e s).outDraws = s.outDraws := rfl
@[simp] theorem startCommand_draws (e : Engine) (s : State) : (startCommand e s).draws = s.draws := rfl
@[simp] theorem startCommand_work (e : Engine) (s : State) : (startCommand e s).work = Work.start s.argInLen.toNat s.argOutCap.toNat := rfl
@[simp] theorem startCommand_host (e : Engine) (s : State) : (startCommand e s).host = s.host := rfl
@[simp] theorem startCommand_hostData (e : Engine) (s : State) : (startCommand e s).hostData = s.hostData := rfl

@[simp] theorem endCommand_cfg (s : State) : (endCommand s).cfg = s.cfg := rfl
@[simp] theorem endCommand_argLevel (s : State) : (endCommand s).argLevel = s.argLevel := rfl
@[simp] theorem endCommand_argInLen (s : State) : (endCommand s).argInLen = s.argInLen := rfl
@[simp] theorem endCommand_argOutCap (s : State) : (endCommand s).argOutCap = s.argOutCap := rfl
@[simp] theorem endCommand_status (s : State) : (endCommand s).status = s.status := rfl
@[simp] theorem endCommand_detail (s : State) : (endCommand s).detail = s.detail := rfl
@[simp] theorem endCommand_bytesWritten (s : State) : (endCommand s).bytesWritten = s.bytesWritten := rfl
@[simp] theorem endCommand_errInPos (s : State) : (endCommand s).errInPos = s.errInPos := rfl
@[simp] theorem endCommand_errOutPos (s : State) : (endCommand s).errOutPos = s.errOutPos := rfl
@[simp] theorem endCommand_ctxValid (s : State) : (endCommand s).ctxValid = s.ctxValid := rfl
@[simp] theorem endCommand_ctxLevel (s : State) : (endCommand s).ctxLevel = s.ctxLevel := rfl
@[simp] theorem endCommand_ctxWindow (s : State) : (endCommand s).ctxWindow = s.ctxWindow := rfl
@[simp] theorem endCommand_engine (s : State) : (endCommand s).engine = .idle := rfl
@[simp] theorem endCommand_index (s : State) : (endCommand s).index = s.index := rfl
@[simp] theorem endCommand_inMem (s : State) : (endCommand s).inMem = s.inMem := rfl
@[simp] theorem endCommand_outMem (s : State) : (endCommand s).outMem = s.outMem := rfl
@[simp] theorem endCommand_outDraws (s : State) : (endCommand s).outDraws = s.outDraws := rfl
@[simp] theorem endCommand_draws (s : State) : (endCommand s).draws = s.draws := rfl
@[simp] theorem endCommand_work (s : State) : (endCommand s).work = Work.idle := rfl
@[simp] theorem endCommand_host (s : State) : (endCommand s).host = s.host := rfl
@[simp] theorem endCommand_hostData (s : State) : (endCommand s).hostData = s.hostData := rfl

end Sys2Proof.Machine
end

