-- ==== Sys2Proof/Laws/Ops.lean ====
section
/-! SUPPORT. One lemma per shared operation: everything it can do. -/

namespace Sys2Proof.Machine

/-! ## Reading IN -/

@[simp] theorem inBytes_length (s : State) (a count : Nat) : (inBytes s a count).length = count := by
  simp [inBytes]

theorem inBytes_getD (s : State) (a : Nat) {count j : Nat} (h : j < count) :
    (inBytes s a count).getD j 0 = inByte s (a + j) := by
  simp [inBytes, List.getD, h]

/-- Reads of IN depend on IN alone. -/
theorem inByte_congr {s t : State} (h : t.inMem = s.inMem) (a : Nat) : inByte t a = inByte s a := by
  simp [inByte, h]

theorem inBytes_congr {s t : State} (h : t.inMem = s.inMem) (a count : Nat) :
    inBytes t a count = inBytes s a count := by
  simp [inBytes, inByte_congr h]

/-! ## Writing OUT -/

theorem outByte_append (t : List Byte) (s : State) (a : Nat) :
    outByte (append t s) a
      = if s.work.o ≤ a ∧ a < s.work.o + t.length then t.getD (a - s.work.o) 0 else outByte s a := by
  simp only [outByte, append, withWork_outMem, withWork_outDraws, withOut_outMem, withOut_outDraws]
  exact outByteOf_putBytes ..

/-- EMIT writes all of the token when it fits, and only then (R174). -/
theorem emit_eq (t : List Byte) (inPos : Nat) (s : State) :
    emit t inPos s = if s.work.o + t.length ≤ s.work.cap then .ok (append t s)
      else .error ⟨.outputCapacity, .none, inPos, s.work.o⟩ := by
  unfold emit
  split <;> split <;> first | rfl | omega

/-- A token's bytes appended with new working registers, in the form claims use. -/
theorem appendsBytes_append (t : List Byte) (s : State) (w : Work) :
    AppendsBytes s w t (.next (withWork (append t s) w)) := by
  refine ⟨putBytes s.outMem s.work.o t, rfl, fun j hj => ?_, fun a ha => ?_⟩
  · rw [outByteOf_putBytes, if_pos (by omega)]
    congr 1; omega
  · rw [outByteOf_putBytes, if_neg (by omega)]
    rfl

/-! ## Ending a command -/

theorem outByte_scrambleOut (bound : Nat) (s : State) (a : Nat) :
    outByte (scrambleOut bound s) a
      = if a < bound then Config.freeOutByte s.draws a else outByte s a :=
  outByteOf_scrambled s.outDraws s.outMem bound s.draws a

/-- An error that leaves OUT unspecified (R338, R339). -/
theorem failsUnspecified_raise (r : Raise) (s : State) (h : leavesOutUnspecified r.status = true) :
    FailsUnspecified s (statusCode r.status) (detailCode r.detail) r.inPos r.outPos
      (.next (raise true r s)) := by
  refine ⟨s.outMem.filter (fun e => s.work.cap ≤ e.1), newDraw s.work.cap s.draws s.outDraws,
    Work.idle, ?_, fun a ha => ?_, fun a ha => ?_⟩
  · simp only [raise, h, if_true]; rfl
  · rw [outByteOf_scrambled, if_pos ha]
  · rw [outByteOf_scrambled, if_neg (by omega)]; rfl

/-- An error that leaves OUT as it is (R338, R339). -/
theorem raise_plainRaise (codec : Bool) (st : Status) (s : State) (h : leavesOutUnspecified st = false) :
    raise codec (plainRaise st) s
      = endCommand (withResult (withBytes s (if codec then 0 else s.bytesWritten)) st .none 0 0) := by
  simp [raise, plainRaise, h]

theorem failsUnspecified_malformed (d : Detail) (s : State) :
    FailsUnspecified s 4 (detailCode d) s.work.i s.work.o (.next (malformed d s)) :=
  failsUnspecified_raise ⟨.malformedStream, d, s.work.i, s.work.o⟩ s rfl

theorem failsUnspecified_overCapacity (s : State) :
    FailsUnspecified s 3 0 s.work.i s.work.o (.next (overCapacity s)) :=
  failsUnspecified_raise ⟨.outputCapacity, .none, s.work.i, s.work.o⟩ s rfl

theorem endsPlainly_complete (s : State) :
    EndsPlainly s 0 (BitVec.ofNat 64 s.work.o) (.next (complete s)) := ⟨Work.idle, rfl⟩

/-- The size checks pass exactly when both lengths are in range (R221, R261). -/
theorem sizeError_eq_none (s : State) :
    sizeError s = none ↔
      minInput ≤ s.argInLen.toNat ∧ s.argInLen.toNat ≤ s.cfg.nMax ∧ s.argOutCap.toNat ≤ s.cfg.capMax := by
  unfold sizeError
  split
  · simp; omega
  · split
    · simp; omega
    · simp; omega

theorem sizeError_eq_some {s : State} {r : Raise} (h : sizeError s = some r) :
    r = plainRaise .invalidParam := by
  unfold sizeError at h
  split at h
  · simpa using h.symm
  · split at h
    · simpa using h.symm
    · simp at h

/-! ## Executing a token -/

/-- The payload part of a literal: truncated, over capacity, or copied (R175 to R177). -/
theorem literalBody_cases (header len : Nat) (s : State) :
    (s.work.n < s.work.i + header + len ∧ literalBody header len s = malformed .truncated s) ∨
    (s.work.i + header + len ≤ s.work.n ∧ s.work.cap < s.work.o + len ∧
      literalBody header len s = overCapacity s) ∨
    (s.work.i + header + len ≤ s.work.n ∧ s.work.o + len ≤ s.work.cap ∧
      literalBody header len s
        = advance (header + len) (append (inBytes s (s.work.i + header) len) s)) := by
  unfold literalBody
  split
  · exact .inl ⟨‹_›, rfl⟩
  · split
    · exact .inr (.inl ⟨by omega, ‹_›, rfl⟩)
    · exact .inr (.inr ⟨by omega, by omega, rfl⟩)

/-- A match: truncated, a bad distance, over capacity, or copied (R179, R182). -/
theorem matchBody_cases (lc dc : Nat) (s : State) :
    (s.work.n < s.work.i + 1 + lc + dc ∧ matchBody lc dc s = malformed .truncated s) ∨
    (s.work.i + 1 + lc + dc ≤ s.work.n ∧
      (matchDistance lc dc s = 0 ∨ s.work.o < matchDistance lc dc s) ∧
      matchBody lc dc s = malformed .badDistance s) ∨
    (s.work.i + 1 + lc + dc ≤ s.work.n ∧ 1 ≤ matchDistance lc dc s ∧
      matchDistance lc dc s ≤ s.work.o ∧ s.work.cap < s.work.o + matchLength lc s ∧
      matchBody lc dc s = overCapacity s) ∨
    (s.work.i + 1 + lc + dc ≤ s.work.n ∧ 1 ≤ matchDistance lc dc s ∧
      matchDistance lc dc s ≤ s.work.o ∧ s.work.o + matchLength lc s ≤ s.work.cap ∧
      matchBody lc dc s = copyMatch lc dc (matchLength lc s) (matchDistance lc dc s) s) := by
  unfold matchBody
  split
  · exact .inl ⟨‹_›, rfl⟩
  · split
    · exact .inr (.inl ⟨by omega, ‹_›, rfl⟩)
    · split
      · exact .inr (.inr (.inl ⟨by omega, by omega, by omega, ‹_›, rfl⟩))
      · exact .inr (.inr (.inr ⟨by omega, by omega, by omega, by omega, rfl⟩))

/-- A checked match leaves every byte of OUT outside `o .. o + len - 1` as it was. -/
theorem outByte_copyMatch_outside (lc dc len dist : Nat) (s : State) {a : Nat}
    (h : a < s.work.o ∨ s.work.o + len ≤ a) :
    outByte (copyMatch lc dc len dist s) a = outByte s a := by
  show outByteOf s.outDraws (copyBack s.outDraws dist s.outMem s.work.o len) a = outByteOf s.outDraws s.outMem a
  unfold outByteOf
  rw [sparseGet_copyBack_outside _ _ _ _ _ _ h]

end Sys2Proof.Machine
end

