-- ==== Sys2Proof/Laws/Compress.lean ====
section
/-! SUPPORT. What the token encoder of COMPRESS can do: ENC_LITRUN emits the tokens of LITRUN (R117, R172)
up to the first one that does not fit. -/

namespace Sys2Proof.Machine

theorem append_nil (s : State) : append [] s = s := rfl

theorem append_append (t u : List Byte) (s : State) : append u (append t s) = append (t ++ u) s := by
  have h : (append t s).outMem = putBytes s.outMem s.work.o t := rfl
  have h2 : (append t s).work = { s.work with o := s.work.o + t.length } := rfl
  unfold append at *
  simp only [withWork, withOut, putBytes_append, List.length_append, Nat.add_assoc]

@[simp] theorem append_inMem (t : List Byte) (s : State) : (append t s).inMem = s.inMem := rfl
@[simp] theorem append_o (t : List Byte) (s : State) : (append t s).work.o = s.work.o + t.length := rfl
@[simp] theorem append_cap (t : List Byte) (s : State) : (append t s).work.cap = s.work.cap := rfl

theorem streamBytes_cons (t : Token) (ts : List Token) : streamBytes (t :: ts) = t.encode ++ streamBytes ts := by
  simp [streamBytes]

/-- The first chunk of a run and the rest of it. -/
theorem inBytes_split (s : State) (a c d : Nat) :
    inBytes s a (c + d) = inBytes s a c ++ inBytes s (a + c) d := by
  simp [inBytes, List.range_add, Nat.add_assoc, Function.comp_def]

theorem inBytes_take (s : State) (a n k : Nat) : (inBytes s a n).take k = inBytes s a (min k n) := by
  rcases Nat.le_total k n with h | h
  · obtain ⟨d, rfl⟩ := Nat.exists_eq_add_of_le h
    rw [inBytes_split, List.take_left' (inBytes_length ..)]; simp
  · rw [List.take_of_length_le (by simpa using h), Nat.min_eq_right h]

theorem inBytes_drop (s : State) (a n k : Nat) : (inBytes s a n).drop k = inBytes s (a + k) (n - k) := by
  rcases Nat.le_total k n with h | h
  · obtain ⟨d, rfl⟩ := Nat.exists_eq_add_of_le h
    rw [inBytes_split, List.drop_left' (inBytes_length ..)]; simp
  · rw [List.drop_of_length_le (by simpa using h), Nat.sub_eq_zero_of_le h]; rfl

theorem litRunFrom_cons (fuel : Nat) {run : List Byte} (h : run ≠ []) :
    litRunFrom (fuel + 1) run
      = .literal (litClass (run.take litMax).length) (run.take litMax)
        :: litRunFrom fuel (run.drop litMax) := by
  cases run with
  | nil => exact absurd rfl h
  | cons b run => rfl

/-- `fuel` chunks of a run of at most `fuel` bytes are all of them. -/
theorem litRunFrom_fuel (f g : Nat) : ∀ run : List Byte, run.length ≤ f → run.length ≤ g →
    litRunFrom f run = litRunFrom g run := by
  induction f generalizing g with
  | zero =>
    intro run hf _
    have : run = [] := List.length_eq_zero_iff.mp (by omega)
    subst this; cases g <;> rfl
  | succ f ih =>
    intro run hf hg
    cases run with
    | nil => cases g <;> rfl
    | cons b run =>
      cases g with
      | zero => simp at hg
      | succ g =>
        rw [litRunFrom_cons _ (by simp), litRunFrom_cons _ (by simp)]
        congr 1
        have h1 : ((b :: run).drop litMax).length ≤ run.length := by
          simp [litMax, List.length_drop]
        simp only [List.length_cons] at hf hg
        exact ih g _ (by omega) (by omega)

theorem litRun_cons {run : List Byte} (h : run ≠ []) :
    litRun run = .literal (litClass (run.take litMax).length) (run.take litMax)
      :: litRun (run.drop litMax) := by
  obtain ⟨b, r, rfl⟩ := List.exists_cons_of_ne_nil h
  unfold litRun
  rw [List.length_cons, litRunFrom_cons _ h]
  congr 1
  apply litRunFrom_fuel
  · simp [litMax, List.length_drop]
  · exact le_refl _

/-- ENC_LITERAL emits the literal token of its bytes (R170). -/
theorem encLiteral_eq (a c : Nat) (s : State) :
    encLiteral a c s = emit (Token.literal (litClass c) (inBytes s a c)).encode a s := rfl

theorem litRun_inBytes_cons (s : State) {a b : Nat} (h : a < b) :
    litRun (inBytes s a (b - a))
      = .literal (litClass (min (b - a) litMax)) (inBytes s a (min (b - a) litMax))
        :: litRun (inBytes s (a + min (b - a) litMax) (b - (a + min (b - a) litMax))) := by
  have hne : inBytes s a (b - a) ≠ [] := by
    intro h0
    have := congrArg List.length h0
    simp at this; omega
  have hrest : inBytes s (a + litMax) (b - a - litMax)
      = inBytes s (a + min (b - a) litMax) (b - (a + min (b - a) litMax)) := by
    generalize litMax = k
    rcases Nat.le_total (b - a) k with h1 | h1
    · rw [show b - a - k = 0 by omega, show b - (a + min (b - a) k) = 0 by omega]; rfl
    · rw [Nat.min_eq_right h1, Nat.sub_sub]
  rw [litRun_cons hne, inBytes_take, inBytes_drop, inBytes_length, Nat.min_comm litMax, hrest]

theorem litRun_nil (s : State) {a b : Nat} (h : b ≤ a) : litRun (inBytes s a (b - a)) = [] := by
  rw [Nat.sub_eq_zero_of_le h]; rfl

/-- ENC_LITRUN (R172) writes all the tokens of the run when they fit. -/
theorem encLitrunFrom_ok (fuel : Nat) : ∀ (a b : Nat) (s : State), b - a ≤ fuel →
    s.work.o + (streamBytes (litRun (inBytes s a (b - a)))).length ≤ s.work.cap →
    encLitrunFrom fuel a b s = .ok (append (streamBytes (litRun (inBytes s a (b - a)))) s) := by
  induction fuel with
  | zero => intro a b s h _; rw [litRun_nil s (by omega)]; rfl
  | succ fuel ih =>
    intro a b s h hfit
    unfold encLitrunFrom
    split
    · have hab : a < b := ‹_›
      have hlit : litMax = 2097151 := rfl
      rw [litRun_inBytes_cons s hab, streamBytes_cons, List.length_append] at hfit
      rw [encLiteral_eq, emit_eq, if_pos (by omega)]
      simp only
      rw [ih _ _ _ (by omega), inBytes_congr (append_inMem ..), append_append,
        litRun_inBytes_cons s hab, streamBytes_cons]
      rw [inBytes_congr (append_inMem ..), append_o, append_cap]; omega
    · rw [litRun_nil s (by omega)]; rfl

theorem encLitrun_ok (a b : Nat) (s : State)
    (h : s.work.o + (streamBytes (litRun (inBytes s a (b - a)))).length ≤ s.work.cap) :
    encLitrun a b s = .ok (append (streamBytes (litRun (inBytes s a (b - a)))) s) :=
  encLitrunFrom_ok _ a b s (le_refl _) h

/-- ENC_LITRUN (R172) fails at the first token that does not fit, with the input offset its data starts
at and the output cursor there (R233, R334). -/
theorem encLitrunFrom_error (fuel : Nat) : ∀ (a b j : Nat) (s : State), b - a ≤ fuel →
    j < (litRun (inBytes s a (b - a))).length →
    s.work.o + (streamBytes ((litRun (inBytes s a (b - a))).take j)).length ≤ s.work.cap →
    s.work.cap < s.work.o + (streamBytes ((litRun (inBytes s a (b - a))).take (j + 1))).length →
    encLitrunFrom fuel a b s = .error ⟨.outputCapacity, .none,
      a + (((litRun (inBytes s a (b - a))).take j).flatMap Token.payload).length,
      s.work.o + (streamBytes ((litRun (inBytes s a (b - a))).take j)).length⟩ := by
  induction fuel with
  | zero => intro a b j s h hj; rw [litRun_nil s (by omega)] at hj; simp at hj
  | succ fuel ih =>
    intro a b j s h hj hfit hover
    have hab : a < b := by
      by_contra hab
      rw [litRun_nil s (by omega)] at hj; simp at hj
    have hlit : litMax = 2097151 := rfl
    unfold encLitrunFrom
    rw [if_pos hab, encLiteral_eq, emit_eq]
    rw [litRun_inBytes_cons s hab] at hj hfit hover ⊢
    cases j with
    | zero =>
      simp only [List.take_zero, List.take_succ_cons, streamBytes, List.flatMap_nil,
        List.flatMap_cons, List.append_nil] at hfit hover ⊢
      rw [if_neg (by omega)]; rfl
    | succ j =>
      simp only [List.take_succ_cons, streamBytes_cons, List.length_append, List.length_cons,
        List.flatMap_cons] at hj hfit hover ⊢
      rw [if_pos (by omega)]
      simp only
      rw [ih _ _ j _ (by omega)]
      · rw [inBytes_congr (append_inMem ..), append_o]
        simp only [Token.payload, inBytes_length, Nat.add_assoc]
      · rw [inBytes_congr (append_inMem ..)]; omega
      · rw [inBytes_congr (append_inMem ..), append_o, append_cap]; omega
      · rw [inBytes_congr (append_inMem ..), append_o, append_cap]; omega

theorem encLitrun_error (a b j : Nat) (s : State)
    (hj : j < (litRun (inBytes s a (b - a))).length)
    (hfit : s.work.o + (streamBytes ((litRun (inBytes s a (b - a))).take j)).length ≤ s.work.cap)
    (hover : s.work.cap
      < s.work.o + (streamBytes ((litRun (inBytes s a (b - a))).take (j + 1))).length) :
    encLitrun a b s = .error ⟨.outputCapacity, .none,
      a + (((litRun (inBytes s a (b - a))).take j).flatMap Token.payload).length,
      s.work.o + (streamBytes ((litRun (inBytes s a (b - a))).take j)).length⟩ :=
  encLitrunFrom_error _ a b j s (le_refl _) hj hfit hover

/-- Whatever ENC_LITRUN answers, it appended bytes that fit, or raised OUTPUT_CAPACITY. -/
theorem encLitrunFrom_cases (fuel : Nat) : ∀ (a b : Nat) (s : State),
    (∃ t, encLitrunFrom fuel a b s = .ok (append t s) ∧ (t ≠ [] → s.work.o + t.length ≤ s.work.cap)) ∨
    ∃ r, encLitrunFrom fuel a b s = .error r ∧ r.status = .outputCapacity ∧ r.detail = .none := by
  induction fuel with
  | zero => intro a b s; exact .inl ⟨[], rfl, by simp⟩
  | succ fuel ih =>
    intro a b s
    unfold encLitrunFrom
    split
    · rw [encLiteral_eq, emit_eq]
      generalize (Token.literal (litClass (min (b - a) litMax)) (inBytes s a (min (b - a) litMax))).encode = u
      by_cases hu : s.work.o + u.length ≤ s.work.cap
      · rw [if_pos hu]
        rcases ih (a + min (b - a) litMax) b (append u s) with ⟨t, ht, hb⟩ | ⟨r, hr⟩
        · refine .inl ⟨u ++ t, by simp only [ht, append_append], fun _ => ?_⟩
          by_cases h0 : t = []
          · subst h0; simpa using hu
          · have := hb h0
            simp only [append_o, append_cap, List.length_append] at this ⊢
            omega
        · exact .inr ⟨r, hr⟩
      · rw [if_neg hu]
        exact .inr ⟨⟨.outputCapacity, .none, a, s.work.o⟩, rfl, rfl, rfl⟩
    · exact .inl ⟨[], rfl, by simp⟩

theorem encLitrun_cases (a b : Nat) (s : State) :
    (∃ t, encLitrun a b s = .ok (append t s) ∧ (t ≠ [] → s.work.o + t.length ≤ s.work.cap)) ∨
    ∃ r, encLitrun a b s = .error r ∧ r.status = .outputCapacity ∧ r.detail = .none :=
  encLitrunFrom_cases _ a b s

theorem encMatch_cases (len dist p : Nat) (s : State) :
    (s.work.o + (canonicalReference len dist).encode.length ≤ s.work.cap ∧
      encMatch len dist p s = .ok (append (canonicalReference len dist).encode s)) ∨
    (s.work.cap < s.work.o + (canonicalReference len dist).encode.length ∧
      encMatch len dist p s = .error ⟨.outputCapacity, .none, p, s.work.o⟩) := by
  unfold encMatch
  rw [emit_eq]
  split
  · exact .inl ⟨‹_›, rfl⟩
  · exact .inr ⟨by omega, rfl⟩

/-- The tokens of a hit appended bytes that fit, or raised OUTPUT_CAPACITY (R230, R233). -/
theorem emitHit_cases (ref len : Nat) (s : State) :
    (∃ t, emitHit ref len s = .ok (append t s) ∧ s.work.o + t.length ≤ s.work.cap) ∨
    ∃ r, emitHit ref len s = .error r ∧ r.status = .outputCapacity ∧ r.detail = .none := by
  unfold emitHit
  rcases encLitrun_cases s.work.anchor s.work.p s with ⟨t, ht, hb⟩ | ⟨r, hr, h⟩
  · rw [ht]
    simp only
    rcases encMatch_cases len (s.work.p - ref) s.work.p (append t s) with ⟨hb2, h⟩ | ⟨_, h⟩
    · refine .inl ⟨t ++ (canonicalReference len (s.work.p - ref)).encode, by rw [h, append_append], ?_⟩
      simp only [append_o, append_cap, List.length_append] at hb2 ⊢
      omega
    · exact .inr ⟨_, h, by rfl, by rfl⟩
  · rw [hr]; exact .inr ⟨r, rfl, h⟩

end Sys2Proof.Machine
end

