-- ==== Sys2Proof/Laws/PerInstr.lean ====
section
/-! SUPPORT. Statements about every instruction, one lemma per constructor. -/

namespace Sys2Proof.Laws

/-- The mask and match of an instruction's row in spec/opcode_table.json. -/
def tableRow : Instr → Nat × Nat
  | .lit0 _ => (0xE0, 0x00)
  | .lit1 _ => (0xE0, 0x20)
  | .lit2 _ => (0xE0, 0x40)
  | .lit3 _ => (0xE0, 0x60)
  | .match10 _ _ => (0xC0, 0x80)
  | .matchRef _ _ => (0xC0, 0xC0)
  | .createContext => (0xFF, 0x01)
  | .destroyContext => (0xFF, 0x02)
  | .resetIndex => (0xFF, 0x03)
  | .compress => (0xFF, 0x04)
  | .decompress => (0xFF, 0x05)

namespace EncodingMatchesRow

/-- The encoding of a well-formed instruction lies in its row of the opcode table (R112, R114). -/
def Statement (i : Instr) : Prop :=
  i.wf = true → (encode i).toNat &&& (tableRow i).1 = (tableRow i).2

theorem lit0 (len : Nat) : Statement (.lit0 len) := by
  intro h
  have : len < 32 := by simpa [Instr.wf] using h
  interval_cases len <;> decide

theorem lit1 (lenHi : Nat) : Statement (.lit1 lenHi) := by
  intro h
  have : lenHi < 32 := by simpa [Instr.wf] using h
  interval_cases lenHi <;> decide

theorem lit2 (lenHi : Nat) : Statement (.lit2 lenHi) := by
  intro h
  have : lenHi < 32 := by simpa [Instr.wf] using h
  interval_cases lenHi <;> decide

theorem lit3 (low : Nat) : Statement (.lit3 low) := by
  intro h
  have : low < 32 := by simpa [Instr.wf] using h
  interval_cases low <;> decide

theorem match10 (lc dc : Nat) : Statement (.match10 lc dc) := by
  intro h
  have h : lc < 8 ∧ dc < 8 := by simpa [Instr.wf] using h
  obtain ⟨h1, h2⟩ := h
  interval_cases lc <;> interval_cases dc <;> decide

theorem matchRef (lc dc : Nat) : Statement (.matchRef lc dc) := by
  intro h
  have h : lc < 8 ∧ dc < 8 := by simpa [Instr.wf] using h
  obtain ⟨h1, h2⟩ := h
  interval_cases lc <;> interval_cases dc <;> decide

theorem createContext : Statement .createContext := fun _ => by decide

theorem destroyContext : Statement .destroyContext := fun _ => by decide

theorem resetIndex : Statement .resetIndex := fun _ => by decide

theorem compress : Statement .compress := fun _ => by decide

theorem decompress : Statement .decompress := fun _ => by decide

end EncodingMatchesRow

end Sys2Proof.Laws
end

