-- ==== Sys2Proof/Tests/Slice0.lean ====
section
/-! SUPPORT. Small tests of the model against the spec's own examples (30_encoding.md R118,
95_test_vectors.md), and a witness for the hypotheses of each statement. -/

namespace Sys2Proof.Tests

open Sys2Proof Sys2Proof.Machine

/-! ## Helpers -/

/-- Bytes of a space from offset 0. -/
def cells (bytes : List Nat) : Memory :=
  (List.range bytes.length).map (fun j => (j, BitVec.ofNat 8 (bytes.getD j 0)))

def bytesOf (l : List Nat) : List Byte := l.map (BitVec.ofNat 8)

/-- DECOMPRESS runs on `stream` with its cursor at `i`, `out` written so far. -/
def decompressing (stream : List Nat) (i : Nat) (out : List Nat) (cap : Nat) : State :=
  { State.reset with
    engine := .decompress
    inMem := cells stream
    outMem := cells out
    work := { Work.start stream.length cap with i := i, o := out.length } }

/-- COMPRESS runs on `input` at `p`, the pending run starting at `anchor`, `out` written so far. -/
def compressing (input : List Nat) (index : Index) (p anchor : Nat) (out : List Nat) (cap : Nat) : State :=
  { State.reset with
    ctxValid := 1
    ctxWindow := 4096
    index := index
    engine := .compress
    inMem := cells input
    outMem := cells out
    work := { Work.start input.length cap with p := p, anchor := anchor, o := out.length } }

/-- The idle core with a context, `input` in IN, and the argument registers set. -/
def ready (input : List Nat) (cap : Nat) : State :=
  { State.reset with
    ctxValid := 1
    ctxWindow := 4096
    inMem := cells input
    argInLen := BitVec.ofNat 64 input.length
    argOutCap := BitVec.ofNat 64 cap }

def hosted (a : HostAction) : State := { State.reset with host := [a] }

/-- The next state; `State.reset` where there is none. -/
def after (r : Host.Outcome State Fault Refusal) : State :=
  match r with
  | .next t => t
  | .fault _ => State.reset
  | .refused _ => State.reset

def isNext (r : Host.Outcome State Fault Refusal) : Bool :=
  match r with
  | .next _ => true
  | .fault _ => false
  | .refused _ => false

/-- What OUT lists. -/
def listed (s : State) : List (Nat × Nat) := s.outMem.map (fun e => (e.1, e.2.toNat))

def results (s : State) : Nat × Nat × Nat × Nat × Nat :=
  (s.status.toNat, s.detail.toNat, s.bytesWritten.toNat, s.errInPos.toNat, s.errOutPos.toNat)

/-! ## Well-formedness: each check refuses an ill-formed term (R103 to R111) -/

theorem test_wf_lit0_refuses_32 : (Instr.lit0 32).wf = false := by decide
theorem test_wf_lit1_refuses_32 : (Instr.lit1 32).wf = false := by decide
theorem test_wf_lit2_refuses_32 : (Instr.lit2 32).wf = false := by decide
theorem test_wf_lit3_refuses_32 : (Instr.lit3 32).wf = false := by decide
theorem test_wf_match_refuses_8 :
    (Instr.matchRef 8 0).wf = false ∧ (Instr.matchRef 0 8).wf = false ∧
      (Instr.match10 8 0).wf = false ∧ (Instr.match10 0 8).wf = false := by decide
theorem test_wf_accepts_the_greatest :
    (Instr.lit0 31).wf = true ∧ (Instr.lit2 31).wf = true ∧ (Instr.matchRef 7 7).wf = true := by decide
theorem test_token_wf_refuses_class_3 : (Token.literal 3 []).wf = false := by decide
theorem test_token_wf_refuses_a_long_lit0 :
    (Token.literal 0 (List.replicate 32 0)).wf = false := by decide
theorem test_token_wf_refuses_wide_counts :
    (Token.reference false 8 1 1 1).wf = false ∧ (Token.reference false 1 8 1 1).wf = false := by decide
theorem test_token_wf_refuses_wide_values :
    (Token.reference false 1 1 256 1).wf = false ∧ (Token.reference false 1 1 1 256).wf = false := by decide

/-! ## Decoding: words written out from the layouts of R103 to R111 and the codes of R114 -/

theorem test_decode_lit0 : decode [0b00011111#8] = .ok (.lit0 31, []) := by decide
theorem test_decode_lit1 : decode [0b00111111#8, 0xFF#8] = .ok (.lit1 31, [0xFF#8]) := by decide
theorem test_decode_lit2 : decode [0b01000001#8] = .ok (.lit2 1, []) := by decide
theorem test_decode_lit3 : decode [0b01111111#8] = .ok (.lit3 31, []) := by decide
theorem test_decode_match10 : decode [0b10111010#8] = .ok (.match10 7 2, []) := by decide
theorem test_decode_match : decode [0b11010011#8] = .ok (.matchRef 2 3, []) := by decide
theorem test_decode_rejects_no_byte : decode [] = .error .endOfInput := by decide
theorem test_decode_commands :
    [1#8, 2#8, 3#8, 4#8, 5#8].map decodeCommand
      = [.ok .createContext, .ok .destroyContext, .ok .resetIndex, .ok .compress, .ok .decompress] := by
  decide
theorem test_decode_rejects_code_6 : decodeCommand 6#8 = .error (.illegalCommand 6#8) := by decide

/-- The examples of R118. -/
theorem test_encode_examples :
    (Token.literal 0 (bytesOf [0x61, 0x62, 0x63])).encode = bytesOf [0x03, 0x61, 0x62, 0x63] ∧
    (Token.reference false 1 1 4 4).encode = bytesOf [0xC9, 0x04, 0x04] ∧
    (Token.reference false 2 1 256 1).encode = bytesOf [0xD1, 0x01, 0x00, 0x01] ∧
    (canonicalReference 300 70000).encode = bytesOf [0xD3, 0x01, 0x2C, 0x01, 0x11, 0x70] ∧
    (Token.reference false 0 1 0 2).encode = bytesOf [0xC1, 0x02] ∧
    (Token.reference true 1 1 5 1).encode = bytesOf [0x89, 0x05, 0x01] := by decide

/-- The headers of R118 and 95_test_vectors.md L2.2. -/
theorem test_literal_headers :
    litHeader 1 32 = bytesOf [0x20, 0x20] ∧ litHeader 1 8191 = bytesOf [0x3F, 0xFF] ∧
    litHeader 2 8192 = bytesOf [0x40, 0x20, 0x00] ∧
    litHeader 2 2097151 = bytesOf [0x5F, 0xFF, 0xFF] := by decide

/-- R140's table. -/
theorem test_bytewidth :
    [0, 1, 255, 256, 65535, 65536, 2 ^ 24 - 1, 2 ^ 24, 2 ^ 56 - 1, 2 ^ 56, 2 ^ 64 - 1].map byteWidth
      = [0, 1, 1, 2, 2, 3, 3, 4, 7, 8, 8] := by decide

/-- The table's rows, by their match values. -/
theorem test_table_words :
    [0x00, 0x20, 0x40, 0x60, 0x80, 0xC0, 1, 2, 3, 4, 5].map (decodeTableWord 8)
      = [some (.lit0 0), some (.lit1 0), some (.lit2 0), some (.lit3 0), some (.match10 0 0),
        some (.matchRef 0 0), some .createContext, some .destroyContext, some .resetIndex,
        some .compress, some .decompress] := by decide

/-- After reset, each row's word runs as the first instruction. -/
theorem test_table_words_run :
    ([0x00, 0x20, 0x40, 0x60, 0x80, 0xC0, 1, 2, 3, 4, 5].map
      (fun w => (results (after (step (State.reset.withFetchWord 8 w)))).1))
      = [0, 0, 0, 4, 4, 4, 0, 0, 5, 5, 2] := by decide

/-! ## One step each, expected results from 95_test_vectors.md -/

/-- L2.8 LIT0: `03 61 62 63` writes "abc". -/
theorem test_lit0_copies :
    listed (after (step (decompressing [3, 0x61, 0x62, 0x63] 0 [] 10)))
      = [(0, 0x61), (1, 0x62), (2, 0x63)] := by decide

/-- L2.8 LIT0: `05 61 62 63` is truncated at 0/0. -/
theorem test_lit0_truncated :
    results (after (step (decompressing [5, 0x61, 0x62, 0x63] 0 [] 10))) = (4, 3, 0, 0, 0) := by decide

/-- L2.8 LIT1: `20 03 61 62 63` leaves `i = 5`, `o = 3` (R176). -/
theorem test_lit1_moves_the_cursors :
    (let t := after (step (decompressing [0x20, 3, 0x61, 0x62, 0x63] 0 [] 10))
     (t.work.i, t.work.o)) = (5, 3) := by decide

/-- L2.8 LIT1: `02 61 62 20` has no continuation byte. -/
theorem test_lit1_truncated :
    results (after (step (decompressing [2, 0x61, 0x62, 0x20] 3 [0x61, 0x62] 10))) = (4, 3, 0, 3, 2) := by
  decide

/-- L2.8 LIT2: `40 00 03 61 62 63` writes "abc". -/
theorem test_lit2_copies :
    listed (after (step (decompressing [0x40, 0, 3, 0x61, 0x62, 0x63] 0 [] 10)))
      = [(0, 0x61), (1, 0x62), (2, 0x63)] := by decide

/-- L2.8 LIT3: `01 61 C9 05 01 6A` is rejected at 5/6. -/
theorem test_lit3_rejected :
    results (after (step (decompressing [1, 0x61, 0xC9, 5, 1, 0x6A] 5 [97, 97, 97, 97, 97, 97] 10)))
      = (4, 1, 0, 5, 6) := by decide

/-- L2.8 MATCH: `02 61 62 C9 05 02` writes "abababa" (overlap with period 2). -/
theorem test_match_overlaps :
    listed (after (step (decompressing [2, 0x61, 0x62, 0xC9, 5, 2] 3 [0x61, 0x62] 10)))
      = [(0, 0x61), (1, 0x62), (2, 0x61), (3, 0x62), (4, 0x61), (5, 0x62), (6, 0x61)] := by decide

/-- L2.8 MATCH: `02 61 62 CA 00 04 02` has `D = 0x0402`. -/
theorem test_match_bad_distance :
    results (after (step (decompressing [2, 0x61, 0x62, 0xCA, 0, 4, 2] 3 [0x61, 0x62] 10)))
      = (4, 4, 0, 3, 2) := by decide

/-- L2.8 MATCH10 under both policies: `01 61 89 05 01`. -/
theorem test_match10_as_match :
    (after (step (decompressing [1, 0x61, 0x89, 5, 1] 2 [0x61] 10))).work.o = 6 := by decide

theorem test_match10_malformed :
    results (after (step { decompressing [1, 0x61, 0x89, 5, 1] 2 [0x61] 10 with
      cfg := { Config.default with matchTag10 := .malformed } })) = (4, 2, 0, 2, 1) := by decide

/-- L2.8 start checks: three bytes, and a capacity of 2^32, are INVALID_PARAM. -/
theorem test_decompress_start_checks :
    results (after (exec .decompress (ready [5, 0x61, 0x62] 10))) = (2, 0, 0, 0, 0) ∧
    results (after (exec .decompress (ready [3, 0x61, 0x62, 0x63] (2 ^ 32)))) = (2, 0, 0, 0, 0) := by
  decide

/-- 43_decompress.md R267: at the end of the input the bytes written are reported. -/
theorem test_decompress_completes :
    results (after (step (decompressing [3, 0x61, 0x62, 0x63] 4 [0x61, 0x62, 0x63] 10)))
      = (0, 0, 3, 0, 0) := by decide

/-- L2.6: NO_CONTEXT is checked before the length. -/
theorem test_compress_no_context :
    results (after (exec .compress { ready [0x61, 0x62, 0x63] 10 with ctxValid := 0 }))
      = (5, 0, 0, 0, 0) := by decide

/-- The trace of 42_compress.md at p = 6: `06 68 65 6C 6C 6F 20 C9 06 06`. -/
theorem test_compress_hit :
    listed (after (step (compressing
        [0x68, 0x65, 0x6C, 0x6C, 0x6F, 0x20, 0x68, 0x65, 0x6C, 0x6C, 0x6F, 0x20, 0x68, 0x65]
        [(0x68656C6C, 0)] 6 0 [] 64)))
      = [(0, 6), (1, 0x68), (2, 0x65), (3, 0x6C), (4, 0x6C), (5, 0x6F), (6, 0x20),
        (7, 0xC9), (8, 6), (9, 6)] := by decide

/-- L2.6: `"abcdabcd"` with capacity 7 fails at 4/5. -/
theorem test_compress_capacity :
    results (after (step (compressing [0x61, 0x62, 0x63, 0x64, 0x61, 0x62, 0x63, 0x64]
      [(0x61626364, 0)] 4 0 [] 7))) = (3, 0, 0, 4, 5) := by decide

/-- L2.7: the stale `"abcd"→0` at p = 4 of `"zzzzabcd"` is overwritten. -/
theorem test_compress_stale_entry :
    (after (step (compressing [0x7A, 0x7A, 0x7A, 0x7A, 0x61, 0x62, 0x63, 0x64]
      [(0x61626364, 0)] 4 0 [] 64))).index = [(0x61626364, 4)] := by decide

/-- 42_compress.md R220: `L <- 0` in each iteration, so a miss after a match of 4 leaves `L = 0`. -/
theorem test_compress_miss_clears_the_length :
    (let s := compressing [1, 2, 3, 4] [] 0 0 [] 9
     (after (step { s with work := { s.work with len := some 4 } })).work.len) = some 0 := by decide

/-- 60_exceptions.md R334: the header byte of a rejected token can be read back from `in[ERR_IN_POS]`. -/
theorem test_header_is_read_back :
    (let t := after (step (decompressing [1, 0x61, 0xC9, 5, 1, 0x6A] 5 [97, 97, 97, 97, 97, 97] 10))
     (after (step { t with host := [.readIn t.errInPos] })).hostData) = 0x6A := by decide

/-- L2.9: CREATE of levels 3 and 10. -/
theorem test_create_level_3 :
    (let t := after (exec .createContext { State.reset with argLevel := 3 })
     (t.ctxValid.toNat, t.ctxLevel.toNat, t.ctxWindow.toNat)) = (1, 3, 32768) := by decide

theorem test_create_negative_level :
    results (after (exec .createContext { State.reset with argLevel := 0x80000000 }))
      = (1, 0, 0, 0, 0) := by decide

/-- L2.9: DESTROY empties the index. -/
theorem test_destroy :
    (let t := after (exec .destroyContext { ready [] 0 with index := [(1, 2)] })
     (t.ctxValid.toNat, t.index.length)) = (0, 0) := by decide

/-- L2.9: RESET_INDEX keeps the window. -/
theorem test_reset_index :
    (let t := after (exec .resetIndex { ready [] 0 with index := [(1, 2)] })
     (t.ctxWindow.toNat, t.index.length)) = (4096, 0) := by decide

/-- L2.9: an illegal code leaves BYTES_WRITTEN. -/
theorem test_illegal_code :
    results (after (step { hosted (.write 0 0x07) with bytesWritten := 8 })) = (6, 0, 8, 0, 0) := by decide

/-! ## Witnesses: concrete inputs that meet the hypotheses of each statement, one theorem a clause -/

theorem witness_IllegalCodes : (0xFF#8 : Byte).toNat = 0 ∨ 6 ≤ (0xFF#8 : Byte).toNat := by decide

theorem witness_HeaderByte :
    (0x1F#8 : Byte).toNat < 0x20 ∧ 0x20 ≤ (0x3F#8 : Byte).toNat ∧ (0x3F#8 : Byte).toNat < 0x40 ∧
    0x40 ≤ (0x40#8 : Byte).toNat ∧ (0x5F#8 : Byte).toNat < 0x60 ∧ 0x60 ≤ (0x7F#8 : Byte).toNat ∧
    (0x7F#8 : Byte).toNat < 0x80 ∧ 0x80 ≤ (0xBF#8 : Byte).toNat ∧ (0xBF#8 : Byte).toNat < 0xC0 ∧
    0xC0 ≤ (0xFF#8 : Byte).toNat := by decide

theorem witness_InstructionDecodes :
    ((Instr.matchRef 7 7).wf = true ∧ (Instr.matchRef 7 7).isToken = true) ∧
    (Instr.compress.wf = true ∧ Instr.compress.isToken = false) := by decide

theorem witness_TokenDecodes :
    (Token.literal 1 (bytesOf [1, 2, 3])).wf = true ∧
    (Token.reference true 7 7 (2 ^ 56 - 1) 1).wf = true := by decide

theorem witness_Bytewidth : 2 ^ 64 - 1 < 2 ^ 64 := by decide

theorem witness_Litclass : 2097151 ≤ 2097151 := by decide

theorem witness_Matchlen :
    let s := compressing [1, 1, 1, 1, 1, 1] [] 1 0 [] 9
    1 ≤ s.work.n ∧ 1 ≤ 1 ∧ 0 < 1 ∧ 0 + matchLen s 0 1 = 1 ∧
    2 + matchLen (compressing [1, 2, 1, 3, 1, 2] [] 2 0 [] 9) 0 2 < 6 ∧
    0 + matchLen (compressing [1, 2, 1, 3, 1, 2] [] 2 0 [] 9) 0 2 < 2 := by decide

theorem witness_ResetEvent :
    (hosted .reset).host = [.reset] ∧ busyBit (hosted .reset) = 0 ∧
    busyBit { decompressing [1, 2, 3, 4] 0 [] 1 with host := [.reset] } = 1 ∧
    0 < (decompressing [1, 2, 3, 4] 0 [] 1).work.cap := by decide

theorem witness_RegisterRead :
    (hosted (.read 0)).host = [.read 0] ∧ (hosted (.read 12)).host = [.read 12] ∧
    (hosted (.read 255)).host = [.read 255] := by decide

theorem witness_RegisterWrite :
    ((hosted (.write 3 7)).host = [.write 3 7] ∧ busyBit (hosted (.write 3 7)) = 0 ∧ (3 : BitVec 8) ≠ 0) ∧
    (let s := { decompressing [1, 2, 3, 4] 0 [] 1 with host := [.write 4 7] }
     s.host = [.write 4 7] ∧ busyBit s = 1 ∧ (4 : BitVec 8) ≠ 0 ∧ (4 : BitVec 8) ≠ 3) := by decide

theorem witness_HostWrites :
    busyBit (hosted (.writeIn 0 7)) = 0 ∧ (hosted (.writeIn 0 7)).host = [.writeIn 0 7] ∧
    (hosted (.writeOut 0 7)).host = [.writeOut 0 7] := by decide

theorem witness_HostReadsOut :
    (hosted (.readOut 0)).host = [.readOut 0] ∧ busyBit (hosted (.readOut 0)) = 0 ∧
    busyBit { decompressing [1, 2, 3, 4] 0 [] 1 with host := [.readOut 0] } = 1 ∧
    (hosted (.readIn 0)).host = [.readIn 0] := by decide

theorem witness_Polling :
    (hosted .waitIdle).host = [.waitIdle] ∧ busyBit (hosted .waitIdle) = 0 ∧
    busyBit { decompressing [1, 2, 3, 4] 0 [] 1 with host := [.waitIdle] } = 1 ∧
    (hosted .letRun).host = [.letRun] ∧ busyBit (hosted .letRun) = 0 ∧
    State.reset.host = [] ∧ busyBit State.reset = 0 := by decide

theorem witness_StepRunsTheToken :
    let s := decompressing [3, 0x61, 0x62, 0x63] 0 [] 10
    s.host = [] ∧ s.engine = .decompress ∧ s.work.i < s.work.n ∧
    decode (inBytes s s.work.i (s.work.n - s.work.i)) = .ok (.lit0 3, bytesOf [0x61, 0x62, 0x63]) := by
  decide

theorem witness_DecompressEnds :
    let s := decompressing [3, 0x61, 0x62, 0x63] 4 [0x61, 0x62, 0x63] 10
    s.host = [] ∧ s.engine = .decompress ∧ s.work.n ≤ s.work.i := by decide

theorem witness_CmdWriteRuns :
    (hosted (.write 0 5)).host = [.write 0 5] ∧ busyBit (hosted (.write 0 5)) = 0 ∧
    decodeCommand ((5 : Word).setWidth 8) = .ok .decompress := by decide

theorem witness_IllegalCommand :
    (hosted (.write 0 6)).host = [.write 0 6] ∧ busyBit (hosted (.write 0 6)) = 0 ∧
    (((6 : Word).setWidth 8 : Byte).toNat = 0 ∨ 6 ≤ ((6 : Word).setWidth 8 : Byte).toNat) := by decide

theorem witness_CmdWhileBusy :
    let s := { decompressing [1, 2, 3, 4] 0 [] 1 with host := [.write 0 4] }
    s.host = [.write 0 4] ∧ busyBit s = 1 := by decide

theorem witness_CreateContext :
    (0 ≤ ({ State.reset with argLevel := 9 } : State).argLevel.toInt ∧
      ({ State.reset with argLevel := 9 } : State).argLevel.toInt ≤ 9) ∧
    9 < ({ State.reset with argLevel := 10 } : State).argLevel.toInt ∧
    ({ State.reset with argLevel := 0xFFFFFFFF } : State).argLevel.toInt < 0 := by decide

theorem witness_ResetIndex : (ready [] 0).ctxValid = 1 ∧ State.reset.ctxValid = 0 := by decide

theorem witness_Lit0 :
    (let s := decompressing [5, 0x61, 0x62, 0x63] 0 [] 10; s.work.n < s.work.i + 1 + 5) ∧
    (let s := decompressing [3, 0x61, 0x62, 0x63] 0 [] 2
     s.work.i + 1 + 3 ≤ s.work.n ∧ s.work.cap < s.work.o + 3) ∧
    (let s := decompressing [3, 0x61, 0x62, 0x63] 0 [] 3
     s.work.i + 1 + 3 ≤ s.work.n ∧ s.work.o + 3 ≤ s.work.cap) := by decide

theorem witness_Lit1 :
    (let s := decompressing [2, 0x61, 0x62, 0x20, 1] 3 [0x61, 0x62] 10
     1 = 0 * 256 + (inByte s (s.work.i + 1)).toNat ∧ s.work.n < s.work.i + 2 + 1) ∧
    (let s := decompressing [0x20, 3, 0x61, 0x62, 0x63] 0 [] 2
     3 = 0 * 256 + (inByte s (s.work.i + 1)).toNat ∧ s.work.i + 2 + 3 ≤ s.work.n ∧
       s.work.cap < s.work.o + 3) ∧
    (let s := decompressing [0x20, 3, 0x61, 0x62, 0x63] 0 [] 3
     3 = 0 * 256 + (inByte s (s.work.i + 1)).toNat ∧ s.work.i + 2 + 3 ≤ s.work.n ∧
       s.work.o + 3 ≤ s.work.cap) := by decide

theorem witness_Lit2 :
    (let s := decompressing [2, 0x61, 0x62, 0x40, 0, 1] 3 [0x61, 0x62] 10
     1 = 0 * 65536 + (inByte s (s.work.i + 1)).toNat * 256 + (inByte s (s.work.i + 2)).toNat ∧
       s.work.n < s.work.i + 3 + 1) ∧
    (let s := decompressing [0x40, 0, 3, 0x61, 0x62, 0x63] 0 [] 2
     3 = 0 * 65536 + (inByte s (s.work.i + 1)).toNat * 256 + (inByte s (s.work.i + 2)).toNat ∧
       s.work.i + 3 + 3 ≤ s.work.n ∧ s.work.cap < s.work.o + 3) ∧
    (let s := decompressing [0x40, 0, 3, 0x61, 0x62, 0x63] 0 [] 3
     s.work.i + 3 + 3 ≤ s.work.n ∧ s.work.o + 3 ≤ s.work.cap) := by decide

theorem witness_Match :
    (let s := decompressing [1, 0x61, 0xC9, 5] 2 [0x61] 10; s.work.n < s.work.i + 1 + 1 + 1) ∧
    (let s := decompressing [1, 0x61, 0xC9, 5, 2] 2 [0x61] 10
     s.work.i + 1 + 1 + 1 ≤ s.work.n ∧ 2 = fieldValue s (s.work.i + 1 + 1) 1 ∧ s.work.o < 2) ∧
    (let s := decompressing [1, 0x61, 0xC0, 0] 2 [0x61] 10
     s.work.i + 1 + 0 + 0 ≤ s.work.n ∧ 0 = fieldValue s (s.work.i + 1 + 0) 0) ∧
    (let s := decompressing [1, 0x61, 0xC9, 5, 1] 2 [0x61] 5
     s.work.i + 1 + 1 + 1 ≤ s.work.n ∧ 1 = fieldValue s (s.work.i + 1 + 1) 1 ∧ 1 ≤ s.work.o ∧
       5 = fieldValue s (s.work.i + 1) 1 ∧ s.work.cap < s.work.o + 5) ∧
    (let s := decompressing [1, 0x61, 0xC9, 5, 1] 2 [0x61] 6
     s.work.i + 1 + 1 + 1 ≤ s.work.n ∧ 1 = fieldValue s (s.work.i + 1 + 1) 1 ∧ 1 ≤ s.work.o ∧
       5 = fieldValue s (s.work.i + 1) 1 ∧ s.work.o + 5 ≤ s.work.cap) := by decide

theorem witness_CopyReadsTheBytesItWrote :
    let s := decompressing [1, 0x61, 0xC9, 5, 1] 2 [0x61] 6
    5 = fieldValue s (s.work.i + 1) 1 ∧ 1 = fieldValue s (s.work.i + 1 + 1) 1 ∧
    s.work.i + 1 + 1 + 1 ≤ s.work.n ∧ 1 ≤ s.work.o ∧ s.work.o + 5 ≤ s.work.cap ∧
    isNext (exec (.matchRef 1 1) s) = true := by decide

theorem witness_Match10 :
    (let s := decompressing [1, 0x61, 0x89, 5, 1] 2 [0x61] 6
     s.cfg.matchTag10 = .asMatch ∧ 5 = fieldValue s (s.work.i + 1) 1 ∧
       1 = fieldValue s (s.work.i + 1 + 1) 1 ∧ s.work.i + 1 + 1 + 1 ≤ s.work.n ∧ 1 ≤ s.work.o ∧
       s.work.o + 5 ≤ s.work.cap) ∧
    ({ State.reset with cfg := { Config.default with matchTag10 := .malformed } } : State).cfg.matchTag10
      = .malformed := by decide

theorem witness_DecompressStarts :
    (ready [1, 2, 3] 9).argInLen.toNat < 4 ∧
    (let s := ready [1, 2, 3, 4] (2 ^ 32); s.cfg.capMax < s.argOutCap.toNat) ∧
    (let s := { ready [1, 2, 3, 4] 9 with argInLen := 0x100000000 }; s.cfg.nMax < s.argInLen.toNat) ∧
    (let s := ready [1, 2, 3, 4] 9
     4 ≤ s.argInLen.toNat ∧ s.argInLen.toNat ≤ s.cfg.nMax ∧ s.argOutCap.toNat ≤ s.cfg.capMax) := by decide

theorem witness_AlwaysCompletes :
    let s := ready [1, 2, 3, 4] 9
    s.host = [] ∧ s.ctxValid = 1 ∧ 4 ≤ s.argInLen.toNat ∧ s.argInLen.toNat ≤ s.cfg.nMax ∧
    s.argOutCap.toNat ≤ s.cfg.capMax := by decide

theorem witness_DecompressProduces :
    let ts := [Token.literal 0 (bytesOf [0x61]), Token.reference false 1 1 5 1]
    let s := ready [1, 0x61, 0xC9, 5, 1] 6
    (s.host = [] ∧ (∀ t ∈ ts, t.wf = true)) ∧ InputIs s (streamBytes ts) ∧
    expandTokens s.cfg.matchTag10 [] ts = some (bytesOf [0x61, 0x61, 0x61, 0x61, 0x61, 0x61]) ∧
    6 ≤ s.argOutCap.toNat :=
  ⟨by decide, ⟨by decide, by decide⟩, by decide, by decide⟩

theorem witness_DecompressIgnoresTheContext :
    isNext (exec .decompress (ready [1, 2, 3, 4] 9)) = true ∧
    (decompressing [1, 2, 3, 4] 0 [] 9).engine = .decompress ∧
    isNext (engineMove (decompressing [1, 2, 3, 4] 0 [] 9)) = true := by decide

theorem witness_CompressStarts :
    State.reset.ctxValid = 0 ∧
    ((ready [1, 2, 3] 9).ctxValid = 1 ∧ (ready [1, 2, 3] 9).argInLen.toNat < 4) ∧
    (let s := ready [1, 2, 3, 4] 9
     s.ctxValid = 1 ∧ 4 ≤ s.argInLen.toNat ∧ s.argInLen.toNat ≤ s.cfg.nMax ∧
       s.argOutCap.toNat ≤ s.cfg.capMax) := by decide

/-- A miss without an entry, and one with a stale entry. -/
theorem witness_ScanMiss :
    (let s := compressing [1, 2, 3, 4] [] 0 0 [] 9
     s.host = [] ∧ s.engine = .compress ∧ s.work.p + 4 ≤ s.work.n ∧
       indexLookup s.index (keyAt s s.work.p) = none) ∧
    (let s := compressing [1, 2, 3, 4] [(0x01020304, 7)] 0 0 [] 9
     indexLookup s.index (keyAt s s.work.p) = some 7 ∧ matchLen s 7 s.work.p = 0) := by decide

/-- The state of a hit: `"abcdabcd"` at p = 4. -/
def hitState (cap : Nat) : State :=
  compressing [0x61, 0x62, 0x63, 0x64, 0x61, 0x62, 0x63, 0x64] [(0x61626364, 0)] 4 0 [] cap

theorem witness_ScanHit :
    let s := hitState 8
    s.host = [] ∧ s.engine = .compress ∧ s.work.p + 4 ≤ s.work.n ∧
    indexLookup s.index (keyAt s s.work.p) = some 0 ∧ 4 = matchLen s 0 s.work.p ∧
    s.work.p - 0 ≤ s.ctxWindow.toNat ∧
    s.work.o + (streamBytes (litRun (inBytes s s.work.anchor (s.work.p - s.work.anchor)) ++
      [canonicalReference 4 (s.work.p - 0)])).length ≤ s.work.cap := by decide

/-- Capacity 7 stops at the match, capacity 4 at the literal. -/
theorem witness_ScanHitFails :
    (let s := hitState 7
     let ts := litRun (inBytes s s.work.anchor (s.work.p - s.work.anchor)) ++
       [canonicalReference 4 (s.work.p - 0)]
     s.work.anchor ≤ s.work.p ∧ 1 < ts.length ∧
       s.work.o + (streamBytes (ts.take 1)).length ≤ s.work.cap ∧
       s.work.cap < s.work.o + (streamBytes (ts.take 2)).length) ∧
    (let s := hitState 4
     let ts := litRun (inBytes s s.work.anchor (s.work.p - s.work.anchor)) ++
       [canonicalReference 4 (s.work.p - 0)]
     s.work.o + (streamBytes (ts.take 0)).length ≤ s.work.cap ∧
       s.work.cap < s.work.o + (streamBytes (ts.take 1)).length) := by decide

/-- The tail of `"abcd"`: fits in 5 bytes, not in 4. -/
theorem witness_ScanEnd :
    (let s := compressing [0x61, 0x62, 0x63, 0x64] [] 1 0 [] 5
     s.host = [] ∧ s.engine = .compress ∧ s.work.n < s.work.p + 4 ∧
       s.work.o + (streamBytes (litRun (inBytes s s.work.anchor (s.work.n - s.work.anchor)))).length
         ≤ s.work.cap) ∧
    (let s := compressing [0x61, 0x62, 0x63, 0x64] [] 1 0 [] 4
     let ts := litRun (inBytes s s.work.anchor (s.work.n - s.work.anchor))
     0 < ts.length ∧ s.work.o + (streamBytes (ts.take 0)).length ≤ s.work.cap ∧
       s.work.cap < s.work.o + (streamBytes (ts.take 1)).length) := by decide

/-- The end of COMPRESS `"abcd"` from `ready`. -/
def compressedAbcd : State :=
  after (step (after (step (after (exec .compress (ready [0x61, 0x62, 0x63, 0x64] 9))))))

theorem finishes_compress_abcd :
    Finishes .compress (ready [0x61, 0x62, 0x63, 0x64] 9) compressedAbcd :=
  ⟨2, after (exec .compress (ready [0x61, 0x62, 0x63, 0x64] 9)), rfl, 2, le_refl 2, rfl, rfl⟩

theorem witness_CompressWritesTokens :
    (ready [0x61, 0x62, 0x63, 0x64] 9).host = [] ∧ (ready [0x61, 0x62, 0x63, 0x64] 9).cfg.legal ∧
    InputIs (ready [0x61, 0x62, 0x63, 0x64] 9) (bytesOf [0x61, 0x62, 0x63, 0x64]) ∧
    Finishes .compress (ready [0x61, 0x62, 0x63, 0x64] 9) compressedAbcd ∧ compressedAbcd.status = 0 :=
  ⟨rfl, by decide, ⟨by decide, by decide⟩, finishes_compress_abcd, by decide⟩

theorem witness_RoundTrip :
    let u := ready [4, 0x61, 0x62, 0x63, 0x64] 4
    compressedAbcd.bytesWritten = 5 ∧ u.host = [] ∧
    u.cfg = (ready [0x61, 0x62, 0x63, 0x64] 9).cfg ∧ u.argInLen = compressedAbcd.bytesWritten ∧
    (∀ a < compressedAbcd.bytesWritten.toNat, inByte u a = outByte compressedAbcd a) ∧
    4 ≤ u.argOutCap.toNat ∧ u.argOutCap.toNat ≤ u.cfg.capMax := by decide

theorem witness_CapacityThatSuffices :
    (let s := ready [1, 2, 3, 4] 12
     s.cfg.legal ∧ s.ctxValid = 1 ∧ (2 + byteWidth s.argInLen.toNat) * s.argInLen.toNat ≤ s.argOutCap.toNat) ∧
    (let s := ready [1, 2, 3, 4] 12; s.index = [] ∧ 3 * s.argInLen.toNat ≤ s.argOutCap.toNat) := by decide

theorem witness_WindowHasNoEffect :
    isNext (exec .compress (ready [1, 2, 3, 4] 9)) = true ∧
    (ready [1, 2, 3, 4] 9).cfg.windowEnforced = false ∧
    (hitState 8).cfg.windowEnforced = false ∧ (hitState 8).engine = .compress ∧
    isNext (engineMove (hitState 8)) = true := by decide

/-- The hypotheses of the statements about a move of the engine and about a step. -/
theorem witness_EngineMove :
    isNext (engineMove (hitState 8)) = true ∧ (after (engineMove (hitState 8))).engine ≠ .idle ∧
    isNext (step (hitState 8)) = true := by decide

theorem witness_CursorsAdvance :
    (let s := decompressing [1, 2, 3, 4] 0 [] 9
     isNext (engineMove s) = true ∧ (after (engineMove s)).engine ≠ .idle ∧ s.engine = .decompress) ∧
    (hitState 8).engine = .compress := by decide

theorem witness_StepKeepsInvariant : Inv (hitState 8) ∧ isNext (step (hitState 8)) = true := by decide

end Sys2Proof.Tests
end

section
/-! The invariant of the core. What rests in the core between commands is `StoreOk`; one lemma per
operation says that it keeps `StoreOk` or `Inv`, and each instruction and each move is put together
from these. -/

namespace Sys2Proof.Machine

/-! ## The parts of the invariant -/

/-- The part of the invariant that speaks neither of the result registers nor of a running command. -/
def StoreOk (s : State) : Prop := s.cfg.legal ∧ SpacesOk s ∧ ContextOk s

theorem inv_iff (s : State) : Inv s ↔ StoreOk s ∧ ResultOk s ∧ EngineOk s := by
  simp only [StoreOk, and_assoc]

theorem storeOk_of_inv {s : State} (h : Inv s) : StoreOk s := ((inv_iff s).mp h).1

theorem resultOk_of_inv {s : State} (h : Inv s) : ResultOk s := ((inv_iff s).mp h).2.1

theorem engineOk_of_idle {s : State} (h : s.engine = .idle) : EngineOk s := by simp [EngineOk, h]

/-- `Inv` does not speak of the host, nor of what the host last read. -/
theorem inv_withHost {s : State} (h : Inv s) (q : List HostAction) : Inv (withHost s q) := h

theorem inv_withHostData {s : State} (h : Inv s) (v : Word) : Inv (withHostData s v) := h

theorem inv_freeRead {s : State} (h : Inv s) (offset : Word) : Inv (freeRead offset s) := h

/-- Latching a header or a key moves no cursor (R225, R263). -/
theorem inv_latchHeader {s : State} (h : Inv s) : Inv (latchHeader s) := h

theorem inv_lookupKey {s : State} (h : Inv s) : Inv (lookupKey s) := h

/-! ## Operations on what rests in the core -/

theorem inMem_wf_of_storeOk {s : State} (h : StoreOk s) : s.inMem.wf := by
  obtain ⟨_, ⟨hin, _⟩, _⟩ := h
  exact hin

theorem outMem_wf_of_storeOk {s : State} (h : StoreOk s) : s.outMem.wf := by
  obtain ⟨_, ⟨_, hout, _⟩, _⟩ := h
  exact hout

theorem ctxValid_eq_one {s : State} (h : StoreOk s) (hne : s.ctxValid ≠ 0) : s.ctxValid = 1 := by
  obtain ⟨_, _, ⟨hzero, _⟩ | ⟨hone, _⟩⟩ := h
  · exact absurd hzero hne
  · exact hone

theorem nMax_lt_of_storeOk {s : State} (h : StoreOk s) : s.cfg.nMax < 2 ^ 56 := by
  obtain ⟨⟨_, hmax, _⟩, _⟩ := h
  omega

theorem storeOk_withIn {s : State} (h : StoreOk s) {m : Memory} (hm : m.wf) : StoreOk (withIn s m) := by
  obtain ⟨hcfg, ⟨_, hout, hindex, hdraws, hentries⟩, hctx⟩ := h
  exact ⟨hcfg, ⟨hm, hout, hindex, hdraws, hentries⟩, hctx⟩

theorem storeOk_withOut {s : State} (h : StoreOk s) {m : Memory} (hm : m.wf) : StoreOk (withOut s m) := by
  obtain ⟨hcfg, ⟨hin, _, hindex, hdraws, hentries⟩, hctx⟩ := h
  exact ⟨hcfg, ⟨hin, hm, hindex, hdraws, hentries⟩, hctx⟩

theorem storeOk_append {s : State} (h : StoreOk s) (t : List Byte) : StoreOk (append t s) :=
  storeOk_withOut h (putBytes_wf t (outMem_wf_of_storeOk h) _)

theorem storeOk_withBytes {s : State} (h : StoreOk s) (count : Word) : StoreOk (withBytes s count) := h

theorem storeOk_scrambleOut {s : State} (h : StoreOk s) (bound : Nat) : StoreOk (scrambleOut bound s) := by
  obtain ⟨hcfg, ⟨hin, hout, hindex, hdraws, hentries⟩, hctx⟩ := h
  exact ⟨hcfg, ⟨hin, filter_wf hout _, hindex, newDraw_wf hdraws _ _, hentries⟩, hctx⟩

theorem storeOk_abandon {s : State} (h : StoreOk s) : StoreOk (abandon s) := by
  unfold abandon
  split
  · exact h
  · exact storeOk_scrambleOut h _
  · exact storeOk_scrambleOut h _

/-- An empty index is right with a context and without one. -/
theorem storeOk_clearIndex {s : State} (h : StoreOk s) : StoreOk (withIndex s indexClear) := by
  obtain ⟨hcfg, ⟨hin, hout, _, hdraws, _⟩, hctx⟩ := h
  refine ⟨hcfg, ⟨hin, hout, .nil, hdraws, by simp [indexClear]⟩, ?_⟩
  rcases hctx with ⟨hvalid, hlevel, hwindow, _⟩ | hctx
  · exact .inl ⟨hvalid, hlevel, hwindow, rfl⟩
  · exact .inr hctx

theorem storeOk_dropContext {s : State} (h : StoreOk s) : StoreOk (dropContext s) := by
  obtain ⟨hcfg, hspaces, _⟩ := storeOk_clearIndex h
  exact ⟨hcfg, hspaces, .inl ⟨rfl, rfl, rfl, rfl⟩⟩

/-- A level of at most 9 fits its 4-bit register and its window the 32-bit one (R45, R46, R301). -/
theorem storeOk_installContext {s : State} (h : StoreOk s) {level : Nat} (hlevel : level ≤ levelMax) :
    StoreOk (installContext level s) := by
  obtain ⟨hcfg, hspaces, _⟩ := storeOk_clearIndex h
  refine ⟨hcfg, hspaces, .inr ?_⟩
  have hlevel : level ≤ 9 := hlevel
  show (1 : BitVec 1) = 1 ∧ (BitVec.ofNat 4 level).toNat ≤ 9 ∧
    (BitVec.ofNat 32 (4096 * 2 ^ level)).toNat = 4096 * 2 ^ (BitVec.ofNat 4 level).toNat
  interval_cases level <;> decide

/-- Inserting an offset below 2^56 while a context exists (R144, R229). -/
theorem storeOk_indexInsert {s : State} (h : StoreOk s) (hvalid : s.ctxValid = 1) (k : Key) {off : Nat}
    (hoff : off < 2 ^ 56) : StoreOk (withIndex s (indexInsert s.index k off)) := by
  obtain ⟨hcfg, ⟨hin, hout, hindex, hdraws, hentries⟩, hctx⟩ := h
  refine ⟨hcfg, ⟨hin, hout, sparsePut_wf hindex _ _, hdraws, fun e he => ?_⟩, ?_⟩
  · rcases mem_sparsePut he with rfl | he
    · exact ⟨k.isLt, hoff⟩
    · exact hentries e he
  · rcases hctx with ⟨hzero, _⟩ | hctx
    · simp [hzero] at hvalid
    · exact .inr hctx

/-! ## The result registers -/

/-- What every result of the core satisfies: a sub-reason exactly with MALFORMED_STREAM, and positions
only with it and with OUTPUT_CAPACITY (R332, R334). -/
def ResultConsistent (status : Status) (detail : Detail) (inPos outPos : Nat) : Prop :=
  (status = .malformedStream ↔ detail ≠ .none) ∧
    (status ≠ .outputCapacity → status ≠ .malformedStream → inPos = 0 ∧ outPos = 0)

theorem resultConsistent_plain {status : Status} (h : status ≠ .malformedStream) :
    ResultConsistent status .none 0 0 := by
  simp [ResultConsistent, h]

theorem resultConsistent_malformed {detail : Detail} (h : detail ≠ .none) (inPos outPos : Nat) :
    ResultConsistent .malformedStream detail inPos outPos := by
  simp [ResultConsistent, h]

theorem resultConsistent_outputCapacity (inPos outPos : Nat) :
    ResultConsistent .outputCapacity .none inPos outPos := by
  simp [ResultConsistent]

theorem statusCode_toNat_le (status : Status) : (statusCode status).toNat ≤ 6 := by
  cases status <;> decide

theorem detailCode_toNat_le (detail : Detail) : (detailCode detail).toNat ≤ 4 := by
  cases detail <;> decide

theorem statusCode_eq_three (status : Status) : statusCode status = 3 ↔ status = .outputCapacity := by
  cases status <;> decide

theorem statusCode_eq_four (status : Status) : statusCode status = 4 ↔ status = .malformedStream := by
  cases status <;> decide

theorem detailCode_eq_zero (detail : Detail) : detailCode detail = 0 ↔ detail = .none := by
  cases detail <;> decide

theorem resultOk_withResult (s : State) {status : Status} {detail : Detail} {inPos outPos : Nat}
    (h : ResultConsistent status detail inPos outPos) :
    ResultOk (withResult s status detail inPos outPos) := by
  obtain ⟨hdetail, hpos⟩ := h
  refine ⟨statusCode_toNat_le status, detailCode_toNat_le detail, ?_, fun h3 h4 => ?_⟩
  · exact (statusCode_eq_four status).trans (hdetail.trans (not_congr (detailCode_eq_zero detail)).symm)
  · obtain ⟨rfl, rfl⟩ := hpos (mt (statusCode_eq_three status).mpr h3)
      (mt (statusCode_eq_four status).mpr h4)
    exact ⟨rfl, rfl⟩

/-! ## Ending a command -/

theorem inv_endCommand {s : State} (hs : StoreOk s) {status : Status} {detail : Detail}
    {inPos outPos : Nat} (hr : ResultConsistent status detail inPos outPos) :
    Inv (endCommand (withResult s status detail inPos outPos)) :=
  (inv_iff _).mpr ⟨hs, resultOk_withResult s hr, engineOk_of_idle rfl⟩

theorem inv_raise {s : State} (hs : StoreOk s) (codec : Bool) {r : Raise}
    (hr : ResultConsistent r.status r.detail r.inPos r.outPos) : Inv (raise codec r s) := by
  refine inv_endCommand (storeOk_withBytes ?_ _) hr
  split
  · exact storeOk_scrambleOut hs _
  · exact hs

theorem inv_plainRaise {s : State} (hs : StoreOk s) (codec : Bool) {status : Status}
    (h : status ≠ .malformedStream) : Inv (raise codec (plainRaise status) s) :=
  inv_raise hs codec (resultConsistent_plain h)

theorem inv_raise_outputCapacity {s : State} (hs : StoreOk s) {r : Raise}
    (hstatus : r.status = .outputCapacity) (hdetail : r.detail = .none) : Inv (raise true r s) :=
  inv_raise hs true (by rw [hstatus, hdetail]; exact resultConsistent_outputCapacity _ _)

theorem inv_malformed {s : State} (hs : StoreOk s) {detail : Detail} (h : detail ≠ .none) :
    Inv (malformed detail s) :=
  inv_raise hs true (resultConsistent_malformed h _ _)

theorem inv_overCapacity {s : State} (hs : StoreOk s) : Inv (overCapacity s) :=
  inv_raise_outputCapacity hs rfl rfl

theorem inv_complete {s : State} (hs : StoreOk s) : Inv (complete s) :=
  inv_endCommand hs (resultConsistent_plain (by decide))

theorem inv_completeContext {s : State} (hs : StoreOk s) : Inv (completeContext s) :=
  inv_endCommand hs (resultConsistent_plain (by decide))

/-! ## Moving the cursors -/

/-- Bytes that fit are written at the output cursor (R72). -/
theorem inv_append {s : State} (h : Inv s) {t : List Byte} (hfit : s.work.o + t.length ≤ s.work.cap) :
    Inv (append t s) := by
  obtain ⟨hstore, hresult, hbusy, hcompress, hdecompress⟩ := (inv_iff s).mp h
  refine (inv_iff _).mpr ⟨storeOk_append hstore t, hresult, fun hne => ?_, hcompress, hdecompress⟩
  obtain ⟨hmin, hmax, hcap, _, hwritten⟩ := hbusy hne
  refine ⟨hmin, hmax, hcap, hfit, fun a (ha : a < s.work.o + t.length) => ?_⟩
  show (sparseGet (putBytes s.outMem s.work.o t) a).isSome
  rw [sparseGet_putBytes]
  split
  · simp; omega
  · exact hwritten a (by omega)

/-- The input cursor moves past a token that ends within the input (R264). -/
theorem inv_advance {s : State} (h : Inv s) {size : Nat} (hn : s.work.i + size ≤ s.work.n) :
    Inv (advance size s) := by
  obtain ⟨hstore, hresult, hbusy, hcompress, _⟩ := (inv_iff s).mp h
  exact (inv_iff _).mpr ⟨hstore, hresult, hbusy, hcompress, fun _ => hn⟩

/-- A checked match writes every byte up to its new output cursor (R179, R181). -/
theorem inv_copyMatch {s : State} (h : Inv s) {lc dc len dist : Nat}
    (hn : s.work.i + 1 + lc + dc ≤ s.work.n) (hpos : 1 ≤ dist) (hdist : dist ≤ s.work.o)
    (hfit : s.work.o + len ≤ s.work.cap) : Inv (copyMatch lc dc len dist s) := by
  obtain ⟨hstore, hresult, hbusy, hcompress, _⟩ := (inv_iff s).mp h
  have hout := outMem_wf_of_storeOk hstore
  refine (inv_iff _).mpr ⟨storeOk_withOut hstore (copyBack_wf _ _ _ hout _), hresult,
    fun hne => ?_, hcompress, fun _ => hn⟩
  obtain ⟨hmin, hmax, hcap, _, hwritten⟩ := hbusy hne
  refine ⟨hmin, hmax, hcap, hfit, fun a (ha : a < s.work.o + len) => ?_⟩
  show (sparseGet (copyBack s.outDraws dist s.outMem s.work.o len) a).isSome
  by_cases hlow : a < s.work.o
  · rw [sparseGet_copyBack_outside _ _ _ _ _ _ (.inl hlow)]
    exact hwritten a hlow
  · obtain ⟨j, rfl⟩ := Nat.exists_eq_add_of_le (Nat.le_of_not_lt hlow)
    rw [outByteOf_copyBack _ _ _ hpos _ _ _ hdist (by omega)]
    rfl

/-- A running COMPRESS records the offset its scan stands on (R144, R229, R230). -/
theorem inv_insertAtScan {s : State} (h : Inv s) (hrun : s.engine = .compress)
    (hp : s.work.p < s.work.n) (k : Key) :
    Inv (withIndex s (indexInsert s.index k s.work.p)) := by
  obtain ⟨hstore, hresult, hbusy, hcompress, hdecompress⟩ := (inv_iff s).mp h
  have hnMax := nMax_lt_of_storeOk hstore
  obtain ⟨_, hn, _⟩ := hbusy (by simp [hrun])
  obtain ⟨hvalid, _⟩ := hcompress hrun
  exact (inv_iff _).mpr ⟨storeOk_indexInsert hstore hvalid k (by omega), hresult,
    hbusy, hcompress, hdecompress⟩

/-- The scan cursor moves forward within the input, past a match or past one byte; the pending run
begins at or before it (R33, R229, R230). -/
theorem inv_withScanCursors {s : State} (h : Inv s) {w : Work}
    (hsame : w.n = s.work.n ∧ w.cap = s.work.cap ∧ w.o = s.work.o ∧ w.i = s.work.i)
    (hanchor : s.work.anchor ≤ s.work.p → w.anchor ≤ w.p) (hp : w.p ≤ s.work.n) :
    Inv (withWork s w) := by
  obtain ⟨hstore, hresult, hbusy, hcompress, hdecompress⟩ := (inv_iff s).mp h
  obtain ⟨hn, hcap, ho, hi⟩ := hsame
  refine (inv_iff _).mpr ⟨hstore, hresult, ?_, fun hrun => ?_, ?_⟩
  · simpa [hn, hcap, ho] using hbusy
  · obtain ⟨hvalid, hle, _⟩ := hcompress hrun
    exact ⟨hvalid, hanchor hle, hp.trans_eq hn.symm⟩
  · simpa [hn, hi] using hdecompress

/-! ## The scan of COMPRESS -/

theorem inv_missAt {s : State} (h : Inv s) (hrun : s.engine = .compress) (hp : s.work.p < s.work.n) :
    Inv (missAt s) :=
  inv_withScanCursors (inv_insertAtScan h hrun hp _) ⟨rfl, rfl, rfl, rfl⟩ Nat.le_succ_of_le hp

theorem inv_skipMatch {s : State} (h : Inv s) {ref len : Nat} (hp : s.work.p + len ≤ s.work.n) :
    Inv (skipMatch ref len s) :=
  inv_withScanCursors h ⟨rfl, rfl, rfl, rfl⟩ (fun _ => le_refl _) hp

theorem inv_updateOnHit {s : State} (h : Inv s) (hrun : s.engine = .compress)
    (hp : s.work.p < s.work.n) : Inv (updateOnHit s) := by
  unfold updateOnHit
  split
  · exact inv_insertAtScan h hrun hp _
  · exact h

@[simp] theorem updateOnHit_work (s : State) : (updateOnHit s).work = s.work := by
  unfold updateOnHit
  split <;> rfl

theorem matchLenFrom_le (s : State) (ref p : Nat) : ∀ fuel len : Nat, p + len ≤ s.work.n →
    p + matchLenFrom s ref p fuel len ≤ s.work.n := by
  intro fuel
  induction fuel with
  | zero => intro len h; exact h
  | succ fuel ih =>
    intro len h
    unfold matchLenFrom
    split
    · exact ih (len + 1) (by omega)
    · exact h

/-- A match ends within the input (R226, R234). -/
theorem usableLen_le (ref : Nat) {s : State} (hp : s.work.p ≤ s.work.n) :
    s.work.p + usableLen ref s ≤ s.work.n := by
  unfold usableLen
  split
  · exact hp
  · exact matchLenFrom_le s ref s.work.p _ 0 hp

theorem inv_hitAt {s : State} (h : Inv s) (hrun : s.engine = .compress) (hp : s.work.p < s.work.n)
    {ref len : Nat} (hlen : s.work.p + len ≤ s.work.n) : Inv (hitAt ref len s) := by
  unfold hitAt
  rcases emitHit_cases ref len s with ⟨t, ht, hfit⟩ | ⟨r, hr, hstatus, hdetail⟩
  · rw [ht]
    exact inv_skipMatch (inv_updateOnHit (inv_append h hfit) hrun hp)
      (by rw [updateOnHit_work]; exact hlen)
  · rw [hr]
    exact inv_raise_outputCapacity (storeOk_of_inv h) hstatus hdetail

theorem inv_scanMove {s : State} (h : Inv s) (hrun : s.engine = .compress)
    (hp : s.work.p < s.work.n) : Inv (scanMove s) := by
  unfold scanMove
  split
  · exact inv_missAt (inv_lookupKey h) hrun hp
  · split
    · exact inv_missAt (inv_lookupKey h) hrun hp
    · exact inv_hitAt (inv_lookupKey h) hrun hp (usableLen_le _ hp.le)

theorem inv_flushMove {s : State} (hs : StoreOk s) : Inv (flushMove s) := by
  unfold flushMove
  rcases encLitrun_cases s.work.anchor s.work.n s with ⟨t, ht, _⟩ | ⟨r, hr, hstatus, hdetail⟩
  · rw [ht]
    exact inv_complete (storeOk_append hs t)
  · rw [hr]
    exact inv_raise_outputCapacity hs hstatus hdetail

theorem inv_compressMove {s : State} (h : Inv s) (hrun : s.engine = .compress) :
    Inv (compressMove s) := by
  unfold compressMove
  split
  · have : s.work.p + 4 ≤ s.work.n := ‹_›
    exact inv_scanMove h hrun (by omega)
  · exact inv_flushMove (storeOk_of_inv h)

/-! ## The tokens of DECOMPRESS -/

theorem inv_literalBody {s : State} (h : Inv s) (header len : Nat) : Inv (literalBody header len s) := by
  rcases literalBody_cases header len s with ⟨_, he⟩ | ⟨_, _, he⟩ | ⟨hn, hfit, he⟩
  · rw [he]; exact inv_malformed (storeOk_of_inv h) (by decide)
  · rw [he]; exact inv_overCapacity (storeOk_of_inv h)
  · rw [he]
    exact inv_advance (inv_append h (by simpa using hfit)) (by rw [← Nat.add_assoc]; exact hn)

theorem inv_matchBody {s : State} (h : Inv s) (lc dc : Nat) : Inv (matchBody lc dc s) := by
  rcases matchBody_cases lc dc s with
    ⟨_, he⟩ | ⟨_, _, he⟩ | ⟨_, _, _, _, he⟩ | ⟨hn, hpos, hdist, hfit, he⟩
  · rw [he]; exact inv_malformed (storeOk_of_inv h) (by decide)
  · rw [he]; exact inv_malformed (storeOk_of_inv h) (by decide)
  · rw [he]; exact inv_overCapacity (storeOk_of_inv h)
  · rw [he]; exact inv_copyMatch h hn hpos hdist hfit

/-! ## Starting a command -/

/-- A command whose lengths passed the checks starts with its cursors at 0; COMPRESS has a context
(R221, R223, R260). -/
theorem inv_startCommand {s : State} (h : Inv s) {e : Engine} (hsize : sizeError s = none)
    (hctx : e = .compress → s.ctxValid = 1) : Inv (startCommand e s) := by
  obtain ⟨hstore, hresult, _⟩ := (inv_iff s).mp h
  obtain ⟨hmin, hmax, hcap⟩ := (sizeError_eq_none s).mp hsize
  refine (inv_iff _).mpr
    ⟨hstore, hresult, fun _ => ⟨hmin, hmax, hcap, ?_, ?_⟩, fun he => ?_, fun _ => ?_⟩
  · exact Nat.zero_le _
  · intro a ha; exact absurd ha (Nat.not_lt_zero a)
  · exact ⟨hctx he, le_refl _, Nat.zero_le _⟩
  · exact Nat.zero_le _

theorem inv_clearOnCompress {s : State} (h : Inv s) : Inv (clearOnCompress s) := by
  obtain ⟨hstore, hresult, hengine⟩ := (inv_iff s).mp h
  unfold clearOnCompress
  split
  · exact (inv_iff _).mpr ⟨storeOk_clearIndex hstore, hresult, hengine⟩
  · exact h

@[simp] theorem sizeError_clearOnCompress (s : State) : sizeError (clearOnCompress s) = sizeError s := by
  unfold clearOnCompress
  split <;> rfl

@[simp] theorem clearOnCompress_ctxValid (s : State) : (clearOnCompress s).ctxValid = s.ctxValid := by
  unfold clearOnCompress
  split <;> rfl

theorem compressStartError_eq_none (s : State) :
    compressStartError s = none ↔ s.ctxValid ≠ 0 ∧ sizeError s = none := by
  unfold compressStartError
  split
  · simp [*]
  · simp only [*, ne_eq, not_false_eq_true, true_and]

theorem compressStartError_eq_some {s : State} {r : Raise} (h : compressStartError s = some r) :
    r = plainRaise .noContext ∨ r = plainRaise .invalidParam := by
  unfold compressStartError at h
  split at h
  · exact .inl (Option.some.inj h).symm
  · exact .inr (sizeError_eq_some h)

/-! ## Every instruction -/

/-- Where there is a next state, it meets the invariant. -/
def NextInv (r : Host.Outcome State Fault Refusal) : Prop := ∀ t, r = .next t → Inv t

theorem nextInv_next {s : State} (h : Inv s) : NextInv (.next s) := by
  rintro t ⟨⟩
  exact h

theorem nextInv_fault (r : Fault) : NextInv (.fault r) := by rintro t ⟨⟩

theorem nextInv_refused (r : Refusal) : NextInv (.refused r) := by rintro t ⟨⟩

theorem nextInv_execLit1 {s : State} (h : Inv s) (lenHi : Nat) : NextInv (execLit1 lenHi s) := by
  unfold execLit1
  split
  · exact nextInv_next (inv_malformed (storeOk_of_inv h) (by decide))
  · exact nextInv_next (inv_literalBody h _ _)

theorem nextInv_execLit2 {s : State} (h : Inv s) (lenHi : Nat) : NextInv (execLit2 lenHi s) := by
  unfold execLit2
  split
  · exact nextInv_next (inv_malformed (storeOk_of_inv h) (by decide))
  · exact nextInv_next (inv_literalBody h _ _)

theorem nextInv_execMatch10 {s : State} (h : Inv s) (lc dc : Nat) : NextInv (execMatch10 lc dc s) := by
  unfold execMatch10
  split
  · exact nextInv_next (inv_malformed (storeOk_of_inv h) (by decide))
  · exact nextInv_next (inv_matchBody h lc dc)

theorem nextInv_execCreateContext {s : State} (hs : StoreOk s) : NextInv (execCreateContext s) := by
  unfold execCreateContext
  split
  · exact nextInv_next (inv_plainRaise (storeOk_dropContext hs) false (by decide))
  · exact nextInv_next (inv_completeContext (storeOk_installContext hs (by omega)))

theorem nextInv_execResetIndex {s : State} (hs : StoreOk s) : NextInv (execResetIndex s) := by
  unfold execResetIndex
  split
  · exact nextInv_next (inv_plainRaise hs false (by decide))
  · exact nextInv_next (inv_completeContext (storeOk_clearIndex hs))

theorem nextInv_execCompress {s : State} (h : Inv s) : NextInv (execCompress s) := by
  have hs := storeOk_of_inv h
  unfold execCompress
  split
  · rcases compressStartError_eq_some ‹_› with rfl | rfl
    · exact nextInv_next (inv_plainRaise hs true (by decide))
    · exact nextInv_next (inv_plainRaise hs true (by decide))
  · obtain ⟨hvalid, hsize⟩ := (compressStartError_eq_none s).mp ‹_›
    refine nextInv_next (inv_startCommand (inv_clearOnCompress h) ?_ fun _ => ?_)
    · rwa [sizeError_clearOnCompress]
    · rw [clearOnCompress_ctxValid]
      exact ctxValid_eq_one hs hvalid

theorem nextInv_execDecompress {s : State} (h : Inv s) : NextInv (execDecompress s) := by
  unfold execDecompress
  split
  next _ hr =>
    rw [sizeError_eq_some hr]
    exact nextInv_next (inv_plainRaise (storeOk_of_inv h) true (by decide))
  next hsize => exact nextInv_next (inv_startCommand h hsize (by simp))

/-- Every instruction keeps the invariant, whatever the engine runs. -/
theorem nextInv_exec {s : State} (h : Inv s) (i : Instr) : NextInv (exec i s) := by
  have hs := storeOk_of_inv h
  cases i with
  | lit0 len => exact nextInv_next (inv_literalBody h 1 len)
  | lit1 lenHi => exact nextInv_execLit1 h lenHi
  | lit2 lenHi => exact nextInv_execLit2 h lenHi
  | lit3 _ => exact nextInv_next (inv_malformed hs (by decide))
  | match10 lc dc => exact nextInv_execMatch10 h lc dc
  | matchRef lc dc => exact nextInv_next (inv_matchBody h lc dc)
  | createContext => exact nextInv_execCreateContext hs
  | destroyContext => exact nextInv_next (inv_completeContext (storeOk_dropContext hs))
  | resetIndex => exact nextInv_execResetIndex hs
  | compress => exact nextInv_execCompress h
  | decompress => exact nextInv_execDecompress h

/-! ## Every move -/

theorem nextInv_engineMove {s : State} (h : Inv s) : NextInv (engineMove s) := by
  unfold engineMove
  split
  · exact nextInv_next h
  · exact nextInv_next (inv_compressMove h ‹_›)
  · unfold decompressMove
    split
    · exact nextInv_exec (inv_latchHeader h) _
    · exact nextInv_next (inv_complete (storeOk_of_inv h))

theorem engine_idle_of_busyBit {s : State} (h : busyBit s ≠ 1) : s.engine = .idle := by
  unfold busyBit at h
  split at h
  · assumption
  · exact absurd rfl h
  · exact absurd rfl h

/-- While no command runs the invariant is `StoreOk` and `ResultOk`. -/
theorem inv_of_idle {s : State} (hidle : s.engine = .idle) (hs : StoreOk s) (hr : ResultOk s) : Inv s :=
  (inv_iff s).mpr ⟨hs, hr, engineOk_of_idle hidle⟩

theorem nextInv_issueCommand {s : State} (h : Inv s) (hidle : s.engine = .idle) (code : Byte) :
    NextInv (issueCommand code s) := by
  unfold issueCommand
  split
  · exact nextInv_exec h _
  · have hs := storeOk_of_inv h
    exact nextInv_next (inv_of_idle hidle hs
      (resultOk_withResult s (resultConsistent_plain (by decide))))

theorem inv_writeRegister {s : State} (h : Inv s) (reg : BitVec 8) (value : Word) :
    Inv (writeRegister reg value s) := by
  unfold writeRegister
  split
  · exact h
  · exact h
  · exact h
  · exact h

theorem nextInv_hostWrite {s : State} (h : Inv s) (reg : BitVec 8) (value : Word) :
    NextInv (hostWrite reg value s) := by
  unfold hostWrite
  split
  · split
    · exact nextInv_next h
    · exact nextInv_issueCommand h (engine_idle_of_busyBit ‹_›) _
  · split
    · split
      · exact nextInv_refused _
      · exact nextInv_next (inv_writeRegister h reg value)
    · exact nextInv_next h

theorem inv_hostReadOut {s : State} (h : Inv s) (offset : Word) : Inv (hostReadOut offset s) := by
  unfold hostReadOut
  split
  · exact inv_withHostData h _
  · exact inv_freeRead h _
  · exact inv_freeRead h _

theorem inv_resetEvent {s : State} (hs : StoreOk s) : Inv (resetEvent s) := by
  obtain ⟨hcfg, ⟨hin, hout, _, hdraws, _⟩, _⟩ := storeOk_abandon hs
  refine inv_of_idle rfl ⟨hcfg, ⟨hin, hout, .nil, hdraws, ?_⟩, .inl ⟨rfl, rfl, rfl, rfl⟩⟩ ?_
  · exact fun e he => absurd he List.not_mem_nil
  · exact resultOk_withResult s (resultConsistent_plain (status := .ok) (by decide))

theorem nextInv_hostMove {s : State} (h : Inv s) (a : HostAction) (rest : List HostAction) :
    NextInv (hostMove a rest s) := by
  have hh : Inv (withHost s rest) := inv_withHost h rest
  have hs := storeOk_of_inv hh
  have hresult := resultOk_of_inv hh
  cases a with
  | write reg value => exact nextInv_hostWrite hh reg value
  | read reg => exact nextInv_next (inv_withHostData hh _)
  | writeIn offset value =>
    simp only [hostMove]
    split
    · exact nextInv_fault _
    · exact nextInv_next (inv_of_idle (engine_idle_of_busyBit ‹_›)
        (storeOk_withIn hs (sparsePut_wf (inMem_wf_of_storeOk hs) _ _)) hresult)
  | writeOut offset value =>
    simp only [hostMove]
    split
    · exact nextInv_refused _
    · exact nextInv_next (inv_of_idle (engine_idle_of_busyBit ‹_›)
        (storeOk_withOut hs (sparsePut_wf (outMem_wf_of_storeOk hs) _ _)) hresult)
  | readOut offset => exact nextInv_next (inv_hostReadOut hh offset)
  | readIn offset => exact nextInv_next (inv_withHostData hh _)
  | waitIdle =>
    simp only [hostMove]
    split
    · exact nextInv_engineMove h
    · exact nextInv_next (inv_withHostData hh _)
  | letRun => exact nextInv_engineMove hh
  | reset => exact nextInv_next (inv_resetEvent hs)

theorem nextInv_step {s : State} (h : Inv s) : NextInv (step s) := by
  unfold step
  split
  · exact nextInv_engineMove h
  · exact nextInv_hostMove h _ _

/-- Settles O59: a step is a move of the engine or of the host, and each of them keeps the invariant. -/
theorem stepKeepsTheCoreInvariant : Obligations.StepKeepsTheCoreInvariant := by
  unfold Obligations.StepKeepsTheCoreInvariant
  exact fun s t h ht => nextInv_step h t ht

/-- Settles O60: the spaces, the context and the results are empty or 0 after reset, and no command runs. -/
theorem resetMeetsTheCoreInvariant : Obligations.ResetMeetsTheCoreInvariant := by
  unfold Obligations.ResetMeetsTheCoreInvariant
  obtain ⟨hin, hout, hindex, hdraws⟩ := reset_spaces_wf
  refine inv_of_idle rfl ⟨by decide, ⟨hin, hout, hindex, hdraws, ?_⟩, .inl ⟨rfl, rfl, rfl, rfl⟩⟩
    (by decide)
  exact fun e he => absurd he List.not_mem_nil

end Sys2Proof.Machine
end

section
/-! What an engine move does: it waits, ends the command, or runs on. The inversion lemma
`engineMoved_of_engineMove` says so once, and the statements about every move are read off it. -/

namespace Sys2Proof.Machine

/-! ## The end of a command -/

/-- `t` is `s` with a command ended: the result registers and OUT may be written, BUSY is 0, the working
registers are discarded, and everything else is as it was (R308, R338, R339). -/
def CommandEnds (s t : State) : Prop :=
  ∃ m d draws status detail bytes inPos outPos, t = { s with
    outMem := m
    outDraws := d
    draws := draws
    status := status
    detail := detail
    bytesWritten := bytes
    errInPos := inPos
    errOutPos := outPos
    engine := .idle
    work := Work.idle }

theorem commandEnds_raise (codec : Bool) (r : Raise) (s : State) : CommandEnds s (raise codec r s) := by
  unfold raise
  split
  · exact ⟨_, _, _, _, _, _, _, _, rfl⟩
  · exact ⟨_, _, _, _, _, _, _, _, rfl⟩

theorem commandEnds_malformed (d : Detail) (s : State) : CommandEnds s (malformed d s) :=
  commandEnds_raise ..

theorem commandEnds_overCapacity (s : State) : CommandEnds s (overCapacity s) := commandEnds_raise ..

theorem commandEnds_complete (s : State) : CommandEnds s (complete s) := ⟨_, _, _, _, _, _, _, _, rfl⟩

theorem commandEnds_completeContext (s : State) : CommandEnds s (completeContext s) :=
  ⟨_, _, _, _, _, _, _, _, rfl⟩

/-- The end of a command hides what was written to OUT and to the working registers before it. -/
theorem commandEnds_of_withWork_withOut {s t : State} {m : Memory} {w : Work}
    (h : CommandEnds (withWork (withOut s m) w) t) : CommandEnds s t := h

theorem commandEnds_of_withWork {s t : State} {w : Work} (h : CommandEnds (withWork s w) t) :
    CommandEnds s t := h

theorem engine_of_commandEnds {s t : State} (h : CommandEnds s t) : t.engine = .idle := by
  obtain ⟨_, _, _, _, _, _, _, _, rfl⟩ := h
  rfl

/-! ## What an engine move can do -/

/-- The working registers `w` after a move of a command that goes on: `n` is kept, and the cursor of
the command has moved forward within the input (R33, R235, R264). -/
def CursorAdvances (s : State) (w : Work) : Prop :=
  w.n = s.work.n ∧
    (s.engine = .decompress → s.work.i < w.i ∧ w.i ≤ s.work.n) ∧
    (s.engine = .compress → s.work.p < w.p ∧ w.p ≤ s.work.n)

/-- All that a move of the engine can do to a state. -/
inductive EngineMoved (s : State) : State → Prop where
  /-- No command runs, and nothing changes (R349, R371). -/
  | waited (hidle : s.engine = .idle) : EngineMoved s s
  /-- The command ended, with OK or with an error. -/
  | ended {t : State} (hend : CommandEnds s t) : EngineMoved s t
  /-- The command goes on; only COMPRESS writes the index (R148). -/
  | ranOn (x : Index) (m : Memory) (w : Work) (hcursor : CursorAdvances s w)
      (hindex : s.engine = .compress ∨ x = s.index) :
      EngineMoved s (withWork (withOut (withIndex s x) m) w)

/-! ## The tokens of DECOMPRESS -/

/-- What executing a token does: it ends the command, or writes OUT and moves the input cursor forward
within the input (R264). -/
def TokenRan (s t : State) : Prop :=
  CommandEnds s t ∨
    ∃ m w, t = withWork (withOut s m) w ∧ w.n = s.work.n ∧ s.work.i < w.i ∧ w.i ≤ s.work.n

theorem tokenRan_malformed (d : Detail) (s : State) : TokenRan s (malformed d s) :=
  .inl (commandEnds_malformed d s)

theorem tokenRan_literalBody {header : Nat} (hheader : 0 < header) (len : Nat) (s : State) :
    TokenRan s (literalBody header len s) := by
  rcases literalBody_cases header len s with ⟨_, he⟩ | ⟨_, _, he⟩ | ⟨hn, _, he⟩
  · rw [he]; exact tokenRan_malformed _ s
  · rw [he]; exact .inl (commandEnds_overCapacity s)
  · rw [he]
    refine .inr ⟨_, _, rfl, rfl, ?_, ?_⟩
    · show s.work.i < s.work.i + (header + len)
      omega
    · show s.work.i + (header + len) ≤ s.work.n
      omega

theorem tokenRan_matchBody (lc dc : Nat) (s : State) : TokenRan s (matchBody lc dc s) := by
  rcases matchBody_cases lc dc s with
    ⟨_, he⟩ | ⟨_, _, he⟩ | ⟨_, _, _, _, he⟩ | ⟨hn, _, _, _, he⟩
  · rw [he]; exact tokenRan_malformed _ s
  · rw [he]; exact tokenRan_malformed _ s
  · rw [he]; exact .inl (commandEnds_overCapacity s)
  · rw [he]
    refine .inr ⟨_, _, rfl, rfl, ?_, hn⟩
    show s.work.i < s.work.i + 1 + lc + dc
    omega

theorem tokenRan_of_exec {i : Instr} (hi : i.isToken = true) {s t : State} (h : exec i s = .next t) :
    TokenRan s t := by
  cases i with
  | lit0 len =>
    cases h
    exact tokenRan_literalBody (by decide) len s
  | lit1 lenHi =>
    simp only [exec, execLit1] at h
    split at h
    · cases h; exact tokenRan_malformed _ s
    · cases h; exact tokenRan_literalBody (by decide) _ s
  | lit2 lenHi =>
    simp only [exec, execLit2] at h
    split at h
    · cases h; exact tokenRan_malformed _ s
    · cases h; exact tokenRan_literalBody (by decide) _ s
  | lit3 low =>
    cases h
    exact tokenRan_malformed _ s
  | match10 lc dc =>
    simp only [exec, execMatch10] at h
    split at h
    · cases h; exact tokenRan_malformed _ s
    · cases h; exact tokenRan_matchBody lc dc s
  | matchRef lc dc =>
    cases h
    exact tokenRan_matchBody lc dc s
  | createContext => cases hi
  | destroyContext => cases hi
  | resetIndex => cases hi
  | compress => cases hi
  | decompress => cases hi

/-- No header byte is a command (R112). -/
theorem isToken_decodeHeader (h : Byte) : (decodeHeader h).isToken = true := by
  unfold decodeHeader
  split
  · split <;> rfl
  · split <;> rfl

theorem engineMoved_of_decompressMove {s t : State} (hrun : s.engine = .decompress)
    (h : decompressMove s = .next t) : EngineMoved s t := by
  unfold decompressMove at h
  split at h
  · rcases tokenRan_of_exec (isToken_decodeHeader _) h with hend | ⟨m, w, rfl, hn, hlt, hle⟩
    · exact .ended (commandEnds_of_withWork hend)
    · exact .ranOn s.index m w ⟨hn, fun _ => ⟨hlt, hle⟩, by simp [hrun]⟩ (.inr rfl)
  · cases h
    exact .ended (commandEnds_complete s)

/-! ## The scan of COMPRESS -/

theorem engineMoved_missAt {s : State} (hrun : s.engine = .compress) (hp : s.work.p < s.work.n) :
    EngineMoved s (missAt (lookupKey s)) :=
  .ranOn _ s.outMem _ ⟨rfl, by simp [hrun], fun _ => ⟨Nat.lt_succ_self _, hp⟩⟩ (.inl hrun)

theorem updateOnHit_eq_withIndex (s : State) : ∃ x, updateOnHit s = withIndex s x := by
  unfold updateOnHit
  split
  · exact ⟨_, rfl⟩
  · exact ⟨s.index, rfl⟩

theorem engineMoved_hitAt {s : State} (hrun : s.engine = .compress) {len : Nat} (hpos : 0 < len)
    (hlen : s.work.p + len ≤ s.work.n) (ref : Nat) : EngineMoved s (hitAt ref len (lookupKey s)) := by
  unfold hitAt
  rcases emitHit_cases ref len (lookupKey s) with ⟨t, ht, _⟩ | ⟨r, hr, _⟩
  · rw [ht]
    obtain ⟨x, hx⟩ := updateOnHit_eq_withIndex (append t (lookupKey s))
    simp only [hx]
    exact .ranOn x _ _ ⟨rfl, by simp [hrun], fun _ => ⟨Nat.lt_add_of_pos_right hpos, hlen⟩⟩ (.inl hrun)
  · rw [hr]
    exact .ended (commandEnds_of_withWork (commandEnds_raise true r _))

theorem engineMoved_scanMove {s : State} (hrun : s.engine = .compress) (hp : s.work.p < s.work.n) :
    EngineMoved s (scanMove s) := by
  unfold scanMove
  split
  · exact engineMoved_missAt hrun hp
  next ref _ =>
    split
    · exact engineMoved_missAt hrun hp
    · exact engineMoved_hitAt hrun (Nat.pos_of_ne_zero ‹_›) (usableLen_le ref hp.le) ref

theorem engineMoved_flushMove (s : State) : EngineMoved s (flushMove s) := by
  unfold flushMove
  rcases encLitrun_cases s.work.anchor s.work.n s with ⟨t, ht, _⟩ | ⟨r, hr, _⟩
  · rw [ht]
    exact .ended (commandEnds_of_withWork_withOut (commandEnds_complete (append t s)))
  · rw [hr]
    exact .ended (commandEnds_raise true r s)

theorem engineMoved_compressMove {s : State} (hrun : s.engine = .compress) :
    EngineMoved s (compressMove s) := by
  unfold compressMove
  split
  · have hfour : s.work.p + 4 ≤ s.work.n := ‹_›
    exact engineMoved_scanMove hrun (by omega)
  · exact engineMoved_flushMove s

theorem engineMoved_of_engineMove {s t : State} (h : engineMove s = .next t) : EngineMoved s t := by
  unfold engineMove at h
  split at h
  next hidle => cases h; exact .waited hidle
  next hrun => cases h; exact engineMoved_compressMove hrun
  next hrun => exact engineMoved_of_decompressMove hrun h

/-! ## Statements about every move -/

/-- Settles O49: a move writes at most the result registers, OUT, the index, BUSY and the working
registers. -/
theorem engineMoveLeavesInputsAndContext : Obligations.EngineMoveLeavesInputsAndContext := by
  unfold Obligations.EngineMoveLeavesInputsAndContext
  intro s t h
  cases engineMoved_of_engineMove h with
  | waited _ => simp
  | ended hend =>
    obtain ⟨_, _, _, _, _, _, _, _, rfl⟩ := hend
    simp
  | ranOn x m w _ _ => simp

/-- A move after which a command runs is one of a command that goes on. -/
theorem ranOn_of_engineMove {s t : State} (h : engineMove s = .next t) (hbusy : t.engine ≠ .idle) :
    ∃ x m w, t = withWork (withOut (withIndex s x) m) w ∧ CursorAdvances s w := by
  cases engineMoved_of_engineMove h with
  | waited hidle => exact absurd hidle hbusy
  | ended hend => exact absurd (engine_of_commandEnds hend) hbusy
  | ranOn x m w hcursor _ => exact ⟨x, m, w, rfl, hcursor⟩

/-- Settles O51: a token has at least its header byte, a miss moves `p` by 1, and a usable match has a
positive length that ends within the input. -/
theorem cursorsAdvanceWithEveryMove : Obligations.CursorsAdvanceWithEveryMove := by
  unfold Obligations.CursorsAdvanceWithEveryMove
  intro s t h hbusy
  obtain ⟨x, m, w, rfl, hcursor⟩ := ranOn_of_engineMove h hbusy
  exact ⟨rfl, hcursor⟩

/-- Settles O54: only the end of a command writes a result register. -/
theorem resultRegistersHoldWhileBusy : Obligations.ResultRegistersHoldWhileBusy := by
  unfold Obligations.ResultRegistersHoldWhileBusy
  intro s t h hbusy
  obtain ⟨x, m, w, rfl, _⟩ := ranOn_of_engineMove h hbusy
  simp

end Sys2Proof.Machine
end

section
/-! The transactions of the host: the next step when one is pending, and what it reads and writes. -/

namespace Sys2Proof.Machine

theorem step_of_host_nil {s : State} (h : s.host = []) : step s = engineMove s := by
  simp only [step, h]

theorem step_of_host_cons {s : State} {a : HostAction} {rest : List HostAction} (h : s.host = a :: rest) :
    step s = hostMove a rest s := by
  simp only [step, h]

/-! ## BUSY -/

theorem busyBit_eq_zero_iff (s : State) : busyBit s = 0 ↔ s.engine = .idle := by
  unfold busyBit
  split
  · simp [*]
  · simp [*]
  · simp [*]

theorem busyBit_eq_zero_of_ne_one {s : State} (h : busyBit s ≠ 1) : busyBit s = 0 :=
  (busyBit_eq_zero_iff s).mpr (engine_idle_of_busyBit h)

theorem busyBit_ne_one_of_eq_zero {s : State} (h : busyBit s = 0) : busyBit s ≠ 1 := by simp [h]

/-! ## Writing registers -/

theorem isArgument_eq_false_iff (reg : BitVec 8) :
    isArgument reg = false ↔ reg ≠ 1 ∧ reg ≠ 2 ∧ reg ≠ 3 := by
  simp [isArgument, ← BitVec.toNat_inj, and_assoc]

/-- A register write stores the value in the ARG register it names, if any (R34, R36 to R38). -/
theorem writeRegister_eq (reg : BitVec 8) (value : Word) (s : State) :
    writeRegister reg value s = { s with
      argLevel := if reg = 1 then value.setWidth 32 else s.argLevel
      argInLen := if reg = 2 then value else s.argInLen
      argOutCap := if reg = 3 then value else s.argOutCap } := by
  have hreg (k : BitVec 8) : reg = k ↔ reg.toNat = k.toNat := BitVec.toNat_inj.symm
  unfold writeRegister
  split <;> simp_all

theorem writeRegister_of_not_isArgument {reg : BitVec 8} (h : isArgument reg = false) (value : Word)
    (s : State) : writeRegister reg value s = s := by
  obtain ⟨h1, h2, h3⟩ := (isArgument_eq_false_iff reg).mp h
  rw [writeRegister_eq, if_neg h1, if_neg h2, if_neg h3]

theorem hostWrite_cmd_of_idle {s : State} (h : busyBit s = 0) (value : Word) :
    hostWrite 0 value s = issueCommand (value.setWidth 8) s := by
  rw [hostWrite, if_pos rfl, if_neg (busyBit_ne_one_of_eq_zero h)]

theorem hostWrite_cmd_of_busy {s : State} (h : busyBit s = 1) (value : Word) :
    hostWrite 0 value s = .next s := by
  rw [hostWrite, if_pos rfl, if_pos h]

theorem hostWrite_of_not_isArgument {reg : BitVec 8} (h0 : reg ≠ 0) (h : isArgument reg = false)
    (value : Word) (s : State) : hostWrite reg value s = .next s := by
  rw [hostWrite, if_neg h0, if_neg (by simp [h])]

theorem hostWrite_of_idle {reg : BitVec 8} (h0 : reg ≠ 0) {s : State} (h : busyBit s = 0)
    (value : Word) : hostWrite reg value s = .next (writeRegister reg value s) := by
  by_cases harg : isArgument reg = true
  · rw [hostWrite, if_neg h0, if_pos harg, if_neg (busyBit_ne_one_of_eq_zero h)]
  · rw [Bool.not_eq_true] at harg
    rw [hostWrite_of_not_isArgument h0 harg, writeRegister_of_not_isArgument harg]

/-- A write of a register other than CMD that goes on is a register write or changes nothing. -/
theorem hostWrite_eq_next {reg : BitVec 8} (h0 : reg ≠ 0) {value : Word} {s t : State}
    (h : hostWrite reg value s = .next t) : t = s ∨ t = writeRegister reg value s := by
  by_cases hidle : busyBit s = 0
  · rw [hostWrite_of_idle h0 hidle] at h
    cases h; exact .inr rfl
  · have hbusy : busyBit s = 1 := not_ne_iff.mp (mt busyBit_eq_zero_of_ne_one hidle)
    rw [hostWrite, if_neg h0, if_pos hbusy] at h
    split at h
    · cases h
    · cases h; exact .inl rfl

/-- Settles O15: while BUSY is 0 a write is a register write; outside the ARG registers it does nothing. -/
theorem registerWriteChangesOnlyArguments : Obligations.RegisterWriteChangesOnlyArguments := by
  unfold Obligations.RegisterWriteChangesOnlyArguments
  intro s reg value rest hhost h0
  have hstep : step s = hostWrite reg value (withHost s rest) := step_of_host_cons hhost
  refine ⟨fun hidle => ?_, fun h1 h2 h3 => ?_⟩
  · rw [hstep, hostWrite_of_idle (s := withHost s rest) h0 hidle, writeRegister_eq]
    rfl
  · rw [hstep, hostWrite_of_not_isArgument h0 ((isArgument_eq_false_iff reg).mpr ⟨h1, h2, h3⟩)]
    rfl

/-- Settles O21: an accepted CMD write is `exec` of the command its low 8 bits decode to. -/
theorem cmdWriteRunsTheCommand : Obligations.CmdWriteRunsTheCommand := by
  unfold Obligations.CmdWriteRunsTheCommand
  intro s value rest i hhost hidle hdecode
  have hstep : step s = hostWrite 0 value (withHost s rest) := step_of_host_cons hhost
  rw [hstep, hostWrite_cmd_of_idle (s := withHost s rest) hidle, issueCommand, hdecode]
  rfl

/-- Settles O23: a CMD write is not accepted while BUSY is 1. -/
theorem cmdWriteWhileBusyIsIgnored : Obligations.CmdWriteWhileBusyIsIgnored := by
  unfold Obligations.CmdWriteWhileBusyIsIgnored
  intro s value rest hhost hbusy
  have hstep : step s = hostWrite 0 value (withHost s rest) := step_of_host_cons hhost
  rw [hstep, hostWrite_cmd_of_busy (s := withHost s rest) hbusy]
  rfl

/-! ## Reading registers -/

/-- The register map of R34, by register indices in place of their numbers. -/
theorem readRegister_eq (s : State) (reg : BitVec 8) :
    readRegister s reg =
      if reg = 1 then s.argLevel.setWidth 64
      else if reg = 2 then s.argInLen
      else if reg = 3 then s.argOutCap
      else if reg = 4 then s.status.setWidth 64
      else if reg = 5 then s.detail.setWidth 64
      else if reg = 6 then s.bytesWritten
      else if reg = 7 then s.errInPos
      else if reg = 8 then s.errOutPos
      else if reg = 9 then s.ctxValid.setWidth 64
      else if reg = 10 then s.ctxLevel.setWidth 64
      else if reg = 11 then s.ctxWindow.setWidth 64
      else if reg = 12 then (busyBit s).setWidth 64
      else 0 := by
  have hreg (k : BitVec 8) : reg = k ↔ reg.toNat = k.toNat := BitVec.toNat_inj.symm
  unfold readRegister
  split <;> simp_all

/-- Settles O14: a register read returns `readRegister` and takes the transaction. -/
theorem registerReadReturnsItsValue : Obligations.RegisterReadReturnsItsValue := by
  unfold Obligations.RegisterReadReturnsItsValue
  intro s reg rest hhost
  rw [← readRegister_eq]
  exact step_of_host_cons hhost

/-- Settles O12: each register of `State.reset` is 0, and its index is the cleared one. -/
theorem resetValuesHold : Obligations.ResetValuesHold := by
  unfold Obligations.ResetValuesHold
  exact ⟨rfl, rfl, rfl, rfl, rfl, rfl, rfl, rfl, rfl, indexLookup_clear⟩

/-! ## The bytes of IN and OUT -/

theorem inByte_sparsePut (s : State) (offset a : Nat) (value : Byte) :
    inByte { s with inMem := sparsePut s.inMem offset value } a
      = if a = offset then value else inByte s a := by
  simp only [inByte, sparseGet_sparsePut]
  split <;> rfl

theorem outByte_sparsePut (s : State) (offset a : Nat) (value : Byte) :
    outByte { s with outMem := sparsePut s.outMem offset value } a
      = if a = offset then value else outByte s a := by
  simp only [outByte, outByteOf, sparseGet_sparsePut]
  split <;> rfl

/-- Settles O16: while BUSY is 0 a host write of IN or OUT is one `sparsePut`. -/
theorem hostWritesOneByteOfASpace : Obligations.HostWritesOneByteOfASpace := by
  unfold Obligations.HostWritesOneByteOfASpace
  intro s offset value rest hidle
  have hne : busyBit s ≠ 1 := busyBit_ne_one_of_eq_zero hidle
  refine ⟨fun hhost => ⟨sparsePut s.inMem offset.toNat value, ?_, fun a => inByte_sparsePut ..⟩,
    fun hhost => ⟨sparsePut s.outMem offset.toNat value, ?_, fun a => outByte_sparsePut ..⟩⟩
  · rw [step_of_host_cons hhost, hostMove, if_neg hne]
    rfl
  · rw [step_of_host_cons hhost, hostMove, if_neg hne]
    rfl

theorem hostReadOut_of_idle {s : State} (h : busyBit s = 0) (offset : Word) :
    hostReadOut offset s = withHostData s ((outByte s offset.toNat).setWidth 64) := by
  simp only [hostReadOut, (busyBit_eq_zero_iff s).mp h]

theorem hostReadOut_of_busy {s : State} (h : busyBit s = 1) (offset : Word) :
    hostReadOut offset s = freeRead offset s := by
  unfold hostReadOut
  split
  next hidle => simp [(busyBit_eq_zero_iff s).mpr hidle] at h
  · rfl
  · rfl

/-- Settles O17: a read of OUT is a plain one while BUSY is 0 and a free one while it is 1; a read of IN
is always a plain one. -/
theorem hostReadsOneByteOfOut : Obligations.HostReadsOneByteOfOut := by
  unfold Obligations.HostReadsOneByteOfOut
  intro s offset rest
  refine ⟨fun hhost => ?_, fun hhost => step_of_host_cons hhost⟩
  have hstep : step s = .next (hostReadOut offset (withHost s rest)) := step_of_host_cons hhost
  refine ⟨fun hidle => ?_, fun hbusy => ⟨s.draws, ?_⟩⟩
  · rw [hstep, hostReadOut_of_idle (s := withHost s rest) hidle]
    rfl
  · rw [hstep, hostReadOut_of_busy (s := withHost s rest) hbusy]
    rfl

/-! ## The token at the input cursor -/

/-- Bit 7 is 0 below 128, and bits 6:5 are then the quotient by 32 (R102). -/
theorem classOf_eq (h : Byte) (old : Option (BitVec 2)) :
    classOf h old = if h.toNat < 128 then some (BitVec.ofNat 2 (h.toNat / 32)) else old := by
  have hlt : h.toNat < 256 := h.isLt
  have hbit : bits h 7 1 = 0 ↔ h.toNat < 128 := by
    simp only [bits]; omega
  have hcls : BitVec.ofNat 2 (bits h 5 2) = BitVec.ofNat 2 (h.toNat / 32) :=
    BitVec.eq_of_toNat_eq (by simp [bits])
  simp only [classOf, hbit, hcls]

theorem inBytes_succ (s : State) (a count : Nat) :
    inBytes s a (count + 1) = inByte s a :: inBytes s (a + 1) count := by
  rw [Nat.add_comm, inBytes_split]
  rfl

/-- Settles O19: the bytes at the cursor begin with the header, which is what a move decodes. -/
theorem stepRunsTheTokenAtTheCursor : Obligations.StepRunsTheTokenAtTheCursor := by
  unfold Obligations.StepRunsTheTokenAtTheCursor
  intro s i rest hhost hrun hlt hdecode
  obtain ⟨k, hk⟩ := Nat.exists_eq_add_one.mpr (Nat.sub_pos_of_lt hlt)
  have hi : decodeHeader (headerAt s) = i := by
    rw [hk, inBytes_succ] at hdecode
    cases hdecode
    rfl
  have hstep : step s = exec i (latchHeader s) := by
    rw [step_of_host_nil hhost, engineMove, hrun]
    simp only [decompressMove, if_pos hlt, hi]
  rw [hstep, latchHeader, classOf_eq]
  rfl

end Sys2Proof.Machine
end

section
/-! What lasts in the core, over every step of every kind: the parameters, the context registers, INDEX
and IN. One inversion lemma, `lastingStep_of_step`, names all that can write them. -/

namespace Sys2Proof.Machine

/-- What outlives a command and a host transaction: the parameters, the context registers, the index and
IN (R44 to R46, R49, R50, R55). -/
structure Lasting where
  cfg : Config
  ctxValid : BitVec 1
  ctxLevel : BitVec 4
  ctxWindow : BitVec 32
  index : Index
  inMem : Memory

/-- The part of the state that lasts. -/
def lasting (s : State) : Lasting := ⟨s.cfg, s.ctxValid, s.ctxLevel, s.ctxWindow, s.index, s.inMem⟩

theorem lasting_of_commandEnds {s t : State} (h : CommandEnds s t) : lasting t = lasting s := by
  obtain ⟨_, _, _, _, _, _, _, _, rfl⟩ := h
  rfl

theorem lasting_withHost (s : State) (q : List HostAction) : lasting (withHost s q) = lasting s := rfl

theorem lasting_writeRegister (reg : BitVec 8) (value : Word) (s : State) :
    lasting (writeRegister reg value s) = lasting s := by
  rw [writeRegister_eq]
  rfl

theorem lasting_hostReadOut (offset : Word) (s : State) : lasting (hostReadOut offset s) = lasting s := by
  unfold hostReadOut
  split <;> rfl

theorem lasting_abandon (s : State) : lasting (abandon s) = lasting s := by
  unfold abandon
  split <;> rfl

theorem lasting_resetEvent (s : State) :
    lasting (resetEvent s) = ⟨s.cfg, 0, 0, 0, [], s.inMem⟩ :=
  congrArg (fun x : Lasting => (⟨x.cfg, 0, 0, 0, [], x.inMem⟩ : Lasting)) (lasting_abandon s)

/-! ## Commands -/

/-- All that a command can do to what lasts. -/
inductive CommandLasting (i : Instr) (x : Lasting) : Lasting → Prop where
  | kept : CommandLasting i x x
  /-- RESET_INDEX and COMPRESS clear the index (R222, R304). -/
  | clearedIndex (hi : i ≠ .decompress) : CommandLasting i x { x with index := [] }
  /-- A context is made or dropped (R300, R302, R303). -/
  | setContext (hi : i = .createContext ∨ i = .destroyContext) (valid : BitVec 1) (level : BitVec 4)
      (window : BitVec 32) : CommandLasting i x ⟨x.cfg, valid, level, window, [], x.inMem⟩

theorem commandLasting_of_commandEnds {i : Instr} {x : Lasting} {u t : State}
    (h : CommandLasting i x (lasting u)) (hend : CommandEnds u t) : CommandLasting i x (lasting t) := by
  rwa [lasting_of_commandEnds hend]

theorem commandLasting_clearOnCompress (s : State) :
    CommandLasting .compress (lasting s) (lasting (clearOnCompress s)) := by
  unfold clearOnCompress
  split
  · exact .clearedIndex (by simp)
  · exact .kept

theorem commandLasting_of_exec {i : Instr} (hi : i.isToken = false) {s t : State}
    (h : exec i s = .next t) : CommandLasting i (lasting s) (lasting t) := by
  cases i with
  | createContext =>
    simp only [exec, execCreateContext] at h
    split at h
    · cases h
      exact commandLasting_of_commandEnds (.setContext (.inl rfl) ..) (commandEnds_raise ..)
    · cases h
      exact commandLasting_of_commandEnds (.setContext (.inl rfl) ..) (commandEnds_completeContext _)
  | destroyContext =>
    cases h
    exact commandLasting_of_commandEnds (.setContext (.inr rfl) ..) (commandEnds_completeContext _)
  | resetIndex =>
    simp only [exec, execResetIndex] at h
    split at h
    · cases h
      exact commandLasting_of_commandEnds .kept (commandEnds_raise ..)
    · cases h
      exact commandLasting_of_commandEnds (.clearedIndex (by simp)) (commandEnds_completeContext _)
  | compress =>
    simp only [exec, execCompress] at h
    split at h
    · cases h
      exact commandLasting_of_commandEnds .kept (commandEnds_raise ..)
    · cases h
      exact commandLasting_clearOnCompress s
  | decompress =>
    simp only [exec, execDecompress] at h
    split at h
    · cases h
      exact commandLasting_of_commandEnds .kept (commandEnds_raise ..)
    · cases h
      exact .kept
  | lit0 _ => cases hi
  | lit1 _ => cases hi
  | lit2 _ => cases hi
  | lit3 _ => cases hi
  | match10 _ _ => cases hi
  | matchRef _ _ => cases hi

/-- No command code is a token (R114). -/
theorem isToken_of_decodeCommand {code : Byte} {i : Instr} (h : decodeCommand code = .ok i) :
    i.isToken = false := by
  unfold decodeCommand at h
  split at h <;> cases h <;> rfl

/-! ## Steps -/

/-- The next step is a move of the engine: the host has nothing pending, gives it leave, or polls. -/
def EngineMovesNext (s : State) : Prop :=
  s.host = [] ∨ ∃ rest, s.host = .letRun :: rest ∨ s.host = .waitIdle :: rest

/-- All that a step can do to what lasts, and who does it. -/
inductive LastingStep (s : State) : Lasting → Prop where
  | kept : LastingStep s (lasting s)
  /-- A move of COMPRESS writes the index (R229, R230). -/
  | scanned (x : Index) (hrun : s.engine = .compress) (hnext : EngineMovesNext s) :
      LastingStep s { lasting s with index := x }
  /-- The host writes IN (R30). -/
  | wroteIn (hidle : busyBit s = 0) {offset : Word} {value : Byte} {rest : List HostAction}
      (hhost : s.host = .writeIn offset value :: rest) (m : Memory) :
      LastingStep s { lasting s with inMem := m }
  /-- The host issues a command (R308). -/
  | command (hidle : busyBit s = 0) {value : Word} {rest : List HostAction} {i : Instr}
      (hhost : s.host = .write 0 value :: rest) (hdecode : decodeCommand (value.setWidth 8) = .ok i)
      {x : Lasting} (hx : CommandLasting i (lasting s) x) : LastingStep s x
  /-- The host drives reset (R370). -/
  | reset {rest : List HostAction} (hhost : s.host = .reset :: rest) :
      LastingStep s ⟨s.cfg, 0, 0, 0, [], s.inMem⟩

theorem lastingStep_of_eq {s t : State} (h : lasting t = lasting s) : LastingStep s (lasting t) :=
  h ▸ .kept

/-- A move of the engine from `u`, which is `s` but for the host's list. -/
theorem lastingStep_of_engineMove {s t : State} (hnext : EngineMovesNext s) {q : List HostAction}
    (h : engineMove (withHost s q) = .next t) : LastingStep s (lasting t) := by
  cases engineMoved_of_engineMove h with
  | waited _ => exact .kept
  | ended hend => exact lastingStep_of_eq ((lasting_of_commandEnds hend).trans (lasting_withHost s q))
  | ranOn x m w _ hindex =>
    rcases hindex with hrun | rfl
    · exact .scanned x hrun hnext
    · exact .kept

theorem lastingStep_of_hostWrite {s t : State} {reg : BitVec 8} {value : Word} {rest : List HostAction}
    (hhost : s.host = .write reg value :: rest)
    (h : hostWrite reg value (withHost s rest) = .next t) : LastingStep s (lasting t) := by
  by_cases h0 : reg = 0
  · subst h0
    by_cases hbusy : busyBit s = 1
    · rw [hostWrite_cmd_of_busy (s := withHost s rest) hbusy] at h
      cases h
      exact .kept
    · have hidle := busyBit_eq_zero_of_ne_one hbusy
      rw [hostWrite_cmd_of_idle (s := withHost s rest) hidle, issueCommand] at h
      split at h
      next i hdecode =>
        have hcommand := commandLasting_of_exec (isToken_of_decodeCommand hdecode) h
        exact .command hidle hhost hdecode hcommand
      next => cases h; exact .kept
  · rcases hostWrite_eq_next h0 h with rfl | rfl
    · exact .kept
    · exact lastingStep_of_eq (lasting_writeRegister ..)

theorem lastingStep_of_hostMove {s t : State} {a : HostAction} {rest : List HostAction}
    (hhost : s.host = a :: rest) (h : hostMove a rest s = .next t) : LastingStep s (lasting t) := by
  cases a with
  | write reg value => exact lastingStep_of_hostWrite hhost h
  | read reg => cases h; exact .kept
  | writeIn offset value =>
    simp only [hostMove] at h
    split at h
    · cases h
    · cases h
      exact .wroteIn (busyBit_eq_zero_of_ne_one ‹_›) hhost _
  | writeOut offset value =>
    simp only [hostMove] at h
    split at h
    · cases h
    · cases h
      exact .kept
  | readOut offset => cases h; exact lastingStep_of_eq (lasting_hostReadOut ..)
  | readIn offset => cases h; exact .kept
  | waitIdle =>
    simp only [hostMove] at h
    split at h
    · exact lastingStep_of_engineMove (q := s.host) (.inr ⟨rest, .inr hhost⟩) h
    · cases h
      exact .kept
  | letRun => exact lastingStep_of_engineMove (.inr ⟨rest, .inl hhost⟩) h
  | reset =>
    cases h
    rw [lasting_resetEvent]
    exact .reset hhost

theorem lastingStep_of_step {s t : State} (h : step s = .next t) : LastingStep s (lasting t) := by
  cases hhost : s.host with
  | nil =>
    rw [step_of_host_nil hhost] at h
    exact lastingStep_of_engineMove (q := s.host) (.inl hhost) h
  | cons a rest =>
    rw [step_of_host_cons hhost] at h
    exact lastingStep_of_hostMove hhost h

/-! ## Statements about every step -/

theorem CommandLasting.cfg_inMem {i : Instr} {x y : Lasting} (h : CommandLasting i x y) :
    y.cfg = x.cfg ∧ y.inMem = x.inMem := by
  cases h with
  | kept => exact ⟨rfl, rfl⟩
  | clearedIndex _ => exact ⟨rfl, rfl⟩
  | setContext _ _ _ _ => exact ⟨rfl, rfl⟩

theorem LastingStep.cfg {s : State} {x : Lasting} (h : LastingStep s x) : x.cfg = s.cfg := by
  cases h with
  | kept => rfl
  | scanned _ _ _ => rfl
  | wroteIn _ _ _ => rfl
  | command _ _ _ hx => exact hx.cfg_inMem.1
  | reset _ => rfl

theorem LastingStep.inMem {s : State} {x : Lasting} (h : LastingStep s x) :
    x.inMem = s.inMem ∨ (busyBit s = 0 ∧ ∃ offset value rest, s.host = .writeIn offset value :: rest) := by
  cases h with
  | kept => exact .inl rfl
  | scanned _ _ _ => exact .inl rfl
  | wroteIn hidle hhost _ => exact .inr ⟨hidle, _, _, _, hhost⟩
  | command _ _ _ hx => exact .inl hx.cfg_inMem.2
  | reset _ => exact .inl rfl

theorem LastingStep.context {s : State} {x : Lasting} (h : LastingStep s x) :
    (x.ctxValid = s.ctxValid ∧ x.ctxLevel = s.ctxLevel ∧ x.ctxWindow = s.ctxWindow) ∨
    (∃ rest, s.host = .reset :: rest) ∨
    (busyBit s = 0 ∧ ∃ value rest, s.host = .write 0 value :: rest ∧
      (decodeCommand (value.setWidth 8) = .ok .createContext ∨
        decodeCommand (value.setWidth 8) = .ok .destroyContext)) := by
  cases h with
  | kept => exact .inl ⟨rfl, rfl, rfl⟩
  | scanned _ _ _ => exact .inl ⟨rfl, rfl, rfl⟩
  | wroteIn _ _ _ => exact .inl ⟨rfl, rfl, rfl⟩
  | command hidle hhost hdecode hx =>
    cases hx with
    | kept => exact .inl ⟨rfl, rfl, rfl⟩
    | clearedIndex _ => exact .inl ⟨rfl, rfl, rfl⟩
    | setContext hi _ _ _ =>
      rcases hi with rfl | rfl
      · exact .inr (.inr ⟨hidle, _, _, hhost, .inl hdecode⟩)
      · exact .inr (.inr ⟨hidle, _, _, hhost, .inr hdecode⟩)
  | reset hhost => exact .inr (.inl ⟨_, hhost⟩)

theorem LastingStep.index {s : State} {x : Lasting} (h : LastingStep s x) :
    x.index = s.index ∨ (s.engine = .compress ∧ EngineMovesNext s) ∨
    (x.index = [] ∧
      ((∃ rest, s.host = .reset :: rest) ∨
        (busyBit s = 0 ∧ ∃ value rest i, s.host = .write 0 value :: rest ∧
          decodeCommand (value.setWidth 8) = .ok i ∧ i ≠ .decompress))) := by
  cases h with
  | kept => exact .inl rfl
  | scanned _ hrun hnext => exact .inr (.inl ⟨hrun, hnext⟩)
  | wroteIn _ _ _ => exact .inl rfl
  | command hidle hhost hdecode hx =>
    cases hx with
    | kept => exact .inl rfl
    | clearedIndex hi => exact .inr (.inr ⟨rfl, .inr ⟨hidle, _, _, _, hhost, hdecode, hi⟩⟩)
    | setContext hi _ _ _ =>
      refine .inr (.inr ⟨rfl, .inr ⟨hidle, _, _, _, hhost, hdecode, ?_⟩⟩)
      rcases hi with rfl | rfl <;> decide
  | reset hhost => exact .inr (.inr ⟨rfl, .inl ⟨_, hhost⟩⟩)

/-- Settles O57: nothing that a step does to what lasts writes the parameters. -/
theorem parametersNeverChange : Obligations.ParametersNeverChange := by
  unfold Obligations.ParametersNeverChange
  exact fun s t h => (lastingStep_of_step h).cfg

/-- Settles O50: of all that a step does to what lasts, only the host's write of IN writes IN. -/
theorem inIsWrittenOnlyByTheHost : Obligations.InIsWrittenOnlyByTheHost := by
  unfold Obligations.InIsWrittenOnlyByTheHost
  exact fun s t h => (lastingStep_of_step h).inMem

/-- Settles O55: a move, a write of IN and a command that only clears the index keep the context
registers. -/
theorem contextRegistersHaveThreeWriters : Obligations.ContextRegistersHaveThreeWriters := by
  unfold Obligations.ContextRegistersHaveThreeWriters
  exact fun s t h => (lastingStep_of_step h).context

/-- Settles O56: only a scan inserts into the index; a command or a reset that writes it empties it. -/
theorem indexIsChangedByCompressAndClears : Obligations.IndexIsChangedByCompressAndClears := by
  unfold Obligations.IndexIsChangedByCompressAndClears
  exact fun s t h => (lastingStep_of_step h).index

end Sys2Proof.Machine
end

section
/-! Byte strings as big-endian numbers (R12), and what this says of the keys and fields read from IN. -/

namespace Sys2Proof

/-- `BE(s)` is the number whose base-256 digits, least significant first, are the bytes of `s` reversed. -/
theorem beValue_eq_ofDigits (s : List Byte) :
    beValue s = Nat.ofDigits 256 (s.reverse.map BitVec.toNat) := by
  rw [Nat.ofDigits_eq_foldr, List.foldr_map, List.foldr_reverse, beValue]
  congr 1
  funext acc b
  simp only [Nat.cast_id]
  ring

theorem beValue_cons (b : Byte) (s : List Byte) :
    beValue (b :: s) = b.toNat * 256 ^ s.length + beValue s := by
  simp only [beValue_eq_ofDigits, List.reverse_cons, List.map_append, Nat.ofDigits_append,
    List.map_cons, List.map_nil, Nat.ofDigits_singleton, List.length_map, List.length_reverse]
  ring

theorem lt_of_mem_digits (s : List Byte) : ∀ x ∈ s.reverse.map BitVec.toNat, x < 256 := by
  intro x hx
  obtain ⟨b, _, rfl⟩ := List.mem_map.mp hx
  exact b.isLt

theorem beValue_lt (s : List Byte) : beValue s < 256 ^ s.length := by
  simpa [beValue_eq_ofDigits] using Nat.ofDigits_lt_base_pow_length (by decide) (lt_of_mem_digits s)

/-- Byte strings of one length that have the same value are equal. -/
theorem eq_of_beValue_eq {s t : List Byte} (hlen : s.length = t.length) (h : beValue s = beValue t) :
    s = t := by
  rw [beValue_eq_ofDigits, beValue_eq_ofDigits] at h
  have hdigits := Nat.ofDigits_inj_of_len_eq (by decide) (by simpa using hlen) (lt_of_mem_digits s)
    (lt_of_mem_digits t) h
  have hinj : Function.Injective (BitVec.toNat : Byte → Nat) := fun _ _ => BitVec.eq_of_toNat_eq
  exact List.reverse_injective (hinj.list_map hdigits)

end Sys2Proof

namespace Sys2Proof.Machine

theorem inBytes_eq_iff (s : State) (p q count : Nat) :
    inBytes s p count = inBytes s q count ↔ ∀ j < count, inByte s (p + j) = inByte s (q + j) := by
  simp [inBytes]

/-- The value of four bytes fits a key, so packing loses nothing (R142). -/
theorem keyAt_toNat (s : State) (p : Nat) : (keyAt s p).toNat = beValue (inBytes s p 4) := by
  have hlt := beValue_lt (inBytes s p 4)
  rw [inBytes_length] at hlt
  exact Nat.mod_eq_of_lt hlt

/-- Settles O9: a key is the value of its four bytes, and such values are equal only for equal bytes. -/
theorem keysAreEqualWhenTheirBytesAre : Obligations.KeysAreEqualWhenTheirBytesAre := by
  unfold Obligations.KeysAreEqualWhenTheirBytesAre
  intro s p q
  rw [← inBytes_eq_iff, ← BitVec.toNat_inj, keyAt_toNat, keyAt_toNat]
  exact ⟨eq_of_beValue_eq (by simp), congrArg beValue⟩

/-- Settles O10: `beValue_cons` and `beValue_lt` for the bytes of a field. -/
theorem fieldsAreReadBigEndian : Obligations.FieldsAreReadBigEndian := by
  unfold Obligations.FieldsAreReadBigEndian
  intro s a count
  refine ⟨rfl, ?_, ?_⟩
  · rw [fieldValue, inBytes_succ, beValue_cons, inBytes_length]
    rfl
  · simpa [fieldValue] using beValue_lt (inBytes s a count)

end Sys2Proof.Machine
end

section
/-! Where a step stops: no instruction and no engine move does, only a host transaction can. -/

namespace Sys2Proof.Machine

/-- No instruction ends in a fault or a refusal (R330). -/
theorem exists_exec_eq_next (i : Instr) (s : State) : ∃ t, exec i s = .next t := by
  cases i with
  | lit0 len => exact ⟨_, rfl⟩
  | lit1 lenHi =>
    simp only [exec, execLit1]
    split <;> exact ⟨_, rfl⟩
  | lit2 lenHi =>
    simp only [exec, execLit2]
    split <;> exact ⟨_, rfl⟩
  | lit3 low => exact ⟨_, rfl⟩
  | match10 lc dc =>
    simp only [exec, execMatch10]
    split <;> exact ⟨_, rfl⟩
  | matchRef lc dc => exact ⟨_, rfl⟩
  | createContext =>
    simp only [exec, execCreateContext]
    split <;> exact ⟨_, rfl⟩
  | destroyContext => exact ⟨_, rfl⟩
  | resetIndex =>
    simp only [exec, execResetIndex]
    split <;> exact ⟨_, rfl⟩
  | compress =>
    simp only [exec, execCompress]
    split <;> exact ⟨_, rfl⟩
  | decompress =>
    simp only [exec, execDecompress]
    split <;> exact ⟨_, rfl⟩

theorem exists_engineMove_eq_next (s : State) : ∃ t, engineMove s = .next t := by
  unfold engineMove
  split
  · exact ⟨_, rfl⟩
  · exact ⟨_, rfl⟩
  · unfold decompressMove
    split
    · exact exists_exec_eq_next ..
    · exact ⟨_, rfl⟩

theorem exists_issueCommand_eq_next (code : Byte) (s : State) : ∃ t, issueCommand code s = .next t := by
  unfold issueCommand
  split
  · exact exists_exec_eq_next ..
  · exact ⟨_, rfl⟩

/-- A host write of a register goes on, but for one of an ARG register while a command runs (R375). -/
theorem hostWrite_next_or_refused (reg : BitVec 8) (value : Word) (s : State) :
    (∃ t, hostWrite reg value s = .next t) ∨
      (busyBit s = 1 ∧ (reg = 1 ∨ reg = 2 ∨ reg = 3) ∧
        hostWrite reg value s = .refused .hostWritesArgument) := by
  by_cases h0 : reg = 0
  · subst h0
    by_cases hbusy : busyBit s = 1
    · exact .inl ⟨s, hostWrite_cmd_of_busy hbusy value⟩
    · rw [hostWrite_cmd_of_idle (busyBit_eq_zero_of_ne_one hbusy)]
      exact .inl (exists_issueCommand_eq_next ..)
  · by_cases hbusy : busyBit s = 1
    · by_cases harg : isArgument reg = true
      · have hreg : reg = 1 ∨ reg = 2 ∨ reg = 3 := by
          have := mt (isArgument_eq_false_iff reg).mpr (by simp [harg])
          tauto
        exact .inr ⟨hbusy, hreg, by rw [hostWrite, if_neg h0, if_pos harg, if_pos hbusy]⟩
      · exact .inl ⟨s, hostWrite_of_not_isArgument h0 (Bool.not_eq_true _ ▸ harg) value s⟩
    · exact .inl ⟨_, hostWrite_of_idle h0 (busyBit_eq_zero_of_ne_one hbusy) value⟩

/-- Settles O58: of the transactions, only the three writes can stop, each while a command runs. -/
theorem stepStopsOnlyOnABrokenHostDuty : Obligations.StepStopsOnlyOnABrokenHostDuty := by
  unfold Obligations.StepStopsOnlyOnABrokenHostDuty
  intro s
  cases hhost : s.host with
  | nil =>
    rw [step_of_host_nil hhost]
    exact .inl (exists_engineMove_eq_next s)
  | cons a rest =>
    rw [step_of_host_cons hhost]
    cases a with
    | write reg value =>
      rcases hostWrite_next_or_refused reg value (withHost s rest) with hnext | ⟨hbusy, hreg, hstop⟩
      · exact .inl hnext
      · exact .inr ⟨hbusy, .inr (.inr ⟨reg, value, rest, rfl, hreg, hstop⟩)⟩
    | writeIn offset value =>
      by_cases hbusy : busyBit s = 1
      · exact .inr ⟨hbusy, .inl ⟨offset, value, rest, rfl, if_pos hbusy⟩⟩
      · exact .inl ⟨_, if_neg hbusy⟩
    | writeOut offset value =>
      by_cases hbusy : busyBit s = 1
      · exact .inr ⟨hbusy, .inr (.inl ⟨offset, value, rest, rfl, if_pos hbusy⟩)⟩
      · exact .inl ⟨_, if_neg hbusy⟩
    | waitIdle =>
      by_cases hbusy : busyBit s = 1
      · rw [hostMove, if_pos hbusy]
        exact .inl (exists_engineMove_eq_next s)
      · exact .inl ⟨_, if_neg hbusy⟩
    | letRun => exact .inl (exists_engineMove_eq_next _)
    | read reg => exact .inl ⟨_, rfl⟩
    | readOut offset => exact .inl ⟨_, rfl⟩
    | readIn offset => exact .inl ⟨_, rfl⟩
    | reset => exact .inl ⟨_, rfl⟩

end Sys2Proof.Machine
end

section
/-! What an engine move does to OUT: it appends at the output cursor within the capacity, or ends the
command and leaves OUT from the capacity on. The inversion lemma `outMoved_of_engineMove` says so once. -/

namespace Sys2Proof.Machine

/-- The bytes of OUT from `bound` on are in `t` what they are in `s`. -/
def KeepsOutFrom (bound : Nat) (s t : State) : Prop := ∀ a, bound ≤ a → outByte t a = outByte s a

/-- From `s` to `t` the output cursor moves upward, within the capacity if it moves, and every byte of
OUT outside the ones it passes is as before (R72, R174). -/
structure WritesOut (s t : State) : Prop where
  cap : t.work.cap = s.work.cap
  le_cursor : s.work.o ≤ t.work.o
  within : t.work.o = s.work.o ∨ t.work.o ≤ s.work.cap
  outside : ∀ a, a < s.work.o ∨ t.work.o ≤ a → outByte t a = outByte s a

/-- All that a move of the engine can do to OUT. -/
inductive OutMoved (s t : State) : Prop where
  /-- No command runs after the move. -/
  | idle (hidle : t.engine = .idle) (hkept : KeepsOutFrom s.work.cap s t)
  /-- The move wrote at the output cursor. -/
  | wrote (hwrites : WritesOut s t)

theorem WritesOut.keepsOutFrom_cap {s t : State} (h : WritesOut s t) : KeepsOutFrom s.work.cap s t := by
  intro a ha
  by_cases hlt : a < s.work.o
  · exact h.outside a (.inl hlt)
  · have := h.within
    exact h.outside a (.inr (by omega))

theorem OutMoved.keepsOutFrom_cap {s t : State} (h : OutMoved s t) : KeepsOutFrom s.work.cap s t := by
  cases h with
  | idle _ hkept => exact hkept
  | wrote hwrites => exact hwrites.keepsOutFrom_cap

/-! ## The end of a command -/

theorem keepsOutFrom_raise (codec : Bool) (r : Raise) (s : State) :
    KeepsOutFrom s.work.cap s (raise codec r s) := by
  intro a ha
  unfold raise
  split
  · exact (outByte_scrambleOut s.work.cap s a).trans (if_neg (Nat.not_lt.mpr ha))
  · rfl

theorem outMoved_raise (codec : Bool) (r : Raise) (s : State) : OutMoved s (raise codec r s) :=
  .idle rfl (keepsOutFrom_raise codec r s)

/-! ## Writing a token -/

theorem outByte_append_outside (t : List Byte) (s : State) {a : Nat}
    (h : a < s.work.o ∨ s.work.o + t.length ≤ a) : outByte (append t s) a = outByte s a := by
  rw [outByte_append, if_neg (by omega)]

theorem writesOut_append {t : List Byte} {s : State}
    (hfit : t ≠ [] → s.work.o + t.length ≤ s.work.cap) : WritesOut s (append t s) where
  cap := rfl
  le_cursor := Nat.le_add_right _ _
  within := by
    by_cases h : t = []
    · subst h; exact .inl rfl
    · exact .inr (hfit h)
  outside _ h := outByte_append_outside t s h

theorem outMoved_literalBody (header len : Nat) (s : State) : OutMoved s (literalBody header len s) := by
  rcases literalBody_cases header len s with ⟨_, he⟩ | ⟨_, _, he⟩ | ⟨_, hfit, he⟩
  · rw [he]; exact outMoved_raise ..
  · rw [he]; exact outMoved_raise ..
  · rw [he]
    have h : WritesOut s (append (inBytes s (s.work.i + header) len) s) :=
      writesOut_append fun _ => by rwa [inBytes_length]
    exact .wrote ⟨h.cap, h.le_cursor, h.within, h.outside⟩

theorem outMoved_matchBody (lc dc : Nat) (s : State) : OutMoved s (matchBody lc dc s) := by
  rcases matchBody_cases lc dc s with ⟨_, he⟩ | ⟨_, _, he⟩ | ⟨_, _, _, _, he⟩ | ⟨_, _, _, hfit, he⟩
  · rw [he]; exact outMoved_raise ..
  · rw [he]; exact outMoved_raise ..
  · rw [he]; exact outMoved_raise ..
  · rw [he]
    exact .wrote ⟨rfl, Nat.le_add_right _ _, .inr hfit,
      fun a ha => outByte_copyMatch_outside lc dc _ _ s ha⟩

/-- A token of the stream is malformed, a literal's payload or a match (R175 to R180). -/
theorem exec_token_cases {i : Instr} (hi : i.isToken = true) {s t : State} (h : exec i s = .next t) :
    (∃ d, t = malformed d s) ∨ (∃ header len, t = literalBody header len s) ∨
      ∃ lc dc, t = matchBody lc dc s := by
  cases i with
  | lit0 len => cases h; exact .inr (.inl ⟨1, len, rfl⟩)
  | lit1 lenHi =>
    simp only [exec, execLit1] at h
    split at h
    · cases h; exact .inl ⟨_, rfl⟩
    · cases h; exact .inr (.inl ⟨2, _, rfl⟩)
  | lit2 lenHi =>
    simp only [exec, execLit2] at h
    split at h
    · cases h; exact .inl ⟨_, rfl⟩
    · cases h; exact .inr (.inl ⟨3, _, rfl⟩)
  | lit3 low => cases h; exact .inl ⟨_, rfl⟩
  | match10 lc dc =>
    simp only [exec, execMatch10] at h
    split at h
    · cases h; exact .inl ⟨_, rfl⟩
    · cases h; exact .inr (.inr ⟨lc, dc, rfl⟩)
  | matchRef lc dc => cases h; exact .inr (.inr ⟨lc, dc, rfl⟩)
  | createContext => cases hi
  | destroyContext => cases hi
  | resetIndex => cases hi
  | compress => cases hi
  | decompress => cases hi

/-! ## Moves -/

/-- A change of the working registers that keeps `o` and `cap` is not seen by `OutMoved`. -/
theorem outMoved_of_withWork {s t : State} {w : Work} (ho : w.o = s.work.o) (hcap : w.cap = s.work.cap)
    (h : OutMoved (withWork s w) t) : OutMoved s t := by
  cases h with
  | idle hidle hkept => exact .idle hidle (by rw [← hcap]; exact hkept)
  | wrote hwrites =>
    obtain ⟨h1, h2, h3, h4⟩ := hwrites
    rw [withWork_work] at h1 h2 h3 h4
    rw [ho] at h2 h3 h4
    rw [hcap] at h1 h3
    exact .wrote ⟨h1, h2, h3, h4⟩

theorem outMoved_complete_append {t : List Byte} {s : State}
    (hfit : t ≠ [] → s.work.o + t.length ≤ s.work.cap) : OutMoved s (complete (append t s)) :=
  .idle rfl (writesOut_append hfit).keepsOutFrom_cap

theorem outMoved_decompressMove {s t : State} (h : decompressMove s = .next t) : OutMoved s t := by
  unfold decompressMove at h
  split at h
  · refine outMoved_of_withWork (w := (latchHeader s).work) rfl rfl ?_
    rcases exec_token_cases (isToken_decodeHeader _) h with ⟨d, rfl⟩ | ⟨header, len, rfl⟩ | ⟨lc, dc, rfl⟩
    · exact outMoved_raise ..
    · exact outMoved_literalBody ..
    · exact outMoved_matchBody ..
  · cases h
    exact outMoved_complete_append (t := []) (by simp)

theorem outMoved_missAt (s : State) : OutMoved s (missAt s) :=
  .wrote ⟨rfl, le_refl _, .inl rfl, fun _ _ => rfl⟩

theorem outMoved_hitAt (ref len : Nat) (s : State) : OutMoved s (hitAt ref len s) := by
  unfold hitAt
  rcases emitHit_cases ref len s with ⟨t, ht, hfit⟩ | ⟨r, hr, _⟩
  · rw [ht]
    obtain ⟨x, hx⟩ := updateOnHit_eq_withIndex (append t s)
    simp only [hx]
    have h : WritesOut s (append t s) := writesOut_append fun _ => hfit
    exact .wrote ⟨h.cap, h.le_cursor, h.within, h.outside⟩
  · rw [hr]; exact outMoved_raise ..

theorem outMoved_scanMove (s : State) : OutMoved s (scanMove s) := by
  refine outMoved_of_withWork (w := (lookupKey s).work) rfl rfl ?_
  unfold scanMove
  split
  · exact outMoved_missAt (lookupKey s)
  · split
    · exact outMoved_missAt (lookupKey s)
    · exact outMoved_hitAt _ _ (lookupKey s)

theorem outMoved_flushMove (s : State) : OutMoved s (flushMove s) := by
  unfold flushMove
  rcases encLitrun_cases s.work.anchor s.work.n s with ⟨t, ht, hfit⟩ | ⟨r, hr, _⟩
  · rw [ht]; exact outMoved_complete_append hfit
  · rw [hr]; exact outMoved_raise ..

theorem outMoved_of_engineMove {s t : State} (h : engineMove s = .next t) : OutMoved s t := by
  unfold engineMove at h
  split at h
  next hidle => cases h; exact .idle hidle fun _ _ => rfl
  next =>
    cases h
    unfold compressMove
    split
    · exact outMoved_scanMove s
    · exact outMoved_flushMove s
  next => exact outMoved_decompressMove h

/-- Settles O52: a move after which a command runs wrote at the output cursor. -/
theorem outIsWrittenInIncreasingOrder : Obligations.OutIsWrittenInIncreasingOrder := by
  unfold Obligations.OutIsWrittenInIncreasingOrder
  intro s t h hbusy
  cases outMoved_of_engineMove h with
  | idle hidle _ => exact absurd hidle hbusy
  | wrote hwrites =>
    have := hwrites.within
    exact ⟨hwrites.cap, hwrites.le_cursor, by omega, hwrites.outside⟩

/-- Settles O53: an error scrambles OUT below the capacity only, and what is written lies below it. -/
theorem outPastTheCapacityIsNeverChanged : Obligations.OutPastTheCapacityIsNeverChanged := by
  unfold Obligations.OutPastTheCapacityIsNeverChanged
  exact fun s t h => (outMoved_of_engineMove h).keepsOutFrom_cap

end Sys2Proof.Machine
end

section
/-! Token streams of COMPRESS: the tokens of a literal run and a match are canonical and stand for the
bytes they were made from, and a stream of 4 bytes or more takes at least 5 (R117, R236, R238, R270). -/

namespace Sys2Proof

/-! ## Lengths -/

theorem beBytes_length (k v : Nat) : (beBytes k v).length = k := by
  induction k with
  | zero => rfl
  | succ k ih => rw [beBytes, List.length_cons, ih]

theorem le_byteWidthFrom (v fuel k : Nat) : k ≤ byteWidthFrom v fuel k := by
  induction fuel generalizing k with
  | zero => exact le_refl k
  | succ fuel ih =>
    unfold byteWidthFrom
    split
    · exact (Nat.le_succ k).trans (ih (k + 1))
    · exact le_refl k

/-- A value other than 0 needs a byte (R140). -/
theorem byteWidth_pos {v : Nat} (h : 1 ≤ v) : 1 ≤ byteWidth v := by
  have hfirst : byteWidth v = byteWidthFrom v 7 1 := if_pos h
  rw [hfirst]
  exact le_byteWidthFrom v 7 1

/-- A literal takes its payload and a header (R103 to R105). -/
theorem length_lt_encode_literal (cls : Nat) (payload : List Byte) :
    payload.length < (Token.literal cls payload).encode.length := by
  have hheader : 0 < (litHeader cls payload.length).length := by
    unfold litHeader
    split
    · simp
    · simp
    · simp
  simp only [Token.encode, List.length_append]
  omega

/-- A canonical match has a header, a length byte and a distance byte at least (R109, R173). -/
theorem three_le_encode_reference {tag10 : Bool} {lc dc len dist : Nat}
    (h : (Token.reference tag10 lc dc len dist).canonical = true) :
    3 ≤ (Token.reference tag10 lc dc len dist).encode.length := by
  simp only [Token.canonical, Bool.and_eq_true, beq_iff_eq, decide_eq_true_eq] at h
  obtain ⟨⟨⟨⟨_, hlc⟩, hdc⟩, hlen⟩, hdist⟩ := h
  have hlc1 : 1 ≤ lc := hlc ▸ byteWidth_pos hlen
  have hdc1 : 1 ≤ dc := hdc ▸ byteWidth_pos (hlen.trans hdist)
  simp only [Token.encode, List.length_cons, List.length_append, beBytes_length]
  omega

/-! ## Canonical tokens -/

theorem canonical_literal {payload : List Byte} (hpos : payload ≠ []) (hle : payload.length ≤ litMax) :
    (Token.literal (litClass payload.length) payload).canonical = true := by
  have := List.length_pos_iff.mpr hpos
  simp [Token.canonical, hle]
  omega

theorem canonical_canonicalReference {len dist : Nat} (hlen : 1 ≤ len) (hdist : len ≤ dist) :
    (canonicalReference len dist).canonical = true := by
  simp [Token.canonical, canonicalReference, hlen, hdist]

end Sys2Proof

namespace Sys2Proof.Machine

/-! ## The tokens of a literal run -/

/-- Induction along the chunks of a run (R117). -/
theorem litRun_induction {P : List Byte → List Token → Prop} (nil : P [] [])
    (cons : ∀ run : List Byte, run ≠ [] → P (run.drop litMax) (litRun (run.drop litMax)) →
      P run (.literal (litClass (run.take litMax).length) (run.take litMax) :: litRun (run.drop litMax)))
    (run : List Byte) : P run (litRun run) := by
  induction h : run.length using Nat.strong_induction_on generalizing run with
  | _ length ih =>
    by_cases hne : run = []
    · subst hne; exact nil
    · rw [litRun_cons hne]
      have hpos := List.length_pos_iff.mpr hne
      have hlit : litMax = 2097151 := rfl
      exact cons run hne (ih _ (by rw [List.length_drop]; omega) _ rfl)

theorem canonical_of_mem_litRun (run : List Byte) : ∀ tok ∈ litRun run, tok.canonical = true := by
  induction run using litRun_induction with
  | nil => simp
  | cons run hne ih =>
    rw [List.forall_mem_cons]
    exact ⟨canonical_literal (by simpa [litMax] using hne) (by simp), ih⟩

theorem litRun_eq_literal_cons {run : List Byte} (h : run ≠ []) :
    ∃ cls payload more, litRun run = .literal cls payload :: more := ⟨_, _, _, litRun_cons h⟩

/-! ## What a stream stands for -/

theorem expandTokens_literal_cons (policy : MatchTag10Policy) (out : List Byte) (cls : Nat)
    (payload : List Byte) (ts : List Token) :
    expandTokens policy out (.literal cls payload :: ts) = expandTokens policy (out ++ payload) ts := rfl

theorem expandTokens_append {policy : MatchTag10Policy} {out mid : List Byte} {ts : List Token}
    (h : expandTokens policy out ts = some mid) (us : List Token) :
    expandTokens policy out (ts ++ us) = expandTokens policy mid us := by
  induction ts generalizing out with
  | nil => cases h; rfl
  | cons t ts ih =>
    simp only [expandTokens, List.cons_append] at h ⊢
    split at h
    · exact ih h
    · cases h

/-- The tokens of a run stand for the run (R117). -/
theorem expandTokens_litRun (policy : MatchTag10Policy) (out run : List Byte) :
    expandTokens policy out (litRun run) = some (out ++ run) := by
  induction run using litRun_induction generalizing out with
  | nil => simp [expandTokens]
  | cons run _ ih =>
    rw [expandTokens_literal_cons, ih, List.append_assoc, List.take_append_drop]

/-- A match that does not reach past the output before it copies a piece of that output (R181). -/
theorem expandToken_canonicalReference (policy : MatchTag10Policy) {out : List Byte} {len dist : Nat}
    (hlen : 1 ≤ len) (hle : len ≤ dist) (hdist : dist ≤ out.length) :
    expandToken policy out (canonicalReference len dist)
      = some (out ++ (out.drop (out.length - dist)).take len) := by
  have hcopy : (List.range len).map (fun j => out.getD (out.length - dist + j % dist) 0)
      = (out.drop (out.length - dist)).take len := by
    apply List.ext_getElem
    · simp; omega
    · intro j hj _
      have hj : j < len := by simpa using hj
      have hin : out.length - dist + j < out.length := by omega
      simp [Nat.mod_eq_of_lt (hj.trans_le hle), hin]
  have hok : ¬(dist = 0 ∨ out.length < dist) := by omega
  simp only [canonicalReference, expandToken, hcopy, if_neg hok]
  simp

/-- A stream without a match takes a header more than each payload; a match alone takes 3 bytes. -/
theorem expandTokens_length {policy : MatchTag10Policy} {ts : List Token}
    (hcan : ∀ tok ∈ ts, tok.canonical = true) {out data : List Byte}
    (h : expandTokens policy out ts = some data) :
    data.length ≤ out.length + (streamBytes ts).length ∨ 3 ≤ (streamBytes ts).length := by
  induction ts generalizing out with
  | nil => cases h; exact .inl (Nat.le_add_right _ _)
  | cons t ts ih =>
    rw [List.forall_mem_cons] at hcan
    rw [streamBytes_cons, List.length_append]
    cases t with
    | literal cls payload =>
      have hencode := length_lt_encode_literal cls payload
      rcases ih hcan.2 h with hlit | hmatch
      · rw [List.length_append] at hlit
        exact .inl (by omega)
      · exact .inr (by omega)
    | reference tag10 lc dc len dist =>
      have hencode := three_le_encode_reference hcan.1
      exact .inr (by omega)

/-- The canonical tokens `ts`, the first of them a literal, stand for `data` under both policies. -/
structure TokensOf (data : List Byte) (ts : List Token) : Prop where
  canonical : ∀ tok ∈ ts, tok.canonical = true
  first : ts ≠ [] → ∃ cls payload more, ts = .literal cls payload :: more
  expands : ∀ policy, expandTokens policy [] ts = some data

theorem tokensOf_nil : TokensOf [] [] := ⟨by simp, fun h => absurd rfl h, fun _ => rfl⟩

theorem TokensOf.ne_nil {data : List Byte} {ts : List Token} (h : TokensOf data ts) (hne : data ≠ []) :
    ts ≠ [] := by
  rintro rfl
  exact hne (Option.some.inj (h.expands .asMatch)).symm

theorem TokensOf.append_litRun {data : List Byte} {ts : List Token} (h : TokensOf data ts)
    (run : List Byte) : TokensOf (data ++ run) (ts ++ litRun run) where
  canonical tok hmem := by
    rcases List.mem_append.mp hmem with hold | hnew
    · exact h.canonical tok hold
    · exact canonical_of_mem_litRun run tok hnew
  first hne := by
    by_cases hts : ts = []
    · subst hts
      have hrun : run ≠ [] := by rintro rfl; exact hne rfl
      exact litRun_eq_literal_cons hrun
    · obtain ⟨cls, payload, more, rfl⟩ := h.first hts
      exact ⟨cls, payload, more ++ litRun run, rfl⟩
  expands policy := by rw [expandTokens_append (h.expands policy), expandTokens_litRun]

theorem TokensOf.append_reference {data : List Byte} {ts : List Token} (h : TokensOf data ts)
    {len dist : Nat} (hlen : 1 ≤ len) (hle : len ≤ dist) (hdist : dist ≤ data.length) :
    TokensOf (data ++ (data.drop (data.length - dist)).take len) (ts ++ [canonicalReference len dist]) where
  canonical tok hmem := by
    rcases List.mem_append.mp hmem with hold | hnew
    · exact h.canonical tok hold
    · rw [List.mem_singleton.mp hnew]
      exact canonical_canonicalReference hlen hle
  first _ := by
    have hdata : data ≠ [] := List.ne_nil_of_length_pos (by omega)
    obtain ⟨cls, payload, more, rfl⟩ := h.first (h.ne_nil hdata)
    exact ⟨cls, payload, more ++ _, rfl⟩
  expands policy := by
    rw [expandTokens_append (h.expands policy)]
    simp only [expandTokens, expandToken_canonicalReference policy hlen hle hdist]

/-- A stream for at least 4 bytes takes at least 5 (R238): a match after the first literal, or a header
more than the bytes. -/
theorem TokensOf.five_le {data : List Byte} {ts : List Token} (h : TokensOf data ts)
    (hdata : 4 ≤ data.length) : 5 ≤ (streamBytes ts).length := by
  have hne : data ≠ [] := List.ne_nil_of_length_pos (by omega)
  obtain ⟨cls, payload, more, rfl⟩ := h.first (h.ne_nil hne)
  obtain ⟨hliteral, hmore⟩ := List.forall_mem_cons.mp h.canonical
  have hpayload : 1 ≤ payload.length := by
    simp only [Token.canonical, Bool.and_eq_true, decide_eq_true_eq] at hliteral
    exact hliteral.1.2
  have hencode := length_lt_encode_literal cls payload
  rw [streamBytes_cons, List.length_append]
  rcases expandTokens_length hmore (h.expands .asMatch) with hlit | hmatch
  · simp only [List.nil_append] at hlit
    omega
  · omega

end Sys2Proof.Machine
end

section
/-! A run of COMPRESS: at every move, what is written so far is a canonical stream for the input before the
anchor. The invariant is `Compressing`; a move keeps it or ends the command in `Compressed`. -/

namespace Sys2Proof.Machine

/-! ## Running to the end -/

theorem exists_step_of_run_succ (M : Host.Core) {k : Nat} {s t : M.State} (h : M.run (k + 1) s = .next t) :
    ∃ u, M.step s = .next u ∧ M.run k u = .next t := by
  rw [Host.Core.run] at h
  split at h
  next u hu => exact ⟨u, hu, h⟩
  next => cases h
  next => cases h

theorem eq_of_run_of_idle {k : Nat} {s t : State} (hhost : s.host = []) (hidle : s.engine = .idle)
    (h : Host.Core.run core k s = .next t) : t = s := by
  induction k with
  | zero => cases h; rfl
  | succ k ih =>
    obtain ⟨u, hu, hrun⟩ := exists_step_of_run_succ core h
    have hstep : step s = .next s := by rw [step_of_host_nil hhost, engineMove, hidle]
    rw [show core.step s = .next s from hstep] at hu
    cases hu
    exact ih hrun

/-- An idle core with no transaction pending, where `Q` holds. -/
def RestsWith (Q : State → Prop) (s : State) : Prop := s.host = [] ∧ s.engine = .idle ∧ Q s

theorem RestsWith.of_run {Q : State → Prop} {k : Nat} {s t : State} (h : RestsWith Q s)
    (hrun : Host.Core.run core k s = .next t) : Q t := by
  obtain ⟨hhost, hidle, hQ⟩ := h
  rw [eq_of_run_of_idle hhost hidle hrun]
  exact hQ

/-- If each step from a running state with `P` keeps `P` or comes to rest with `Q`, a run from `P` that
ends with an idle core ends with `Q`. -/
theorem run_ends_with {P Q : State → Prop} (hrunning : ∀ u, P u → u.engine ≠ .idle)
    (hstep : ∀ u v, P u → step u = .next v → P v ∨ RestsWith Q v) {k : Nat} {u t : State} (hu : P u)
    (hrun : Host.Core.run core k u = .next t) (hidle : t.engine = .idle) : Q t := by
  induction k generalizing u with
  | zero => cases hrun; exact absurd hidle (hrunning _ hu)
  | succ k ih =>
    obtain ⟨v, hv, hrun⟩ := exists_step_of_run_succ core hrun
    rcases hstep u v hu hv with hP | hrest
    · exact ih hP hrun
    · exact hrest.of_run hrun

/-! ## What an error leaves -/

theorem raise_host (codec : Bool) (r : Raise) (s : State) : (raise codec r s).host = s.host := by
  unfold raise
  split <;> rfl

/-- Only OK has the STATUS code 0 (R331). -/
theorem raise_status_ne_zero (codec : Bool) {r : Raise} (h : r.status ≠ .ok) (s : State) :
    (raise codec r s).status ≠ 0 := by
  show statusCode r.status ≠ 0
  cases hstatus : r.status with
  | ok => exact absurd hstatus h
  | configError => decide
  | invalidParam => decide
  | outputCapacity => decide
  | malformedStream => decide
  | noContext => decide
  | illegalCommand => decide

/-! ## Emitting tokens -/

/-- ENC_LITRUN, where it does not fail, writes the tokens of the run within the capacity (R172). -/
theorem eq_append_of_encLitrunFrom {fuel a b : Nat} {s u : State} (hfuel : b - a ≤ fuel)
    (h : encLitrunFrom fuel a b s = .ok u) (hfit : s.work.o ≤ s.work.cap) :
    u = append (streamBytes (litRun (inBytes s a (b - a)))) s ∧ u.work.o ≤ u.work.cap := by
  induction fuel generalizing a s with
  | zero => cases h; rw [litRun_nil _ (by omega)]; exact ⟨rfl, hfit⟩
  | succ fuel ih =>
    unfold encLitrunFrom at h
    split at h
    next hab =>
      have hlit : litMax = 2097151 := rfl
      rw [encLiteral_eq, emit_eq] at h
      split at h
      next => cases h
      next v hv =>
        split at hv
        next hlitFit =>
          cases hv
          obtain ⟨rfl, hle⟩ := ih (by omega) h hlitFit
          rw [inBytes_congr (append_inMem ..), append_append] at hle ⊢
          rw [litRun_inBytes_cons s hab, streamBytes_cons]
          exact ⟨rfl, hle⟩
        next => cases hv
    next => cases h; rw [litRun_nil _ (by omega)]; exact ⟨rfl, hfit⟩

theorem eq_append_of_encLitrun {a b : Nat} {s u : State} (h : encLitrun a b s = .ok u)
    (hfit : s.work.o ≤ s.work.cap) :
    u = append (streamBytes (litRun (inBytes s a (b - a)))) s ∧ u.work.o ≤ u.work.cap :=
  eq_append_of_encLitrunFrom (le_refl _) h hfit

/-- The tokens of a hit: those of the pending run, then the match (R230). -/
def hitTokens (ref len : Nat) (s : State) : List Token :=
  litRun (inBytes s s.work.anchor (s.work.p - s.work.anchor)) ++ [canonicalReference len (s.work.p - ref)]

theorem streamBytes_append (ts us : List Token) :
    streamBytes (ts ++ us) = streamBytes ts ++ streamBytes us := by
  simp [streamBytes]

theorem eq_append_of_emitHit {ref len : Nat} {s u : State} (h : emitHit ref len s = .ok u)
    (hfit : s.work.o ≤ s.work.cap) :
    u = append (streamBytes (hitTokens ref len s)) s ∧ u.work.o ≤ u.work.cap := by
  unfold emitHit at h
  split at h
  next => cases h
  next v hv =>
    obtain ⟨rfl, _⟩ := eq_append_of_encLitrun hv hfit
    rcases encMatch_cases len (s.work.p - ref) s.work.p
        (append (streamBytes (litRun (inBytes s s.work.anchor (s.work.p - s.work.anchor)))) s) with
      ⟨hle, hok⟩ | ⟨_, herr⟩
    · rw [hok, append_append] at h
      cases h
      rw [hitTokens, streamBytes_append, streamBytes_cons (canonicalReference _ _) []]
      refine ⟨by simp [streamBytes], ?_⟩
      rw [← append_append]
      exact hle
    · rw [herr] at h
      cases h

/-! ## Matches -/

/-- The `len` bytes of IN at `ref` lie before `p` and are the bytes at `p` (R226). -/
def MatchesBefore (s : State) (ref p len : Nat) : Prop :=
  (0 < len → ref + len ≤ p) ∧ ∀ j < len, inByte s (ref + j) = inByte s (p + j)

theorem matchesBefore_matchLenFrom {s : State} {ref p len : Nat} (h : MatchesBefore s ref p len)
    (fuel : Nat) : MatchesBefore s ref p (matchLenFrom s ref p fuel len) := by
  induction fuel generalizing len with
  | zero => exact h
  | succ fuel ih =>
    unfold matchLenFrom
    split
    next hnext =>
      obtain ⟨hlt, _, hbyte⟩ := hnext
      refine ih ⟨fun _ => hlt, fun j hj => ?_⟩
      rcases Nat.lt_succ_iff_lt_or_eq.mp hj with hj | rfl
      · exact h.2 j hj
      · exact hbyte
    next => exact h

theorem matchesBefore_zero (s : State) (ref p : Nat) : MatchesBefore s ref p 0 :=
  ⟨fun h => absurd h (lt_irrefl 0), fun _ hj => absurd hj (Nat.not_lt_zero _)⟩

theorem matchesBefore_usableLen (ref : Nat) (s : State) :
    MatchesBefore s ref s.work.p (usableLen ref s) := by
  unfold usableLen
  split
  · exact matchesBefore_zero ..
  · exact matchesBefore_matchLenFrom (matchesBefore_zero ..) _

/-! ## The invariant of a run -/

/-- OUT of `t` is OUT of `s` but for `bytes` at its beginning. -/
def OutBeginsWith (s t : State) (bytes : List Byte) : Prop :=
  ∀ a, outByte t a = if a < bytes.length then bytes.getD a 0 else outByte s a

theorem OutBeginsWith.append {s t : State} {bytes : List Byte} (h : OutBeginsWith s t bytes)
    (ho : t.work.o = bytes.length) (more : List Byte) :
    OutBeginsWith s (Machine.append more t) (bytes ++ more) := by
  intro a
  rw [outByte_append, h a, ho, List.length_append]
  by_cases hold : a < bytes.length
  · rw [if_neg (by omega), if_pos hold, if_pos (by omega), List.getD_append _ _ _ _ hold]
  · by_cases hnew : a < bytes.length + more.length
    · rw [if_pos (by omega), if_pos hnew, List.getD_append_right _ _ _ _ (by omega)]
    · rw [if_neg (by omega), if_neg hold, if_neg hnew]

/-- In `u`, reached from `s`, the output cursor stands at the end of a stream for the first `k` bytes of
IN, within the capacity, and OUT is else as in `s`. -/
def WroteStream (s u : State) (k : Nat) : Prop :=
  u.work.o ≤ u.work.cap ∧ ∃ ts, u.work.o = (streamBytes ts).length ∧
    OutBeginsWith s u (streamBytes ts) ∧ TokensOf (inBytes s 0 k) ts

/-- Tokens that fit, for the next bytes of IN, extend the stream. -/
theorem WroteStream.append {s u : State} {k m : Nat} (h : WroteStream s u k) {us : List Token}
    (hus : ∀ ts, TokensOf (inBytes s 0 k) ts → TokensOf (inBytes s 0 m) (ts ++ us))
    (hfit : (Machine.append (streamBytes us) u).work.o ≤ u.work.cap) :
    WroteStream s (Machine.append (streamBytes us) u) m := by
  obtain ⟨_, ts, ho, hout, hts⟩ := h
  refine ⟨hfit, ts ++ us, ?_, ?_, hus ts hts⟩
  · rw [append_o, streamBytes_append, List.length_append, ho]
  · rw [streamBytes_append]
    exact hout.append ho _

/-- `u` is reached by COMPRESS from `s`: the command runs, and what it wrote stands for the input before
the anchor (R223, R229, R230). -/
structure Compressing (s u : State) : Prop where
  host : u.host = []
  running : u.engine = .compress
  input_ge : minInput ≤ s.argInLen.toNat
  inMem : u.inMem = s.inMem
  n : u.work.n = s.argInLen.toNat
  cap : u.work.cap = s.argOutCap.toNat
  anchor_le : u.work.anchor ≤ u.work.p
  p_le : u.work.p ≤ u.work.n
  wrote : WroteStream s u u.work.anchor

/-- If a COMPRESS from `s` ended with OK in `t`, it wrote a stream for the whole input (R232). -/
def Compressed (s t : State) : Prop :=
  t.status = 0 → minInput ≤ s.argInLen.toNat ∧ ∃ ts, t.bytesWritten.toNat = (streamBytes ts).length ∧
    OutBeginsWith s t (streamBytes ts) ∧ TokensOf (inBytes s 0 s.argInLen.toNat) ts

theorem restsWith_compressed_raise {s u : State} (hhost : u.host = []) {r : Raise}
    (hr : r.status ≠ .ok) : RestsWith (Compressed s) (raise true r u) :=
  ⟨(raise_host ..).trans hhost, rfl, fun h => absurd h (raise_status_ne_zero true hr u)⟩

/-- The input before `b`, from that before `a`. -/
theorem inBytes_zero_append (s : State) {a b : Nat} (h : a ≤ b) :
    inBytes s 0 a ++ inBytes s a (b - a) = inBytes s 0 b := by
  obtain ⟨d, rfl⟩ := Nat.exists_eq_add_of_le h
  rw [Nat.add_sub_cancel_left, inBytes_split, Nat.zero_add]

theorem compressing_missAt {s u : State} (h : Compressing s u) (hp : u.work.p < u.work.n) :
    Compressing s (missAt (lookupKey u)) :=
  ⟨h.host, h.running, h.input_ge, h.inMem, h.n, h.cap, Nat.le_succ_of_le h.anchor_le, hp, h.wrote⟩

/-- The tokens of a usable hit extend the stream to the end of the match (R230). -/
theorem tokensOf_append_hitTokens {s u : State} (h : Compressing s u) {ref len : Nat} (hpos : 0 < len)
    (hmatch : MatchesBefore u ref u.work.p len) {ts : List Token}
    (hts : TokensOf (inBytes s 0 u.work.anchor) ts) :
    TokensOf (inBytes s 0 (u.work.p + len)) (ts ++ hitTokens ref len u) := by
  obtain ⟨hbefore, hbytes⟩ := hmatch
  have hbefore := hbefore hpos
  have hrun := hts.append_litRun (inBytes s u.work.anchor (u.work.p - u.work.anchor))
  rw [inBytes_zero_append s h.anchor_le] at hrun
  have hall := hrun.append_reference (len := len) (dist := u.work.p - ref) hpos (by omega)
    (by rw [inBytes_length]; omega)
  have hcopied : ((inBytes s 0 u.work.p).drop ((inBytes s 0 u.work.p).length - (u.work.p - ref))).take len
      = inBytes s u.work.p len := by
    rw [inBytes_length, inBytes_drop, inBytes_take, Nat.min_eq_left (by omega), inBytes_eq_iff]
    intro j hj
    rw [show 0 + (u.work.p - (u.work.p - ref)) = ref by omega]
    simpa only [inByte_congr h.inMem] using hbytes j hj
  have hjoin := inBytes_zero_append s (Nat.le_add_right u.work.p len)
  rw [Nat.add_sub_cancel_left] at hjoin
  rw [hcopied, hjoin] at hall
  rwa [hitTokens, inBytes_congr h.inMem, ← List.append_assoc]

theorem compressing_skipMatch {s u : State} (h : Compressing s u) {len : Nat}
    (hlen : u.work.p + len ≤ u.work.n) {bytes : List Byte}
    (hwrote : WroteStream s (append bytes u) (u.work.p + len)) (ref : Nat) (x : Index) :
    Compressing s (skipMatch ref len (withIndex (append bytes u) x)) :=
  ⟨h.host, h.running, h.input_ge, h.inMem, h.n, h.cap, le_refl _, hlen, hwrote⟩

theorem compressing_or_rests_hitAt {s u : State} (h : Compressing s u) {ref len : Nat} (hpos : 0 < len)
    (hlen : u.work.p + len ≤ u.work.n) (hmatch : MatchesBefore u ref u.work.p len) :
    Compressing s (hitAt ref len u) ∨ RestsWith (Compressed s) (hitAt ref len u) := by
  unfold hitAt
  rcases emitHit_cases ref len u with ⟨t, ht, _⟩ | ⟨r, hr, hstatus, _⟩
  · obtain ⟨heq, hfit⟩ := eq_append_of_emitHit ht h.wrote.1
    have hwrote := h.wrote.append (fun _ => tokensOf_append_hitTokens h hpos hmatch) (heq ▸ hfit)
    rw [← heq] at hwrote
    rw [ht]
    obtain ⟨x, hx⟩ := updateOnHit_eq_withIndex (append t u)
    simp only [hx]
    exact .inl (compressing_skipMatch h hlen hwrote ref x)
  · rw [hr]
    exact .inr (restsWith_compressed_raise h.host (by simp [hstatus]))

/-- A change of working registers that no part of `Compressing` speaks of. -/
theorem compressing_lookupKey {s u : State} (h : Compressing s u) : Compressing s (lookupKey u) :=
  ⟨h.host, h.running, h.input_ge, h.inMem, h.n, h.cap, h.anchor_le, h.p_le, h.wrote⟩

theorem compressing_or_rests_scanMove {s u : State} (h : Compressing s u) (hp : u.work.p < u.work.n) :
    Compressing s (scanMove u) ∨ RestsWith (Compressed s) (scanMove u) := by
  unfold scanMove
  split
  · exact .inl (compressing_missAt h hp)
  next ref _ =>
    split
    · exact .inl (compressing_missAt h hp)
    · exact compressing_or_rests_hitAt (compressing_lookupKey h) (Nat.pos_of_ne_zero ‹_›)
        (usableLen_le ref h.p_le) (matchesBefore_usableLen ref u)

/-- BYTES_WRITTEN holds the length of the stream, which fits a register as it fits the capacity (R232). -/
theorem compressed_complete {s u : State} (hinput : minInput ≤ s.argInLen.toNat)
    (h : WroteStream s u s.argInLen.toNat) (hcap : u.work.cap = s.argOutCap.toNat) : Compressed s (complete u) := by
  obtain ⟨hcursor, ts, ho, hout, hts⟩ := h
  refine fun _ => ⟨hinput, ts, ?_, hout, hts⟩
  rw [hcap] at hcursor
  rw [← ho]
  exact Nat.mod_eq_of_lt (hcursor.trans_lt s.argOutCap.isLt)

/-- The tail's tokens complete the stream (R231). -/
theorem rests_flushMove {s u : State} (h : Compressing s u) : RestsWith (Compressed s) (flushMove u) := by
  unfold flushMove
  rcases encLitrun_cases u.work.anchor u.work.n u with ⟨t, ht, _⟩ | ⟨r, hr, hstatus, _⟩
  · obtain ⟨heq, hfit⟩ := eq_append_of_encLitrun ht h.wrote.1
    have hwrote : WroteStream s (append t u) s.argInLen.toNat := by
      rw [heq] at hfit ⊢
      refine h.wrote.append (fun ts hts => ?_) hfit
      rw [inBytes_congr h.inMem, ← h.n, ← inBytes_zero_append s (h.anchor_le.trans h.p_le)]
      exact hts.append_litRun _
    rw [ht]
    exact ⟨h.host, rfl, compressed_complete h.input_ge hwrote h.cap⟩
  · rw [hr]
    exact restsWith_compressed_raise h.host (by simp [hstatus])

theorem compressing_or_rests_of_step {s u v : State} (h : Compressing s u) (hstep : step u = .next v) :
    Compressing s v ∨ RestsWith (Compressed s) v := by
  rw [step_of_host_nil h.host, engineMove, h.running] at hstep
  cases hstep
  unfold compressMove
  split
  next hp =>
    have hfour : u.work.p + 4 ≤ u.work.n := hp
    exact compressing_or_rests_scanMove h (by omega)
  next => exact .inr (rests_flushMove h)

/-- At the start nothing is written and nothing is consumed (R223). -/
theorem compressing_startCommand {s u : State} (hinput : minInput ≤ s.argInLen.toNat) (hhost : u.host = [])
    (hin : u.inMem = s.inMem)
    (hn : u.argInLen = s.argInLen) (hcap : u.argOutCap = s.argOutCap)
    (hout : ∀ a, outByte u a = outByte s a) : Compressing s (startCommand .compress u) :=
  ⟨hhost, rfl, hinput, hin, congrArg BitVec.toNat hn, congrArg BitVec.toNat hcap, le_refl _, Nat.zero_le _,
    Nat.zero_le _, [], rfl, hout, tokensOf_nil⟩

theorem compressing_or_rests_of_exec {s u : State} (hhost : s.host = [])
    (h : exec .compress s = .next u) :
    Compressing s u ∨ RestsWith (Compressed s) u := by
  simp only [exec, execCompress] at h
  split at h
  next r hr =>
    cases h
    refine .inr (restsWith_compressed_raise hhost ?_)
    rcases compressStartError_eq_some hr with rfl | rfl <;> decide
  next hstart =>
    cases h
    obtain ⟨_, hsize⟩ := (compressStartError_eq_none s).mp hstart
    have hinput := ((sizeError_eq_none s).mp hsize).1
    unfold clearOnCompress
    split
    · exact .inl (compressing_startCommand hinput hhost rfl rfl rfl fun _ => rfl)
    · exact .inl (compressing_startCommand hinput hhost rfl rfl rfl fun _ => rfl)

theorem inBytes_of_inputIs {s : State} {input : List Byte} (h : InputIs s input) :
    inBytes s 0 s.argInLen.toNat = input := by
  obtain ⟨hlen, hbyte⟩ := h
  refine List.ext_getElem (by simp [hlen]) fun j hj hj' => ?_
  rw [← List.getD_eq_getElem _ 0 hj, ← List.getD_eq_getElem _ 0 hj', ← hbyte j hj',
    inBytes_getD s 0 (by simpa using hj), Nat.zero_add]

theorem OutBeginsWith.outputIs {s t : State} {bytes : List Byte} (h : OutBeginsWith s t bytes) :
    OutputIs t bytes := fun j hj => (h j).trans (if_pos hj)

theorem OutBeginsWith.outside {s t : State} {bytes : List Byte} (h : OutBeginsWith s t bytes) {a : Nat}
    (ha : bytes.length ≤ a) : outByte t a = outByte s a := (h a).trans (if_neg (Nat.not_lt.mpr ha))

/-- However COMPRESS ends, `Compressed` holds of the end. -/
theorem compressed_of_finishes {s t : State} (hhost : s.host = []) (h : Finishes .compress s t) :
    Compressed s t := by
  obtain ⟨_, u, hexec, k, _, hrun, hidle⟩ := h
  rcases compressing_or_rests_of_exec hhost hexec with hu | hrest
  · exact run_ends_with (fun v hv => by simp [hv.running])
      (fun _ _ hv hstep => compressing_or_rests_of_step hv hstep) hu hrun hidle
  · exact hrest.of_run hrun

/-- Settles O45: the invariant `Compressing` carries the stream from the start of the command to its end. -/
theorem compressWritesTokensOfTheInput : Obligations.CompressWritesTokensOfTheInput := by
  unfold Obligations.CompressWritesTokensOfTheInput
  intro s t input hhost _ hinput hfinishes hstatus
  obtain ⟨hmin, ts, hbytes, hout, hts⟩ := compressed_of_finishes hhost hfinishes hstatus
  have hfive := hts.five_le (by rw [inBytes_length]; exact hmin)
  rw [inBytes_of_inputIs hinput] at hts
  have hne : ts ≠ [] := by rintro rfl; exact absurd hfive (by decide)
  exact ⟨ts, hout.outputIs, hbytes, hfive, hts.canonical, hts.first hne, hts.expands, fun _ => hout.outside⟩

end Sys2Proof.Machine
end

section
/-! The decoder of 30_encoding.md undoes the encoder: header bytes and command codes (R112, R114, R115), and
from these the whole tokens (R100 to R111, R113). -/

namespace Sys2Proof

/-! ## The fields of a header byte -/

/-- Bit 7 clear: bits 6:5 are the size class, bits 4:0 the low field (R102 to R107). -/
theorem bits_of_literal {h : Byte} {cls low : Nat} (hh : h.toNat = cls * 0x20 + low) (hcls : cls < 4)
    (hlow : low < 0x20) : bits h 7 1 = 0 ∧ bits h 5 2 = cls ∧ bits h 0 5 = low := by
  simp only [bits, hh]
  omega

/-- Bit 7 set: bit 6 is the rest of the tag, bits 5:3 and 2:0 the byte counts (R109, R111). -/
theorem bits_of_match {h : Byte} {tag lc dc : Nat} (hh : h.toNat = 0x80 + tag * 0x40 + lc * 8 + dc)
    (htag : tag < 2) (hlc : lc < 8) (hdc : dc < 8) :
    bits h 7 1 = 1 ∧ bits h 6 1 = tag ∧ bits h 3 3 = lc ∧ bits h 0 3 = dc := by
  simp only [bits, hh]
  omega

theorem decodeHeader_of_lit0 {h : Byte} {len : Nat} (hh : h.toNat = len) (hlen : len < 0x20) :
    decodeHeader h = .lit0 len := by
  obtain ⟨htag, hcls, hlow⟩ := bits_of_literal (h := h) (cls := 0) (by omega) (by decide) hlen
  simp [decodeHeader, htag, hcls, hlow]

theorem decodeHeader_of_lit1 {h : Byte} {hi : Nat} (hh : h.toNat = 0x20 + hi) (hhi : hi < 0x20) :
    decodeHeader h = .lit1 hi := by
  obtain ⟨htag, hcls, hlow⟩ := bits_of_literal (h := h) (cls := 1) (by omega) (by decide) hhi
  simp [decodeHeader, htag, hcls, hlow]

theorem decodeHeader_of_lit2 {h : Byte} {hi : Nat} (hh : h.toNat = 0x40 + hi) (hhi : hi < 0x20) :
    decodeHeader h = .lit2 hi := by
  obtain ⟨htag, hcls, hlow⟩ := bits_of_literal (h := h) (cls := 2) (by omega) (by decide) hhi
  simp [decodeHeader, htag, hcls, hlow]

theorem decodeHeader_of_lit3 {h : Byte} {low : Nat} (hh : h.toNat = 0x60 + low) (hlow : low < 0x20) :
    decodeHeader h = .lit3 low := by
  obtain ⟨htag, hcls, hlow⟩ := bits_of_literal (h := h) (cls := 3) (by omega) (by decide) hlow
  simp [decodeHeader, htag, hcls, hlow]

theorem decodeHeader_of_match10 {h : Byte} {lc dc : Nat} (hh : h.toNat = 0x80 + lc * 8 + dc) (hlc : lc < 8)
    (hdc : dc < 8) : decodeHeader h = .match10 lc dc := by
  obtain ⟨htag, hlow, hlen, hdist⟩ := bits_of_match (h := h) (tag := 0) (by omega) (by decide) hlc hdc
  simp [decodeHeader, htag, hlow, hlen, hdist]

theorem decodeHeader_of_matchRef {h : Byte} {lc dc : Nat} (hh : h.toNat = 0xC0 + lc * 8 + dc) (hlc : lc < 8)
    (hdc : dc < 8) : decodeHeader h = .matchRef lc dc := by
  obtain ⟨htag, hlow, hlen, hdist⟩ := bits_of_match (h := h) (tag := 1) (by omega) (by decide) hlc hdc
  simp [decodeHeader, htag, hlow, hlen, hdist]

/-! ## Header bytes and command codes -/

/-- A number below 256 is the value of its byte. -/
theorem toNat_ofNat_byte {v : Nat} (h : v < 256) : (BitVec.ofNat 8 v).toNat = v := Nat.mod_eq_of_lt h

/-- The header byte of a well-formed token instruction decodes to it (R112). -/
theorem decodeHeader_encode {i : Instr} (hwf : i.wf = true) (htoken : i.isToken = true) :
    decodeHeader (encode i) = i := by
  cases i with
  | lit0 len =>
    have hlen : len < 0x20 := of_decide_eq_true hwf
    exact decodeHeader_of_lit0 (toNat_ofNat_byte (by omega)) hlen
  | lit1 hi =>
    have hhi : hi < 0x20 := of_decide_eq_true hwf
    exact decodeHeader_of_lit1 (toNat_ofNat_byte (by omega)) hhi
  | lit2 hi =>
    have hhi : hi < 0x20 := of_decide_eq_true hwf
    exact decodeHeader_of_lit2 (toNat_ofNat_byte (by omega)) hhi
  | lit3 low =>
    have hlow : low < 0x20 := of_decide_eq_true hwf
    exact decodeHeader_of_lit3 (toNat_ofNat_byte (by omega)) hlow
  | match10 lc dc =>
    obtain ⟨hlc, hdc⟩ : lc < 8 ∧ dc < 8 := by simpa [Instr.wf] using hwf
    exact decodeHeader_of_match10 (toNat_ofNat_byte (by omega)) hlc hdc
  | matchRef lc dc =>
    obtain ⟨hlc, hdc⟩ : lc < 8 ∧ dc < 8 := by simpa [Instr.wf] using hwf
    exact decodeHeader_of_matchRef (toNat_ofNat_byte (by omega)) hlc hdc
  | createContext => cases htoken
  | destroyContext => cases htoken
  | resetIndex => cases htoken
  | compress => cases htoken
  | decompress => cases htoken

/-- The code of a command decodes to it (R114). -/
theorem decodeCommand_encode {i : Instr} (hcommand : i.isToken = false) :
    decodeCommand (encode i) = .ok i := by
  cases i with
  | createContext => rfl
  | destroyContext => rfl
  | resetIndex => rfl
  | compress => rfl
  | decompress => rfl
  | lit0 _ => cases hcommand
  | lit1 _ => cases hcommand
  | lit2 _ => cases hcommand
  | lit3 _ => cases hcommand
  | match10 _ _ => cases hcommand
  | matchRef _ _ => cases hcommand

/-- A code is illegal exactly when R114 does not list it (R115). -/
theorem decodeCommand_eq_error_iff (code : Byte) :
    decodeCommand code = .error (.illegalCommand code) ↔ code.toNat = 0 ∨ 6 ≤ code.toNat := by
  unfold decodeCommand
  split
  case h_6 h1 h2 h3 h4 h5 =>
    simp only [imp_false] at h1 h2 h3 h4 h5
    exact ⟨fun _ => by omega, fun _ => rfl⟩
  all_goals exact ⟨nofun, fun _ => by omega⟩

/-! ## Whole tokens -/

/-- The bytes of a value that fits them stand for it (R12). -/
theorem beValue_beBytes {k v : Nat} (h : v < 256 ^ k) : beValue (beBytes k v) = v := by
  have hmod (k : Nat) : beValue (beBytes k v) = v % 256 ^ k := by
    induction k with
    | zero => exact (Nat.mod_one v).symm
    | succ k ih =>
      rw [beBytes, beValue_cons, beBytes_length, ih, BitVec.toNat_ofNat, Nat.mod_pow_succ (b := 256),
        Nat.add_comm, Nat.mul_comm (256 ^ k)]
  rw [hmod, Nat.mod_eq_of_lt h]

theorem takeLiteral_append (cls : Nat) (payload rest : List Byte) :
    takeLiteral cls payload.length (payload ++ rest) = .ok (.literal cls payload, rest) := by
  simp [takeLiteral]

/-- Values that fit their byte counts are taken back from their bytes (R110). -/
theorem takeReference_append (tag10 : Bool) {lc dc len dist : Nat} (hlen : len < 256 ^ lc)
    (hdist : dist < 256 ^ dc) (rest : List Byte) :
    takeReference tag10 lc dc (beBytes lc len ++ beBytes dc dist ++ rest)
      = .ok (.reference tag10 lc dc len dist, rest) := by
  have hlc := beBytes_length lc len
  have hdc := beBytes_length dc dist
  have hdrop : (beBytes lc len ++ beBytes dc dist ++ rest).drop (lc + dc) = rest :=
    List.drop_left' (by rw [List.length_append, hlc, hdc])
  rw [takeReference, hdrop, List.append_assoc, List.take_left' hlc, List.drop_left' hlc, List.take_left' hdc,
    beValue_beBytes hlen, beValue_beBytes hdist, if_neg (by simp [hlc, hdc])]

/-- A literal of each class: the header's field, followed by the continuation bytes, is the length (R103 to
R106). -/
theorem decode_encode_literal {cls : Nat} {payload : List Byte} (hwf : (Token.literal cls payload).wf = true)
    (rest : List Byte) :
    Token.decode ((Token.literal cls payload).encode ++ rest) = .ok (.literal cls payload, rest) := by
  obtain ⟨hcls, hlen⟩ : cls ≤ 2 ∧ payload.length < 2 ^ (5 + 8 * cls) := by simpa [Token.wf] using hwf
  rw [← takeLiteral_append, Token.encode, List.append_assoc]
  generalize payload ++ rest = bytes
  generalize payload.length = c at hlen ⊢
  interval_cases cls
  · have hheader : decodeHeader (encode (.lit0 c)) = .lit0 c :=
      decodeHeader_encode (decide_eq_true hlen) rfl
    simp only [litHeader, Token.decode, List.cons_append, List.nil_append, hheader]
  · have hheader : decodeHeader (encode (.lit1 (c / 2 ^ 8))) = .lit1 (c / 2 ^ 8) :=
      decodeHeader_encode (decide_eq_true (by omega)) rfl
    have hvalue : c / 2 ^ 8 * 2 ^ 8 + (BitVec.ofNat 8 (c / 256 ^ 0)).toNat = c := by
      rw [BitVec.toNat_ofNat]; omega
    simp only [litHeader, Token.decode, beBytes, List.cons_append, List.nil_append, hheader, hvalue]
  · have hheader : decodeHeader (encode (.lit2 (c / 2 ^ 16))) = .lit2 (c / 2 ^ 16) :=
      decodeHeader_encode (decide_eq_true (by omega)) rfl
    have hvalue : c / 2 ^ 16 * 2 ^ 16 + (BitVec.ofNat 8 (c / 256 ^ 1)).toNat * 2 ^ 8
        + (BitVec.ofNat 8 (c / 256 ^ 0)).toNat = c := by
      rw [BitVec.toNat_ofNat, BitVec.toNat_ofNat]; omega
    simp only [litHeader, Token.decode, beBytes, List.cons_append, List.nil_append, hheader, hvalue]

/-- A match of either tag: the header's counts say which bytes are its length and its distance (R109 to R111,
R113). -/
theorem decode_encode_reference {tag10 : Bool} {lc dc len dist : Nat}
    (hwf : (Token.reference tag10 lc dc len dist).wf = true) (rest : List Byte) :
    Token.decode ((Token.reference tag10 lc dc len dist).encode ++ rest)
      = .ok (.reference tag10 lc dc len dist, rest) := by
  simp only [Token.wf, Bool.and_eq_true, decide_eq_true_eq] at hwf
  obtain ⟨⟨⟨hlc, hdc⟩, hlen⟩, hdist⟩ := hwf
  rw [← takeReference_append tag10 hlen hdist]
  cases tag10 with
  | true =>
    have hheader : decodeHeader (matchHeader true lc dc) = .match10 lc dc :=
      decodeHeader_encode (i := .match10 lc dc) (by simp [Instr.wf]; omega) rfl
    simp only [Token.encode, Token.decode, List.cons_append, hheader]
  | false =>
    have hheader : decodeHeader (matchHeader false lc dc) = .matchRef lc dc :=
      decodeHeader_encode (i := .matchRef lc dc) (by simp [Instr.wf]; omega) rfl
    simp only [Token.encode, Token.decode, List.cons_append, hheader]

/-! ## The statements -/

/-- Settles O5: a literal and a match each begin with a header byte that gives back its fields. -/
theorem tokenDecodesFromItsBytes : Obligations.TokenDecodesFromItsBytes := by
  unfold Obligations.TokenDecodesFromItsBytes
  intro t rest hwf
  cases t with
  | literal cls payload => exact decode_encode_literal hwf rest
  | reference tag10 lc dc len dist => exact decode_encode_reference hwf rest

/-- Settles O4: `decodeHeader_encode` for the tokens, `decodeCommand_encode` for the commands. -/
theorem instructionDecodesFromItsEncoding : Obligations.InstructionDecodesFromItsEncoding := by
  unfold Obligations.InstructionDecodesFromItsEncoding
  intro i hwf
  refine ⟨fun htoken rest => ?_, decodeCommand_encode⟩
  rw [decode, decodeHeader_encode hwf htoken]

/-- Settles O1: the words are closed, and the decoder computes. -/
theorem sampleWordsDecode : Obligations.SampleWordsDecode := by
  unfold Obligations.SampleWordsDecode
  decide

/-- Settles O2: in each range the byte is the range's first value plus its fields. -/
theorem headerByteDecodesByItsRange : Obligations.HeaderByteDecodesByItsRange := by
  unfold Obligations.HeaderByteDecodesByItsRange
  intro h
  have hbyte := h.isLt
  refine ⟨fun h1 => ?_, fun h0 h1 => ?_, fun h0 h1 => ?_, fun h0 h1 => ?_, fun h0 h1 => ?_, fun h0 => ?_⟩
  · exact decodeHeader_of_lit0 rfl h1
  · exact decodeHeader_of_lit1 (by omega) (by omega)
  · exact decodeHeader_of_lit2 (by omega) (by omega)
  · exact decodeHeader_of_lit3 (by omega) (by omega)
  · exact decodeHeader_of_match10 (by omega) (by omega) (by omega)
  · exact decodeHeader_of_matchRef (by omega) (by omega) (by omega)

/-- Settles O3: `decodeCommand_eq_error_iff`, for every code. -/
theorem illegalCodesAreTheUnlistedOnes : Obligations.IllegalCodesAreTheUnlistedOnes :=
  decodeCommand_eq_error_iff

end Sys2Proof
end

section
/-! What rests on the encoding: the chunks of `LITRUN` (R117) and an illegal CMD write (R307). -/

namespace Sys2Proof.Machine

/-! ## The chunks of a literal run -/

/-- The lengths R117 gives for a run of `c` bytes: as many of `litMax` as fit, then the remainder. -/
def chunkLengths (c : Nat) : List Nat :=
  List.replicate (c / litMax) litMax ++ if c % litMax = 0 then [] else [c % litMax]

/-- The first chunk takes what there is, at most `litMax`; the rest is cut alike. -/
theorem chunkLengths_of_ne_zero {c : Nat} (h : c ≠ 0) :
    chunkLengths c = min litMax c :: chunkLengths (c - litMax) := by
  have hpos : 0 < litMax := by decide
  unfold chunkLengths
  rcases Nat.lt_or_ge c litMax with hlt | hge
  · have hrest : c - litMax = 0 := by omega
    simp [hrest, Nat.div_eq_of_lt hlt, Nat.mod_eq_of_lt hlt, Nat.min_eq_right hlt.le, h]
  · rw [Nat.div_eq_sub_div hpos hge, Nat.mod_eq_sub_mod hge, Nat.min_eq_left hge, List.replicate_succ,
      List.cons_append]

theorem payload_flatMap_litRun (run : List Byte) : (litRun run).flatMap Token.payload = run := by
  induction run using litRun_induction with
  | nil => rfl
  | cons run _ ih => rw [List.flatMap_cons, ih, Token.payload, List.take_append_drop]

theorem payload_lengths_litRun (run : List Byte) :
    (litRun run).map (fun t => t.payload.length) = chunkLengths run.length := by
  induction run using litRun_induction with
  | nil => rfl
  | cons run hne ih =>
    rw [List.map_cons, ih, List.length_drop, Token.payload, List.length_take,
      chunkLengths_of_ne_zero (List.length_pos_iff.mpr hne).ne']

/-- Settles O6: one induction along the chunks for each part; `chunkLengths` is the list of lengths. -/
theorem litrunCutsTheRunIntoChunks : Obligations.LitrunCutsTheRunIntoChunks := by
  unfold Obligations.LitrunCutsTheRunIntoChunks
  exact fun run => ⟨payload_flatMap_litRun run, canonical_of_mem_litRun run, payload_lengths_litRun run⟩

/-! ## Illegal command codes -/

theorem issueCommand_of_illegal {code : Byte} (h : code.toNat = 0 ∨ 6 ≤ code.toNat) (s : State) :
    issueCommand code s = .next (illegalCommand s) := by
  rw [issueCommand, (decodeCommand_eq_error_iff code).mpr h]

/-- Settles O22: the CMD write is accepted, its code is no command's, and R307 sets the result registers. -/
theorem illegalCommandChangesOnlyResults : Obligations.IllegalCommandChangesOnlyResults := by
  unfold Obligations.IllegalCommandChangesOnlyResults
  intro s value rest hhost hidle hcode
  have hstep : step s = hostWrite 0 value (withHost s rest) := step_of_host_cons hhost
  rw [hstep, hostWrite_cmd_of_idle (s := withHost s rest) hidle, issueCommand_of_illegal hcode]
  rfl

end Sys2Proof.Machine
end

section
/-! The leaf rules `BYTEWIDTH` (R140) and the insert of a scan step without a usable hit (R229). -/

namespace Sys2Proof

/-! ## BYTEWIDTH -/

/-- The loop of R140 passes no count of bytes that holds the value. -/
theorem byteWidthFrom_le {v m : Nat} (hv : v < 2 ^ (8 * m)) {k : Nat} (hk : k ≤ m) (fuel : Nat) :
    byteWidthFrom v fuel k ≤ m := by
  induction fuel generalizing k with
  | zero => exact hk
  | succ fuel ih =>
    unfold byteWidthFrom
    split
    next hmore =>
      have hlt : 8 * k < 8 * m := (Nat.pow_lt_pow_iff_right (by decide)).mp (hmore.trans_lt hv)
      exact ih (by omega)
    next => exact hk

/-- The loop of R140 stops at a count of bytes that holds the value, if one is within its fuel. -/
theorem lt_two_pow_byteWidthFrom {v fuel k : Nat} (hv : v < 2 ^ (8 * (k + fuel))) :
    v < 2 ^ (8 * byteWidthFrom v fuel k) := by
  induction fuel generalizing k with
  | zero => exact hv
  | succ fuel ih =>
    unfold byteWidthFrom
    split
    next => exact ih (by rwa [Nat.succ_add_eq_add_succ])
    next hstop => exact Nat.lt_of_not_le hstop

theorem byteWidth_le {v m : Nat} (hv : v < 2 ^ (8 * m)) : byteWidth v ≤ m :=
  byteWidthFrom_le hv (Nat.zero_le m) 8

/-- Settles O7: the loop reaches the first count of bytes that holds the value, and 8 bytes hold it. -/
theorem bytewidthIsTheLeastWidth : Obligations.BytewidthIsTheLeastWidth := by
  unfold Obligations.BytewidthIsTheLeastWidth
  exact fun v hv => ⟨byteWidth_le (m := 8) hv, lt_two_pow_byteWidthFrom (k := 0) hv, fun _ => byteWidth_le⟩

end Sys2Proof

namespace Sys2Proof.Machine

/-! ## A scan step without a usable hit -/

/-- What makes a hit unusable: no length, or a distance past an enforced window (R227, R228). -/
theorem usableLen_eq_zero {ref : Nat} {s : State}
    (h : matchLen s ref s.work.p = 0 ∨
      s.cfg.windowEnforced = true ∧ s.ctxWindow.toNat < s.work.p - ref) : usableLen ref s = 0 := by
  unfold usableLen
  split
  next => rfl
  next hkeep =>
    rcases h with hzero | ⟨henforced, hfar⟩
    · exact hzero
    · by_contra hlen
      exact hkeep ⟨henforced, Nat.pos_of_ne_zero hlen, hfar⟩

/-- A scan step without a usable hit is a miss (R225, R228, R229). -/
theorem scanMove_of_no_usable_hit {s : State}
    (h : ∀ ref, indexLookup s.index (keyAt s s.work.p) = some ref → usableLen ref s = 0) :
    scanMove s = missAt (lookupKey s) := by
  unfold scanMove
  split
  next => rfl
  next ref href => exact if_pos (h ref href)

theorem step_scan {s : State} (hhost : s.host = []) (hrun : s.engine = .compress)
    (hp : s.work.p + 4 ≤ s.work.n) : step s = .next (scanMove s) := by
  have hscan : compressMove s = scanMove s := if_pos hp
  rw [step_of_host_nil hhost, engineMove, hrun, ← hscan]

/-- Settles O39: without a usable hit the step is `missAt`, which inserts the key at `p`. -/
theorem scanMissInsertsTheKey : Obligations.ScanMissInsertsTheKey := by
  unfold Obligations.ScanMissInsertsTheKey
  intro s hhost hrun hp hmiss
  have hstep : step s = .next (missAt (lookupKey s)) := by
    rw [step_scan hhost hrun hp, scanMove_of_no_usable_hit fun ref href => usableLen_eq_zero (hmiss ref href)]
  exact ⟨_, hstep, fun c => indexLookup_indexInsert s.index (keyAt s s.work.p) c s.work.p⟩

end Sys2Proof.Machine
end

section
/-! What the codec commands do not read: DECOMPRESS neither the index nor the context registers (R148,
R262), COMPRESS neither the level nor, unless it is enforced, the window (R147, R305). A change of these
fields commutes with each operation that does not read them. -/

namespace Sys2Proof.Machine

/-- A change of the index and of the context registers. -/
structure ContextChange where
  index : Index → Index
  valid : BitVec 1 → BitVec 1
  level : BitVec 4 → BitVec 4
  window : BitVec 32 → BitVec 32

namespace ContextChange

def apply (c : ContextChange) (s : State) : State :=
  withContext (withIndex s (c.index s.index)) (c.valid s.ctxValid) (c.level s.ctxLevel) (c.window s.ctxWindow)

/-- Another index and other context registers, whatever they were. -/
def replace (x : Index) (v : BitVec 1) (l : BitVec 4) (w : BitVec 32) : ContextChange :=
  ⟨fun _ => x, fun _ => v, fun _ => l, fun _ => w⟩

/-- Another level and another window. -/
def setWindow (l : BitVec 4) (w : BitVec 32) : ContextChange := ⟨id, id, fun _ => l, fun _ => w⟩

variable (c : ContextChange)

@[simp] theorem apply_cfg (s : State) : (c.apply s).cfg = s.cfg := rfl
@[simp] theorem apply_work (s : State) : (c.apply s).work = s.work := rfl
@[simp] theorem apply_engine (s : State) : (c.apply s).engine = s.engine := rfl
@[simp] theorem apply_inMem (s : State) : (c.apply s).inMem = s.inMem := rfl

/-! ## Operations that read neither the index nor the context -/

theorem raise_apply (codec : Bool) (r : Raise) (s : State) :
    raise codec r (c.apply s) = c.apply (raise codec r s) := by
  by_cases h : leavesOutUnspecified r.status = true
  · simp only [raise, h, if_true]; rfl
  · simp only [raise, h]; rfl

theorem complete_apply (s : State) : complete (c.apply s) = c.apply (complete s) := rfl

theorem sizeError_apply (s : State) : sizeError (c.apply s) = sizeError s := rfl

theorem startCommand_apply (e : Engine) (s : State) :
    startCommand e (c.apply s) = c.apply (startCommand e s) := rfl

theorem malformed_apply (d : Detail) (s : State) : malformed d (c.apply s) = c.apply (malformed d s) :=
  c.raise_apply ..

theorem overCapacity_apply (s : State) : overCapacity (c.apply s) = c.apply (overCapacity s) :=
  c.raise_apply ..

theorem literalBody_apply (header len : Nat) (s : State) :
    literalBody header len (c.apply s) = c.apply (literalBody header len s) := by
  simp only [literalBody, apply_ite c.apply, ← malformed_apply, ← overCapacity_apply]
  rfl

theorem matchBody_apply (lc dc : Nat) (s : State) :
    matchBody lc dc (c.apply s) = c.apply (matchBody lc dc s) := by
  simp only [matchBody, apply_ite c.apply, ← malformed_apply, ← overCapacity_apply]
  rfl

/-! ## DECOMPRESS -/

theorem exec_token_apply {i : Instr} (hi : i.isToken = true) {s t : State} (h : exec i s = .next t) :
    exec i (c.apply s) = .next (c.apply t) := by
  cases i with
  | lit0 len =>
    cases h
    exact congrArg _ (c.literalBody_apply ..)
  | lit1 lenHi =>
    simp only [exec, execLit1] at h
    split at h
    next hshort => cases h; exact (if_pos hshort).trans (congrArg _ (c.malformed_apply ..))
    next hlong => cases h; exact (if_neg hlong).trans (congrArg _ (c.literalBody_apply ..))
  | lit2 lenHi =>
    simp only [exec, execLit2] at h
    split at h
    next hshort => cases h; exact (if_pos hshort).trans (congrArg _ (c.malformed_apply ..))
    next hlong => cases h; exact (if_neg hlong).trans (congrArg _ (c.literalBody_apply ..))
  | lit3 low =>
    cases h
    exact congrArg _ (c.malformed_apply ..)
  | match10 lc dc =>
    simp only [exec, execMatch10, apply_cfg] at h ⊢
    split at h
    next => cases h; simp only [malformed_apply]
    next => cases h; simp only [matchBody_apply]
  | matchRef lc dc =>
    cases h
    exact congrArg _ (c.matchBody_apply ..)
  | createContext => cases hi
  | destroyContext => cases hi
  | resetIndex => cases hi
  | compress => cases hi
  | decompress => cases hi

theorem exec_decompress_apply {s t : State} (h : exec .decompress s = .next t) :
    exec .decompress (c.apply s) = .next (c.apply t) := by
  simp only [exec, execDecompress, sizeError_apply] at h ⊢
  split at h
  next => cases h; simp only [raise_apply]
  next => cases h; simp only [startCommand_apply]

theorem headerAt_apply (s : State) : headerAt (c.apply s) = headerAt s := rfl

theorem latchHeader_apply (s : State) : latchHeader (c.apply s) = c.apply (latchHeader s) := rfl

theorem decompressMove_apply {s t : State} (h : decompressMove s = .next t) :
    decompressMove (c.apply s) = .next (c.apply t) := by
  unfold decompressMove at h ⊢
  rw [headerAt_apply, latchHeader_apply, complete_apply]
  split at h
  next hmore => exact (if_pos hmore).trans (c.exec_token_apply (isToken_decodeHeader _) h)
  next hend => cases h; exact if_neg hend

theorem engineMove_apply_of_decompress {s t : State} (hrun : s.engine = .decompress)
    (h : engineMove s = .next t) : engineMove (c.apply s) = .next (c.apply t) := by
  simp only [engineMove, apply_engine, hrun] at h ⊢
  exact c.decompressMove_apply h

/-- What commutes with every change of the index and the context registers writes none of them: the change
to the values `s` already has leaves `s` alone, so it leaves the result alone. -/
theorem context_eq_of_commutes {f : State → Host.Outcome State Fault Refusal} {s t : State}
    (hf : ∀ c : ContextChange, f (c.apply s) = .next (c.apply t)) (h : f s = .next t) :
    t.index = s.index ∧ t.ctxValid = s.ctxValid ∧ t.ctxLevel = s.ctxLevel ∧ t.ctxWindow = s.ctxWindow := by
  have hown : f s = .next ((replace s.index s.ctxValid s.ctxLevel s.ctxWindow).apply t) := hf (replace ..)
  have heq := Host.Outcome.next.inj (h.symm.trans hown)
  exact ⟨(congrArg State.index heq :), (congrArg State.ctxValid heq :), (congrArg State.ctxLevel heq :),
    (congrArg State.ctxWindow heq :)⟩

/-! ## COMPRESS, where it reads neither the index nor the context -/

theorem emit_apply (t : List Byte) (inPos : Nat) (s : State) :
    emit t inPos (c.apply s) = (emit t inPos s).map c.apply := by
  rw [emit, emit, apply_ite (Except.map c.apply)]
  rfl

theorem encLitrunFrom_apply (fuel a b : Nat) (s : State) :
    encLitrunFrom fuel a b (c.apply s) = (encLitrunFrom fuel a b s).map c.apply := by
  induction fuel generalizing a s with
  | zero => rfl
  | succ fuel ih =>
    have hchunk : encLiteral a (min (b - a) litMax) (c.apply s)
        = (encLiteral a (min (b - a) litMax) s).map c.apply := c.emit_apply ..
    simp only [encLitrunFrom, hchunk]
    split
    · cases encLiteral a (min (b - a) litMax) s with
      | error r => rfl
      | ok s1 => exact ih _ s1
    · rfl

theorem encLitrun_apply (a b : Nat) (s : State) :
    encLitrun a b (c.apply s) = (encLitrun a b s).map c.apply :=
  c.encLitrunFrom_apply ..

theorem emitHit_apply (ref len : Nat) (s : State) :
    emitHit ref len (c.apply s) = (emitHit ref len s).map c.apply := by
  simp only [emitHit, apply_work, encLitrun_apply]
  cases encLitrun s.work.anchor s.work.p s with
  | error r => rfl
  | ok s1 => exact c.emit_apply ..

theorem flushMove_apply (s : State) : flushMove (c.apply s) = c.apply (flushMove s) := by
  simp only [flushMove, apply_work, encLitrun_apply]
  cases encLitrun s.work.anchor s.work.n s with
  | error r => exact c.raise_apply ..
  | ok s1 => rfl

theorem matchLenFrom_apply (ref p fuel len : Nat) (s : State) :
    matchLenFrom (c.apply s) ref p fuel len = matchLenFrom s ref p fuel len := by
  induction fuel generalizing len with
  | zero => rfl
  | succ fuel ih => simp only [matchLenFrom, apply_work, inByte_congr (c.apply_inMem s), ih]

/-! ## COMPRESS with another level and window -/

section
variable (l : BitVec 4) (w : BitVec 32)

/-- Only an enforced window makes a hit unusable (R147, R227). -/
theorem usableLen_setWindow {s : State} (h : s.cfg.windowEnforced = false) (ref : Nat) :
    usableLen ref ((setWindow l w).apply s) = usableLen ref s := by
  simp only [usableLen, matchLen, apply_cfg, apply_work, matchLenFrom_apply, h, Bool.false_eq_true,
    false_and, if_false]

theorem updateOnHit_setWindow (s : State) :
    updateOnHit ((setWindow l w).apply s) = (setWindow l w).apply (updateOnHit s) := by
  rw [updateOnHit, updateOnHit, apply_ite (setWindow l w).apply]
  rfl

theorem clearOnCompress_setWindow (s : State) :
    clearOnCompress ((setWindow l w).apply s) = (setWindow l w).apply (clearOnCompress s) := by
  rw [clearOnCompress, clearOnCompress, apply_ite (setWindow l w).apply]
  rfl

theorem hitAt_setWindow (ref len : Nat) (s : State) :
    hitAt ref len ((setWindow l w).apply s) = (setWindow l w).apply (hitAt ref len s) := by
  simp only [hitAt, emitHit_apply]
  cases emitHit ref len s with
  | error r => exact raise_apply ..
  | ok s1 => exact congrArg (skipMatch ref len) (updateOnHit_setWindow l w s1)

theorem scanMove_setWindow {s : State} (h : s.cfg.windowEnforced = false) :
    scanMove ((setWindow l w).apply s) = (setWindow l w).apply (scanMove s) := by
  have hlookup : indexLookup ((setWindow l w).apply s).index
      (keyAt ((setWindow l w).apply s) ((setWindow l w).apply s).work.p)
        = indexLookup s.index (keyAt s s.work.p) := rfl
  rw [scanMove, scanMove, hlookup]
  cases indexLookup s.index (keyAt s s.work.p) with
  | none => rfl
  | some ref =>
    simp only [usableLen_setWindow l w h, apply_ite (setWindow l w).apply, ← hitAt_setWindow]
    rfl

theorem compressMove_setWindow {s : State} (h : s.cfg.windowEnforced = false) :
    compressMove ((setWindow l w).apply s) = (setWindow l w).apply (compressMove s) := by
  rw [compressMove, compressMove, scanMove_setWindow l w h, flushMove_apply, apply_ite (setWindow l w).apply]
  rfl

theorem exec_compress_setWindow {s t : State} (h : exec .compress s = .next t) :
    exec .compress ((setWindow l w).apply s) = .next ((setWindow l w).apply t) := by
  have herror : compressStartError ((setWindow l w).apply s) = compressStartError s := rfl
  simp only [exec, execCompress, herror] at h ⊢
  split at h
  next => cases h; simp only [raise_apply]
  next => cases h; simp only [clearOnCompress_setWindow, startCommand_apply]

theorem engineMove_setWindow_of_compress {s t : State} (henforced : s.cfg.windowEnforced = false)
    (hrun : s.engine = .compress) (h : engineMove s = .next t) :
    engineMove ((setWindow l w).apply s) = .next ((setWindow l w).apply t) := by
  simp only [engineMove, apply_engine, hrun] at h ⊢
  cases h
  rw [compressMove_setWindow l w henforced]

end

end ContextChange

/-! ## The statements -/

open ContextChange

/-- Settles O37: the start and every move commute with every change of the index and the context
registers, so none of them is read, and none is written. -/
theorem decompressIgnoresTheContext : Obligations.DecompressIgnoresTheContext := by
  unfold Obligations.DecompressIgnoresTheContext
  intro s t x v l w
  refine ⟨fun h => ?_, fun hrun h => ?_⟩
  · have hcommutes (c : ContextChange) := c.exec_decompress_apply h
    exact ⟨context_eq_of_commutes hcommutes h, hcommutes (replace x v l w)⟩
  · have hcommutes (c : ContextChange) := c.engineMove_apply_of_decompress hrun h
    exact ⟨context_eq_of_commutes hcommutes h, hcommutes (replace x v l w)⟩

/-- Settles O48: only `usableLen` reads the window, and only when it is enforced; nothing reads the level. -/
theorem windowHasNoEffectUnlessEnforced : Obligations.WindowHasNoEffectUnlessEnforced := by
  unfold Obligations.WindowHasNoEffectUnlessEnforced
  exact fun s t l w henforced =>
    ⟨exec_compress_setWindow l w, engineMove_setWindow_of_compress l w henforced⟩

end Sys2Proof.Machine
end

section
/-! The token rules: the size classes of literals (R171), and what a token of DECOMPRESS does (R175 to R182):
a literal copies its payload from IN and a match repeats the end of OUT, or they fail. -/

namespace Sys2Proof.Machine

/-! ## Size classes -/

/-- Settles O8: one case per range of R171. -/
theorem litclassIsTheSmallestClass : Obligations.LitclassIsTheSmallestClass := by
  unfold Obligations.LitclassIsTheSmallestClass litClass lit0Max lit1Max
  intro c _
  split
  next hshort => omega
  next hlong =>
    split
    next hmiddle => omega
    next hlongest => omega

/-! ## Literals -/

theorem failsUnspecified_literalBody_of_truncated {header len : Nat} {s : State}
    (h : s.work.n < s.work.i + header + len) :
    FailsUnspecified s 4 3 s.work.i s.work.o (.next (literalBody header len s)) := by
  rw [literalBody, if_pos h]
  exact failsUnspecified_malformed .truncated s

theorem failsUnspecified_literalBody_of_overCapacity {header len : Nat} {s : State}
    (hread : s.work.i + header + len ≤ s.work.n) (hover : s.work.cap < s.work.o + len) :
    FailsUnspecified s 3 0 s.work.i s.work.o (.next (literalBody header len s)) := by
  rw [literalBody, if_neg (Nat.not_lt.mpr hread), if_pos hover]
  exact failsUnspecified_overCapacity s

theorem advance_append (size : Nat) (t : List Byte) (s : State) :
    advance size (append t s)
      = withWork (append t s) { s.work with i := s.work.i + size, o := s.work.o + t.length } := rfl

theorem appendsBytes_literalBody {header len : Nat} {s : State}
    (hread : s.work.i + header + len ≤ s.work.n) (hfit : s.work.o + len ≤ s.work.cap) :
    AppendsBytes s { s.work with i := s.work.i + header + len, o := s.work.o + len }
      (inBytes s (s.work.i + header) len) (.next (literalBody header len s)) := by
  rw [literalBody, if_neg (Nat.not_lt.mpr hread), if_neg (Nat.not_lt.mpr hfit), advance_append,
    inBytes_length, ← Nat.add_assoc]
  exact appendsBytes_append _ s _

/-- One continuation byte below the header's bits (R106). -/
theorem litLength_one (s : State) (lenHi a : Nat) :
    litLength s lenHi 1 a = lenHi * 256 + (inByte s a).toNat := by
  simp [litLength, inBytes, beValue]

/-- Two continuation bytes below the header's bits (R106). -/
theorem litLength_two (s : State) (lenHi a : Nat) :
    litLength s lenHi 2 a = lenHi * 65536 + (inByte s a).toNat * 256 + (inByte s (a + 1)).toNat := by
  simp [litLength, inBytes, beValue, List.range_succ, Nat.add_assoc]

/-- A literal whose continuation bytes are cut off is truncated whatever its length is. -/
theorem literalBody_of_header_truncated {header : Nat} {s : State} (h : s.work.n < s.work.i + header)
    (len : Nat) : literalBody header len s = malformed .truncated s :=
  if_pos (Nat.lt_add_right len h)

theorem exec_lit1 (lenHi : Nat) (s : State) :
    exec (.lit1 lenHi) s = .next (literalBody 2 (litLength s lenHi 1 (s.work.i + 1)) s) := by
  simp only [exec, execLit1]
  split
  next hcut => rw [literalBody_of_header_truncated hcut]
  next => rfl

theorem exec_lit2 (lenHi : Nat) (s : State) :
    exec (.lit2 lenHi) s = .next (literalBody 3 (litLength s lenHi 2 (s.work.i + 1)) s) := by
  simp only [exec, execLit2]
  split
  next hcut => rw [literalBody_of_header_truncated hcut]
  next => rfl

/-- Settles O27: LIT0 is `literalBody` after its header byte. -/
theorem lit0CopiesOrFails : Obligations.Lit0CopiesOrFails := by
  unfold Obligations.Lit0CopiesOrFails
  exact fun s len => ⟨failsUnspecified_literalBody_of_truncated,
    failsUnspecified_literalBody_of_overCapacity, appendsBytes_literalBody⟩

/-- Settles O28: LIT1 is `literalBody` after its header and continuation byte; without that byte no length
fits into the input. -/
theorem lit1CopiesOrFails : Obligations.Lit1CopiesOrFails := by
  unfold Obligations.Lit1CopiesOrFails
  intro s lenHi len hlen
  rw [exec_lit1, litLength_one, ← hlen]
  exact ⟨fun h => failsUnspecified_literalBody_of_truncated (by omega),
    failsUnspecified_literalBody_of_overCapacity, appendsBytes_literalBody⟩

/-- Settles O29: LIT2 is `literalBody` after its header and continuation bytes; without both no length fits
into the input. -/
theorem lit2CopiesOrFails : Obligations.Lit2CopiesOrFails := by
  unfold Obligations.Lit2CopiesOrFails
  intro s lenHi len hlen
  rw [exec_lit2, litLength_two, ← hlen]
  exact ⟨fun h => failsUnspecified_literalBody_of_truncated (by omega),
    failsUnspecified_literalBody_of_overCapacity, appendsBytes_literalBody⟩

/-- Settles O30: LIT3 is `malformed`, whatever its low bits are. -/
theorem lit3IsAlwaysRejected : Obligations.Lit3IsAlwaysRejected := by
  unfold Obligations.Lit3IsAlwaysRejected
  exact fun s _ => failsUnspecified_malformed .reservedLiteralClass s

/-! ## The overlapping copy -/

theorem outByteOf_copyBack_outside (d : Draws) (dist : Nat) (m : Memory) {dst len c : Nat}
    (h : c < dst ∨ dst + len ≤ c) : outByteOf d (copyBack d dist m dst len) c = outByteOf d m c := by
  rw [outByteOf, sparseGet_copyBack_outside d dist len m dst c h, outByteOf]

/-- A copied byte is the byte `dist` before it in the result (R181). -/
theorem outByteOf_copyBack_eq_before (d : Draws) {dist dst : Nat} (hpos : 0 < dist) (hdist : dist ≤ dst)
    (m : Memory) {len j : Nat} (hj : j < len) :
    outByteOf d (copyBack d dist m dst len) (dst + j)
      = outByteOf d (copyBack d dist m dst len) (dst + j - dist) := by
  rw [outByteOf, outByteOf_copyBack d dist len hpos m dst j hdist hj, Option.getD_some]

/-- A copy repeats the `dist` bytes before it: going back by `dist` as often as it leads to a copied byte
ends at one of them (R181). -/
theorem outByteOf_copyBack_eq_source (d : Draws) {dist dst : Nat} (hpos : 0 < dist) (hdist : dist ≤ dst)
    (m : Memory) {len j : Nat} (hj : j < len) :
    outByteOf d (copyBack d dist m dst len) (dst + j) = outByteOf d m (dst - dist + j % dist) := by
  induction j using Nat.strong_induction_on with
  | _ j ih =>
    rw [outByteOf_copyBack_eq_before d hpos hdist m hj]
    rcases Nat.lt_or_ge j dist with hlt | hge
    · rw [outByteOf_copyBack_outside d dist m (by omega), Nat.mod_eq_of_lt hlt]
      congr 1
      omega
    · rw [Nat.add_sub_assoc hge, ih (j - dist) (by omega) (by omega), Nat.mod_eq_sub_mod hge]

/-! ## Matches -/

theorem appendsBytes_copyMatch (lc dc : Nat) {len dist : Nat} {s : State} (hpos : 1 ≤ dist)
    (hdist : dist ≤ s.work.o) :
    AppendsBytes s (copyMatch lc dc len dist s).work
      ((List.range len).map (fun j => outByte s (s.work.o - dist + j % dist)))
      (.next (copyMatch lc dc len dist s)) := by
  refine ⟨copyBack s.outDraws dist s.outMem s.work.o len, rfl, fun j hj => ?_, fun a ha => ?_⟩
  · rw [List.length_map, List.length_range] at hj
    rw [outByteOf_copyBack_eq_source s.outDraws hpos hdist s.outMem hj]
    simp [List.getD, hj, outByte]
  · rw [List.length_map, List.length_range] at ha
    exact outByteOf_copyBack_outside s.outDraws dist s.outMem ha

section

variable {lc dc : Nat} {s : State}

theorem matchBody_of_truncated (h : s.work.n < s.work.i + 1 + lc + dc) :
    matchBody lc dc s = malformed .truncated s := if_pos h

theorem matchBody_of_badDistance (hread : s.work.i + 1 + lc + dc ≤ s.work.n)
    (h : matchDistance lc dc s = 0 ∨ s.work.o < matchDistance lc dc s) :
    matchBody lc dc s = malformed .badDistance s := by
  rw [matchBody, if_neg (Nat.not_lt.mpr hread), if_pos h]

theorem matchBody_of_overCapacity (hread : s.work.i + 1 + lc + dc ≤ s.work.n)
    (hpos : 1 ≤ matchDistance lc dc s) (hdist : matchDistance lc dc s ≤ s.work.o)
    (h : s.work.cap < s.work.o + matchLength lc s) : matchBody lc dc s = overCapacity s := by
  rw [matchBody, if_neg (Nat.not_lt.mpr hread), if_neg (by omega), if_pos h]

theorem matchBody_of_fits (hread : s.work.i + 1 + lc + dc ≤ s.work.n)
    (hpos : 1 ≤ matchDistance lc dc s) (hdist : matchDistance lc dc s ≤ s.work.o)
    (h : s.work.o + matchLength lc s ≤ s.work.cap) :
    matchBody lc dc s = copyMatch lc dc (matchLength lc s) (matchDistance lc dc s) s := by
  rw [matchBody, if_neg (Nat.not_lt.mpr hread), if_neg (by omega), if_neg (Nat.not_lt.mpr h)]

end

theorem exec_matchRef (lc dc : Nat) (s : State) : exec (.matchRef lc dc) s = .next (matchBody lc dc s) := rfl

theorem exec_match10_of_malformed {s : State} (h : s.cfg.matchTag10 = .malformed) (lc dc : Nat) :
    exec (.match10 lc dc) s = .next (malformed .reservedMatchTag s) := by
  simp only [exec, execMatch10, h]

theorem exec_match10_of_asMatch {s : State} (h : s.cfg.matchTag10 = .asMatch) (lc dc : Nat) :
    exec (.match10 lc dc) s = exec (.matchRef lc dc) s := by
  simp only [exec, execMatch10, execMatchRef, h]

/-- Settles O31: the outcomes of `matchBody`, one lemma each; a copy repeats the bytes before it. -/
theorem matchCopiesOrFails : Obligations.MatchCopiesOrFails := by
  unfold Obligations.MatchCopiesOrFails
  rintro s lc dc len dist rfl rfl
  rw [exec_matchRef]
  refine ⟨fun hcut => ?_, fun hread hbad => ?_, fun hread hpos hdist hover => ?_,
    fun hread hpos hdist hfit => ?_⟩
  · rw [matchBody_of_truncated hcut]
    exact failsUnspecified_malformed .truncated s
  · rw [matchBody_of_badDistance hread hbad]
    exact failsUnspecified_malformed .badDistance s
  · rw [matchBody_of_overCapacity hread hpos hdist hover]
    exact failsUnspecified_overCapacity s
  · rw [matchBody_of_fits hread hpos hdist hfit]
    exact appendsBytes_copyMatch lc dc hpos hdist

/-- Settles O32: such a match is `copyMatch`, whose bytes are those of `copyBack`. -/
theorem copyReadsTheBytesItWrote : Obligations.CopyReadsTheBytesItWrote := by
  unfold Obligations.CopyReadsTheBytesItWrote
  rintro s t lc dc len dist rfl rfl hread hpos hdist hfit hexec j hj
  rw [exec_matchRef, matchBody_of_fits hread hpos hdist hfit] at hexec
  cases hexec
  exact outByteOf_copyBack_eq_before s.outDraws hpos hdist s.outMem hj

/-- Settles O33: under AS_MATCH the statement on MATCH is one on MATCH10. -/
theorem match10FollowsThePolicy : Obligations.Match10FollowsThePolicy := by
  unfold Obligations.Match10FollowsThePolicy
  intro s lc dc len dist hlen hdist
  refine ⟨fun hpolicy => ?_, fun hpolicy => exec_match10_of_asMatch hpolicy lc dc, fun hpolicy => ?_⟩
  · rw [exec_match10_of_malformed hpolicy]
    exact failsUnspecified_malformed .reservedMatchTag s
  · rw [exec_match10_of_asMatch hpolicy]
    obtain ⟨_, _, _, hcopies⟩ := matchCopiesOrFails s lc dc len dist hlen hdist
    exact hcopies

end Sys2Proof.Machine
end

section
/-! Where a scan step of COMPRESS fails: at the first of its tokens that does not fit (R174, R233, R334). -/

namespace Sys2Proof.Machine

/-! ## The first token that does not fit -/

/-- Written at the output cursor, the first `j` tokens of `ts` fit and the next one does not (R174). -/
structure FirstOverflow (s : State) (ts : List Token) (j : Nat) : Prop where
  lt_length : j < ts.length
  fits : s.work.o + (streamBytes (ts.take j)).length ≤ s.work.cap
  overflows : s.work.cap < s.work.o + (streamBytes (ts.take (j + 1))).length

/-- The error at token `j` of `ts`, whose data begins at `anchor` (R233, R334). -/
def overflowRaise (s : State) (ts : List Token) (j : Nat) : Raise where
  status := .outputCapacity
  detail := .none
  inPos := s.work.anchor + ((ts.take j).flatMap Token.payload).length
  outPos := s.work.o + (streamBytes (ts.take j)).length

/-- Raised in the state before the step, the error keeps the index (R340); OUT is unspecified, the tokens that
did fit included (R339). -/
theorem failsUnspecified_overflowRaise (s : State) (ts : List Token) (j : Nat) :
    FailsUnspecified s 3 0 (s.work.anchor + ((ts.take j).flatMap Token.payload).length)
      (s.work.o + (streamBytes (ts.take j)).length) (.next (raise true (overflowRaise s ts j) s)) :=
  failsUnspecified_raise (overflowRaise s ts j) s rfl

/-- The first token that does not fit is one of a run's, or the token after the run. -/
theorem FirstOverflow.of_append_singleton {s : State} {run : List Token} {tok : Token} {j : Nat}
    (h : FirstOverflow s (run ++ [tok]) j) :
    FirstOverflow s run j ∨
      j = run.length ∧ s.work.o + (streamBytes run).length ≤ s.work.cap ∧
        s.work.cap < s.work.o + (streamBytes run).length + tok.encode.length := by
  obtain ⟨hlt, hfits, hover⟩ := h
  rw [List.length_append, List.length_singleton] at hlt
  rcases Nat.lt_succ_iff_lt_or_eq.mp hlt with hrun | rfl
  · rw [List.take_append_of_le_length hrun.le] at hfits
    rw [List.take_append_of_le_length hrun] at hover
    exact .inl ⟨hrun, hfits, hover⟩
  · rw [List.take_left] at hfits
    rw [List.take_of_length_le (by simp), streamBytes_append, streamBytes_cons, List.length_append] at hover
    exact .inr ⟨rfl, hfits, by simpa [streamBytes, Nat.add_assoc] using hover⟩

/-! ## Emitting the tokens -/

theorem encLitrun_of_firstOverflow {s : State} {b j : Nat}
    (h : FirstOverflow s (litRun (inBytes s s.work.anchor (b - s.work.anchor))) j) :
    encLitrun s.work.anchor b s
      = .error (overflowRaise s (litRun (inBytes s s.work.anchor (b - s.work.anchor))) j) :=
  encLitrun_error s.work.anchor b j s h.lt_length h.fits h.overflows

theorem encMatch_of_overflow {len dist p : Nat} {s : State}
    (h : s.work.cap < s.work.o + (canonicalReference len dist).encode.length) :
    encMatch len dist p s = .error ⟨.outputCapacity, .none, p, s.work.o⟩ := if_pos h

/-- The payloads of the pending run end at `p`, where the data of the match begins. -/
theorem emitHit_of_firstOverflow {s : State} {ref len j : Nat} (hanchor : s.work.anchor ≤ s.work.p)
    (h : FirstOverflow s (hitTokens ref len s) j) :
    emitHit ref len s = .error (overflowRaise s (hitTokens ref len s) j) := by
  unfold emitHit
  rcases h.of_append_singleton with hrun | ⟨rfl, hfits, hover⟩
  · rw [encLitrun_of_firstOverflow hrun]
    simp only [overflowRaise, hitTokens, List.take_append_of_le_length hrun.lt_length.le]
  · rw [encLitrun_ok _ _ s hfits]
    refine (encMatch_of_overflow (s := append _ s) hover).trans ?_
    simp only [overflowRaise, hitTokens, List.take_left, payload_flatMap_litRun, inBytes_length, append_o,
      Nat.add_sub_cancel' hanchor]

/-! ## Steps -/

theorem usableLen_eq_matchLen {ref : Nat} {s : State}
    (h : s.cfg.windowEnforced = true → s.work.p - ref ≤ s.ctxWindow.toNat) :
    usableLen ref s = matchLen s ref s.work.p := by
  refine if_neg fun ⟨henforced, _, hfar⟩ => ?_
  exact absurd (h henforced) (Nat.not_le.mpr hfar)

/-- A scan step with a usable hit writes its tokens (R225, R230). -/
theorem scanMove_of_usable_hit {s : State} {ref : Nat}
    (href : indexLookup s.index (keyAt s s.work.p) = some ref) (hpos : 0 < usableLen ref s) :
    scanMove s = hitAt ref (usableLen ref s) (lookupKey s) := by
  simp only [scanMove, href, if_neg hpos.ne']

theorem step_flush {s : State} (hhost : s.host = []) (hrun : s.engine = .compress)
    (hp : s.work.n < s.work.p + 4) : step s = .next (flushMove s) := by
  have hflush : compressMove s = flushMove s := if_neg (Nat.not_le.mpr hp)
  rw [step_of_host_nil hhost, engineMove, hrun, ← hflush]

/-- Settles O41: `emitHit` fails at the first token of the hit that does not fit, before the optional
insert. -/
theorem scanHitFailsAtTheTokenThatDoesNotFit : Obligations.ScanHitFailsAtTheTokenThatDoesNotFit := by
  unfold Obligations.ScanHitFailsAtTheTokenThatDoesNotFit
  rintro s ref len j ts hhost hrun hp hanchor href hlen hpos hwindow rfl hj hfits hover
  rw [← usableLen_eq_matchLen hwindow] at hlen
  subst hlen
  have hemit : emitHit ref (usableLen ref s) (lookupKey s) = _ :=
    emitHit_of_firstOverflow (s := lookupKey s) hanchor ⟨hj, hfits, hover⟩
  rw [step_scan hhost hrun hp, scanMove_of_usable_hit href hpos, hitAt, hemit]
  exact failsUnspecified_overflowRaise (lookupKey s) _ j

/-- Settles O43: the flush fails at the first token of the tail that does not fit. -/
theorem scanEndFailsAtTheTokenThatDoesNotFit : Obligations.ScanEndFailsAtTheTokenThatDoesNotFit := by
  unfold Obligations.ScanEndFailsAtTheTokenThatDoesNotFit
  rintro s j ts hhost hrun hp rfl hj hfits hover
  rw [step_flush hhost hrun hp, flushMove, encLitrun_of_firstOverflow ⟨hj, hfits, hover⟩]
  exact failsUnspecified_overflowRaise s _ j

end Sys2Proof.Machine
end

section
/-! The start of COMPRESS (R221 to R223), MATCHLEN (R226), and the moves of the scan whose tokens fit (R230,
R232). -/

namespace Sys2Proof.Machine

/-! ## The start -/

theorem exec_compress_of_error {s : State} {r : Raise} (h : compressStartError s = some r) :
    exec .compress s = .next (raise true r s) := by
  simp only [exec, execCompress, h]

theorem exec_compress_of_start {s : State} (h : compressStartError s = none) :
    exec .compress s = .next (startCommand .compress (clearOnCompress s)) := by
  simp only [exec, execCompress, h]

theorem clearOnCompress_eq (s : State) :
    clearOnCompress s = withIndex s (if s.cfg.clearIndexOnCompress then [] else s.index) := by
  unfold clearOnCompress
  split <;> rfl

theorem endsPlainly_raise_plainRaise {st : Status} (h : leavesOutUnspecified st = false) (s : State) :
    EndsPlainly s (statusCode st) 0 (.next (raise true (plainRaise st) s)) := by
  rw [raise_plainRaise true st s h]
  exact ⟨Work.idle, rfl⟩

theorem compressStartError_of_ok {s : State} (hvalid : s.ctxValid = 1) (hmin : 4 ≤ s.argInLen.toNat)
    (hmax : s.argInLen.toNat ≤ s.cfg.nMax) (hcap : s.argOutCap.toNat ≤ s.cfg.capMax) :
    compressStartError s = none :=
  (compressStartError_eq_none s).mpr ⟨by simp [hvalid], (sizeError_eq_none s).mpr ⟨hmin, hmax, hcap⟩⟩

theorem compressStartError_of_bad_size {s : State} (hvalid : s.ctxValid = 1)
    (h : s.argInLen.toNat < 4 ∨ s.cfg.nMax < s.argInLen.toNat ∨ s.cfg.capMax < s.argOutCap.toNat) :
    compressStartError s = some (plainRaise .invalidParam) := by
  have hsize : compressStartError s = sizeError s := if_neg (by simp [hvalid])
  rw [hsize]
  cases hres : sizeError s with
  | none =>
    obtain ⟨hmin, hmax, hcap⟩ := (sizeError_eq_none s).mp hres
    have hmin : 4 ≤ s.argInLen.toNat := hmin
    omega
  | some r => rw [sizeError_eq_some hres]

/-- Settles O38: one case for each answer of the start check. -/
theorem compressStartsOrFails : Obligations.CompressStartsOrFails := by
  unfold Obligations.CompressStartsOrFails
  refine fun s => ⟨fun hvalid => ?_, fun hvalid hsize => ?_, fun hvalid hmin hmax hcap => ?_⟩
  · have herr : compressStartError s = some (plainRaise .noContext) := if_pos hvalid
    rw [exec_compress_of_error herr]
    exact endsPlainly_raise_plainRaise rfl s
  · rw [exec_compress_of_error (compressStartError_of_bad_size hvalid hsize)]
    exact endsPlainly_raise_plainRaise rfl s
  · rw [exec_compress_of_start (compressStartError_of_ok hvalid hmin hmax hcap), clearOnCompress_eq]
    rfl

/-! ## MATCHLEN -/

/-- The loop of R226 stops where a bound is reached or the bytes differ. -/
theorem matchLenFrom_stops (s : State) (ref p : Nat) {fuel len : Nat} (hfuel : s.work.n ≤ p + len + fuel) :
    ¬(ref + matchLenFrom s ref p fuel len < p ∧ p + matchLenFrom s ref p fuel len < s.work.n ∧
      inByte s (ref + matchLenFrom s ref p fuel len) = inByte s (p + matchLenFrom s ref p fuel len)) := by
  induction fuel generalizing len with
  | zero =>
    rintro ⟨_, hlt, _⟩
    exact absurd hlt (Nat.not_lt.mpr hfuel)
  | succ fuel ih =>
    unfold matchLenFrom
    split
    next => exact ih (by omega)
    next hstop => exact hstop

/-- Settles O11: what the loop passes matches before `p`, and it passes all it may. -/
theorem matchlenIsTheGreatestLength : Obligations.MatchlenIsTheGreatestLength := by
  unfold Obligations.MatchlenIsTheGreatestLength
  intro s ref p hp
  obtain ⟨hbefore, hbytes⟩ : MatchesBefore s ref p (matchLen s ref p) :=
    matchesBefore_matchLenFrom (matchesBefore_zero s ref p) (s.work.n - p)
  refine ⟨fun hle => ?_, fun hlt => ?_, matchLenFrom_le s ref p _ 0 hp, hbytes, fun href hn heq => ?_⟩
  · by_contra hne
    have := hbefore (Nat.pos_of_ne_zero hne)
    omega
  · rcases Nat.eq_zero_or_pos (matchLen s ref p) with hzero | hpos
    · omega
    · exact hbefore hpos
  · exact matchLenFrom_stops s ref p (len := 0) (by omega) ⟨href, hn, heq⟩

/-! ## Moves whose tokens fit -/

theorem emitHit_ok {ref len : Nat} {s : State}
    (h : s.work.o + (streamBytes (hitTokens ref len s)).length ≤ s.work.cap) :
    emitHit ref len s = .ok (append (streamBytes (hitTokens ref len s)) s) := by
  have hsplit : streamBytes (hitTokens ref len s)
      = streamBytes (litRun (inBytes s s.work.anchor (s.work.p - s.work.anchor))) ++
        (canonicalReference len (s.work.p - ref)).encode := by
    simp [hitTokens, streamBytes]
  rw [hsplit, List.length_append] at h
  rw [hsplit, emitHit, encLitrun_ok _ _ s (by omega), ← append_append]
  rcases encMatch_cases len (s.work.p - ref) s.work.p
      (append (streamBytes (litRun (inBytes s s.work.anchor (s.work.p - s.work.anchor)))) s) with
    ⟨_, hok⟩ | ⟨hover, _⟩
  · exact hok
  · rw [append_o, append_cap] at hover
    omega

theorem updateOnHit_eq (s : State) :
    updateOnHit s = withIndex s
      (if s.cfg.indexUpdateOnHit then indexInsert s.index (keyAt s s.work.p) s.work.p else s.index) := by
  unfold updateOnHit
  split <;> rfl

/-- A hit whose tokens fit writes them (R230). -/
theorem hitAt_of_fits {ref len : Nat} {s : State}
    (h : s.work.o + (streamBytes (hitTokens ref len s)).length ≤ s.work.cap) :
    hitAt ref len s = skipMatch ref len (updateOnHit (append (streamBytes (hitTokens ref len s)) s)) := by
  rw [hitAt, emitHit_ok h]

/-- A tail that fits is written, and the command completes (R231, R232). -/
theorem flushMove_of_fits {s : State}
    (h : s.work.o + (streamBytes (litRun (inBytes s s.work.anchor (s.work.n - s.work.anchor)))).length
      ≤ s.work.cap) :
    flushMove s
      = complete (append (streamBytes (litRun (inBytes s s.work.anchor (s.work.n - s.work.anchor)))) s) := by
  rw [flushMove, encLitrun_ok _ _ s h]

/-- Settles O40: the step is `hitAt` with all tokens written. -/
theorem scanHitEmitsRunAndMatch : Obligations.ScanHitEmitsRunAndMatch := by
  unfold Obligations.ScanHitEmitsRunAndMatch
  rintro s ref len bytes hhost hrun hp href hlen hpos hwindow rfl hfit
  rw [← usableLen_eq_matchLen hwindow] at hlen
  subst hlen
  have hstep : step s = .next (skipMatch ref (usableLen ref s)
      (updateOnHit (append (streamBytes (hitTokens ref (usableLen ref s) s)) (lookupKey s)))) := by
    rw [step_scan hhost hrun hp, scanMove_of_usable_hit href hpos, hitAt_of_fits (s := lookupKey s) hfit]
    rfl
  rw [hstep, updateOnHit_eq, lookupKey, href]
  exact appendsBytes_append _ { s with index :=
    if s.cfg.indexUpdateOnHit then indexInsert s.index (keyAt s s.work.p) s.work.p else s.index } _

/-- Settles O42: the step is `flushMove` with the whole tail written. -/
theorem scanEndFlushesAndCompletes : Obligations.ScanEndFlushesAndCompletes := by
  unfold Obligations.ScanEndFlushesAndCompletes
  intro s bytes hhost hrun hp hbytes hfit
  rw [hbytes] at hfit
  rw [step_flush hhost hrun hp, flushMove_of_fits hfit, ← hbytes]
  obtain ⟨m, hm, hwritten, hrest⟩ := appendsBytes_append bytes s s.work
  cases hm
  exact ⟨_, Work.idle, rfl, hwritten, hrest⟩

end Sys2Proof.Machine
end

section
/-! COMPRESS comes to rest: a move of the scan advances `p`, and the command ends with OK or OUTPUT_CAPACITY
(R228, R233, R235). -/

namespace Sys2Proof.Machine

/-! ## Running until the core rests -/

theorem run_succ_of_step (M : Host.Core) {s u : M.State} (h : M.step s = .next u) (k : Nat) :
    M.run (k + 1) s = M.run k u := by
  rw [Host.Core.run, h]

/-- If each step from a state with `P` comes to rest with `Q`, or keeps `P` and lowers `rank`, a run from `P` comes
to rest with `Q` within `rank` moves and one more. -/
theorem exists_run_to_rest {P Q : State → Prop} {rank : State → Nat}
    (hstep : ∀ u, P u → ∃ v, step u = .next v ∧ (P v ∧ rank v < rank u ∨ RestsWith Q v))
    {u : State} (hu : P u) : ∃ k ≤ rank u + 1, ∃ t, Host.Core.run core k u = .next t ∧ RestsWith Q t := by
  induction hrank : rank u using Nat.strong_induction_on generalizing u with
  | _ r ih =>
    obtain ⟨v, hv, ⟨hP, hlt⟩ | hrest⟩ := hstep u hu
    · obtain ⟨k, hk, t, hrun, hrest⟩ := ih (rank v) (hrank ▸ hlt) hP rfl
      exact ⟨k + 1, by omega, t, (run_succ_of_step core hv k).trans hrun, hrest⟩
    · exact ⟨1, by omega, v, run_succ_of_step core hv 0, hrest⟩

/-! ## The moves of COMPRESS -/

/-- COMPRESS ended with one of the results R235 allows it once its scan runs. -/
def EndsOkOrFull (t : State) : Prop := (t.status = 0 ∨ t.status = 3) ∧ t.detail = 0

theorem endsOkOrFull_raise {r : Raise} (hstatus : r.status = .outputCapacity) (hdetail : r.detail = .none)
    (s : State) : EndsOkOrFull (raise true r s) := by
  refine ⟨.inr ?_, ?_⟩
  · exact congrArg statusCode hstatus
  · exact congrArg detailCode hdetail

theorem endsOkOrFull_complete (s : State) : EndsOkOrFull (complete s) := ⟨.inl rfl, rfl⟩

theorem endsOkOrFull_hitAt {s : State} {ref len : Nat} (hidle : (hitAt ref len s).engine = .idle)
    (hrun : s.engine = .compress) : EndsOkOrFull (hitAt ref len s) := by
  unfold hitAt at hidle ⊢
  rcases emitHit_cases ref len s with ⟨t, ht, _⟩ | ⟨r, hr, hstatus, hdetail⟩
  · obtain ⟨x, hx⟩ := updateOnHit_eq_withIndex (append t s)
    simp only [ht, hx] at hidle
    exact absurd (hrun.symm.trans hidle) (by decide)
  · rw [hr]
    exact endsOkOrFull_raise hstatus hdetail s

/-- A miss does not end the command, a hit ends it only where a token does not fit. -/
theorem endsOkOrFull_scanMove {s : State} (hidle : (scanMove s).engine = .idle) (hrun : s.engine = .compress) :
    EndsOkOrFull (scanMove s) := by
  have hmiss : (missAt (lookupKey s)).engine ≠ .idle := by simp [missAt, lookupKey, hrun]
  unfold scanMove at hidle ⊢
  split at hidle
  next => exact absurd hidle hmiss
  next ref href =>
    split at hidle
    next => exact absurd hidle hmiss
    next hlen =>
      rw [if_neg hlen]
      exact endsOkOrFull_hitAt hidle hrun

theorem flushMove_engine (s : State) : (flushMove s).engine = .idle := by
  unfold flushMove
  split <;> rfl

theorem endsOkOrFull_flushMove (s : State) : EndsOkOrFull (flushMove s) := by
  unfold flushMove
  rcases encLitrun_cases s.work.anchor s.work.n s with ⟨t, ht, _⟩ | ⟨r, hr, hstatus, hdetail⟩
  · rw [ht]
    exact endsOkOrFull_complete _
  · rw [hr]
    exact endsOkOrFull_raise hstatus hdetail s

theorem engineMove_of_compress {s : State} (hrun : s.engine = .compress) : engineMove s = .next (compressMove s) := by
  rw [engineMove, hrun]

theorem compressMove_host {s : State} (hrun : s.engine = .compress) : (compressMove s).host = s.host := by
  obtain ⟨_, _, _, _, _, _, _, _, hhost, _⟩ :=
    engineMoveLeavesInputsAndContext s _ (engineMove_of_compress hrun)
  exact hhost

/-- COMPRESS runs and the host does nothing meanwhile. -/
def Scanning (s : State) : Prop := s.host = [] ∧ s.engine = .compress

theorem step_of_scanning {s : State} (h : Scanning s) : step s = .next (compressMove s) := by
  obtain ⟨hhost, hrun⟩ := h
  rw [step_of_host_nil hhost, engineMove_of_compress hrun]

/-- How many moves the scan has left at most (R224). -/
def scanRank (s : State) : Nat := s.work.n - 3 - s.work.p

/-- A move of COMPRESS goes on with the scan, which comes nearer to its end, or rests with a result (R235). -/
theorem compressMove_advances_or_rests {s : State} (h : Scanning s) :
    Scanning (compressMove s) ∧ scanRank (compressMove s) < scanRank s ∨
      RestsWith EndsOkOrFull (compressMove s) := by
  obtain ⟨hhost, hrun⟩ := h
  have hhost' : (compressMove s).host = [] := (compressMove_host hrun).trans hhost
  rcases Nat.lt_or_ge s.work.n (s.work.p + 4) with hend | hscan
  · have hflush : compressMove s = flushMove s := if_neg (Nat.not_le.mpr hend)
    rw [hflush] at hhost' ⊢
    exact .inr ⟨hhost', flushMove_engine s, endsOkOrFull_flushMove s⟩
  · by_cases hidle : (compressMove s).engine = .idle
    · have hmove : compressMove s = scanMove s := if_pos hscan
      rw [hmove] at hhost' hidle ⊢
      exact .inr ⟨hhost', hidle, endsOkOrFull_scanMove hidle hrun⟩
    · obtain ⟨hengine, hn, _, hcursor⟩ :=
        cursorsAdvanceWithEveryMove s _ (engineMove_of_compress hrun) hidle
      obtain ⟨hlt, _⟩ := hcursor hrun
      refine .inl ⟨⟨hhost', hengine.trans hrun⟩, ?_⟩
      unfold scanRank
      omega

/-- Settles O44: the scan starts with `n - 3` moves left at most, and one move more ends the command. -/
theorem compressAlwaysCompletes : Obligations.CompressAlwaysCompletes := by
  unfold Obligations.CompressAlwaysCompletes
  intro s hhost hvalid hmin hmax hcap
  obtain ⟨_, _, hstart⟩ := compressStartsOrFails s
  obtain ⟨u, hexec, hscan, hrank⟩ :
      ∃ u, exec .compress s = .next u ∧ Scanning u ∧ scanRank u = s.argInLen.toNat - 3 :=
    ⟨_, hstart hvalid hmin hmax hcap, ⟨hhost, rfl⟩, rfl⟩
  obtain ⟨k, hk, t, hrun, _, hidle, hends⟩ := exists_run_to_rest
    (fun v hv => ⟨_, step_of_scanning hv, compressMove_advances_or_rests hv⟩) hscan
  exact ⟨t, ⟨u, hexec, k, by omega, hrun, hidle⟩, hends⟩

end Sys2Proof.Machine
end

section
/-! What COMPRESS spends on its input (R236, R378): a literal run at most 2 bytes for each of its own, a match at
most `r` for each byte it covers, so a capacity of `r * n` suffices. -/

namespace Sys2Proof

/-! ## The cost of a token -/

theorem byteWidth_le_self (v : Nat) : byteWidth v ≤ v :=
  byteWidth_le (Nat.lt_two_pow_self.trans_le (Nat.pow_le_pow_right (by decide) (by omega)))

theorem byteWidth_mono {v w : Nat} (h : v ≤ w) (hw : w < 2 ^ 64) : byteWidth v ≤ byteWidth w :=
  byteWidth_le (h.trans_lt (lt_two_pow_byteWidthFrom (k := 0) hw))

theorem litHeader_length {cls : Nat} (h : cls ≤ 2) (c : Nat) : (litHeader cls c).length = cls + 1 := by
  interval_cases cls
  · rfl
  · simp [litHeader, beBytes_length]
  · simp [litHeader, beBytes_length]

theorem litClass_le_two (c : Nat) : litClass c ≤ 2 := by
  unfold litClass
  split
  · omega
  · split <;> omega

/-- The header of a literal is no longer than its payload (R171). -/
theorem litClass_lt {c : Nat} (h : 1 ≤ c) : litClass c < c := by
  unfold litClass lit0Max lit1Max
  split
  · omega
  · split <;> omega

theorem length_encode_literal_le {payload : List Byte} (h : payload ≠ []) :
    (Token.literal (litClass payload.length) payload).encode.length ≤ 2 * payload.length := by
  have hclass := litClass_lt (List.length_pos_iff.mpr h)
  rw [Token.encode, List.length_append, litHeader_length (litClass_le_two _)]
  omega

theorem length_encode_canonicalReference (len dist : Nat) :
    (canonicalReference len dist).encode.length = 1 + byteWidth len + byteWidth dist := by
  simp [canonicalReference, Token.encode, beBytes_length]
  omega

end Sys2Proof

namespace Sys2Proof.Machine

theorem length_streamBytes_litRun_le (run : List Byte) :
    (streamBytes (litRun run)).length ≤ 2 * run.length := by
  induction run using litRun_induction with
  | nil => exact le_refl 0
  | cons run hne ih =>
    have hchunk := length_encode_literal_le (payload := run.take litMax) (by simpa [litMax] using hne)
    have hsplit := congrArg List.length (List.take_append_drop litMax run)
    rw [List.length_append] at hsplit
    rw [streamBytes_cons, List.length_append]
    omega

theorem length_streamBytes_hitTokens_le (ref len : Nat) (s : State) :
    (streamBytes (hitTokens ref len s)).length
      ≤ 2 * (s.work.p - s.work.anchor) + (1 + byteWidth len + byteWidth (s.work.p - ref)) := by
  have hrun := length_streamBytes_litRun_le (inBytes s s.work.anchor (s.work.p - s.work.anchor))
  rw [inBytes_length] at hrun
  rw [hitTokens, streamBytes_append, List.length_append, streamBytes_cons, List.length_append,
    length_encode_canonicalReference]
  exact Nat.add_le_add hrun (le_refl _)

/-! ## The length of a match -/

theorem usableLen_of_pos {ref : Nat} {s : State} (h : 0 < usableLen ref s) :
    usableLen ref s = matchLen s ref s.work.p := by
  unfold usableLen at h ⊢
  split at h
  next => exact absurd h (lt_irrefl 0)
  next hkeep => rw [if_neg hkeep]

/-- Every entry of the index is an offset where its key stands in IN: nothing an earlier input left (R229). -/
def KeysRecorded (s : State) : Prop := ∀ k off, indexLookup s.index k = some off → keyAt s off = k

/-- A match whose four first bytes agree ends before the fifth only at `p` (R226). -/
theorem matchLen_of_same_key {s : State} {ref p : Nat} (hp : p + 4 ≤ s.work.n) (hkey : keyAt s ref = keyAt s p)
    (hlt : ref < p) : 4 ≤ matchLen s ref p ∨ matchLen s ref p = p - ref := by
  obtain ⟨_, hle, _, _, hstop⟩ := matchlenIsTheGreatestLength s ref p (by omega)
  have hle := hle hlt
  by_contra hshort
  exact hstop (by omega) (by omega)
    ((keysAreEqualWhenTheirBytesAre s ref p).mp hkey (matchLen s ref p) (by omega))

/-! ## The cost of a run -/

/-- In a run of COMPRESS from `s` what is written so far cost at most `r` for each byte of input it stands for, and
`r` is a rate that pays for every match. -/
structure Economical (r : Nat) (s u : State) : Prop where
  compressing : Compressing s u
  spent : u.work.o ≤ r * u.work.anchor
  rate : r = 2 + byteWidth u.work.n ∨ r = 3 ∧ KeysRecorded u

/-- COMPRESS ended with OK and wrote at most `bound` bytes. -/
def EndsWithin (bound : Nat) (t : State) : Prop := t.status = 0 ∧ t.bytesWritten.toNat ≤ bound

theorem Economical.two_le {r : Nat} {s u : State} (h : Economical r s u) : 2 ≤ r := by
  rcases h.rate with rfl | ⟨rfl, _⟩
  · omega
  · omega

/-- A rate pays for a match (R173): its distance takes as many bytes as `n` at most, and in a fresh index a match
covers 4 bytes, or it covers its whole distance. -/
theorem Economical.pays {r : Nat} {s u : State} (h : Economical r s u) (hn : u.work.n < 2 ^ 56)
    (hp : u.work.p + 4 ≤ u.work.n) {ref : Nat} (href : indexLookup u.index (keyAt u u.work.p) = some ref)
    (hpos : 0 < usableLen ref u) :
    1 + byteWidth (usableLen ref u) + byteWidth (u.work.p - ref) ≤ r * usableLen ref u := by
  have hlen := byteWidth_le_self (usableLen ref u)
  rcases h.rate with rfl | ⟨rfl, hkeys⟩
  · have hdist : byteWidth (u.work.p - ref) ≤ byteWidth u.work.n := byteWidth_mono (by omega) (by omega)
    nlinarith
  · obtain ⟨hbefore, _⟩ := matchesBefore_usableLen ref u
    have hbefore := hbefore hpos
    have hdist : byteWidth (u.work.p - ref) ≤ 7 := byteWidth_le (by omega)
    have hdist' := byteWidth_le_self (u.work.p - ref)
    have hsame := matchLen_of_same_key hp (hkeys _ _ href) (by omega)
    rw [← usableLen_of_pos hpos] at hsame
    omega

/-- The tokens of a hit stay within what the input up to the end of the match pays for. -/
theorem Economical.hit_le {r : Nat} {s u : State} (h : Economical r s u) (hn : u.work.n < 2 ^ 56)
    (hp : u.work.p + 4 ≤ u.work.n) {ref : Nat} (href : indexLookup u.index (keyAt u u.work.p) = some ref)
    (hpos : 0 < usableLen ref u) :
    u.work.o + (streamBytes (hitTokens ref (usableLen ref u) u)).length
      ≤ r * (u.work.p + usableLen ref u) := by
  have htokens := length_streamBytes_hitTokens_le ref (usableLen ref u) u
  have hpays := h.pays hn hp href hpos
  have hrun := Nat.mul_le_mul_right (u.work.p - u.work.anchor) h.two_le
  calc u.work.o + (streamBytes (hitTokens ref (usableLen ref u) u)).length
      ≤ r * u.work.anchor + (r * (u.work.p - u.work.anchor) + r * usableLen ref u) := by
        have := h.spent
        omega
    _ = r * (u.work.p + usableLen ref u) := by
        rw [← Nat.mul_add, ← Nat.mul_add, ← Nat.add_assoc, Nat.add_sub_cancel' h.compressing.anchor_le]

/-- The tokens of the tail stay within what the whole input pays for. -/
theorem Economical.tail_le {r : Nat} {s u : State} (h : Economical r s u) :
    u.work.o + (streamBytes (litRun (inBytes u u.work.anchor (u.work.n - u.work.anchor)))).length
      ≤ r * u.work.n := by
  have htokens := length_streamBytes_litRun_le (inBytes u u.work.anchor (u.work.n - u.work.anchor))
  rw [inBytes_length] at htokens
  have hrun := Nat.mul_le_mul_right (u.work.n - u.work.anchor) h.two_le
  have hanchor : u.work.anchor ≤ u.work.n := h.compressing.anchor_le.trans h.compressing.p_le
  calc u.work.o + _ ≤ r * u.work.anchor + r * (u.work.n - u.work.anchor) := by
        have := h.spent
        omega
    _ = r * u.work.n := by rw [← Nat.mul_add, Nat.add_sub_cancel' hanchor]

/-! ## Moves -/

@[simp] theorem append_engine (t : List Byte) (s : State) : (append t s).engine = s.engine := rfl
@[simp] theorem lookupKey_engine (s : State) : (lookupKey s).engine = s.engine := rfl
@[simp] theorem skipMatch_engine (ref len : Nat) (s : State) : (skipMatch ref len s).engine = s.engine := rfl

theorem keyAt_congr {s t : State} (h : t.inMem = s.inMem) (p : Nat) : keyAt t p = keyAt s p := by
  rw [keyAt, inBytes_congr h, keyAt]

/-- The scan records keys where they stand (R229, R230). -/
theorem KeysRecorded.insert {s t : State} (h : KeysRecorded s) (hin : t.inMem = s.inMem) {p : Nat}
    (hindex : t.index = indexInsert s.index (keyAt s p) p) : KeysRecorded t := by
  intro k off hk
  rw [hindex, indexLookup_indexInsert] at hk
  rw [keyAt_congr hin]
  split at hk
  next hsame => cases hk; exact hsame.symm
  next => exact h k off hk

theorem KeysRecorded.updateOnHit {s : State} (h : KeysRecorded s) : KeysRecorded (updateOnHit s) := by
  unfold Machine.updateOnHit
  split
  · exact h.insert rfl rfl
  · exact h

/-- A scan step is a miss, or a hit at a usable reference (R225 to R230). -/
theorem scanMove_cases (s : State) :
    scanMove s = missAt (lookupKey s) ∨
      ∃ ref, indexLookup s.index (keyAt s s.work.p) = some ref ∧ 0 < usableLen ref s ∧
        scanMove s = hitAt ref (usableLen ref s) (lookupKey s) := by
  by_cases h : ∀ ref, indexLookup s.index (keyAt s s.work.p) = some ref → usableLen ref s = 0
  · exact .inl (scanMove_of_no_usable_hit h)
  · push Not at h
    obtain ⟨ref, href, hlen⟩ := h
    have hpos := Nat.pos_of_ne_zero hlen
    exact .inr ⟨ref, href, hpos, scanMove_of_usable_hit href hpos⟩

section

variable {r : Nat} {s u : State}

theorem economical_missAt (h : Economical r s u) (hp : u.work.p < u.work.n) :
    Economical r s (missAt (lookupKey u)) where
  compressing := compressing_missAt h.compressing hp
  spent := h.spent
  rate := h.rate.imp_right fun ⟨hr, hkeys⟩ => ⟨hr, hkeys.insert rfl rfl⟩

/-- A hit fits the capacity, so the command goes on. -/
theorem economical_hitAt (h : Economical r s u) (hn : u.work.n < 2 ^ 56) (hbudget : r * u.work.n ≤ u.work.cap)
    (hp : u.work.p + 4 ≤ u.work.n) {ref : Nat} (href : indexLookup u.index (keyAt u u.work.p) = some ref)
    (hpos : 0 < usableLen ref u) : Economical r s (hitAt ref (usableLen ref u) (lookupKey u)) := by
  have hend : u.work.p + usableLen ref u ≤ u.work.n := usableLen_le ref h.compressing.p_le
  have hcost := h.hit_le hn hp href hpos
  have hhit := hitAt_of_fits (ref := ref) (len := usableLen ref u) (s := lookupKey u)
    (hcost.trans ((Nat.mul_le_mul_left r hend).trans hbudget))
  have hkeep := compressing_or_rests_hitAt (compressing_lookupKey h.compressing) hpos hend
    (matchesBefore_usableLen ref u)
  have htokens : hitTokens ref (usableLen ref u) (lookupKey u) = hitTokens ref (usableLen ref u) u := rfl
  rw [htokens, updateOnHit_eq] at hhit
  rw [hhit] at hkeep ⊢
  generalize streamBytes (hitTokens ref (usableLen ref u) u) = bytes at hcost hkeep ⊢
  refine ⟨?_, hcost, ?_⟩
  · rcases hkeep with hkeep | ⟨_, hidle, _⟩
    · exact hkeep
    · simp [h.compressing.running] at hidle
  · rcases h.rate with hr | ⟨hr, hkeys⟩
    · exact .inl hr
    · refine .inr ⟨hr, ?_⟩
      rw [← updateOnHit_eq]
      exact KeysRecorded.updateOnHit (s := append bytes (lookupKey u)) hkeys

theorem endsWithin_flushMove (h : Economical r s u) (hbudget : r * u.work.n ≤ u.work.cap) :
    EndsWithin (r * u.work.n) (flushMove u) := by
  have hcost := h.tail_le
  rw [flushMove_of_fits (hcost.trans hbudget)]
  exact ⟨rfl, (Nat.mod_le _ _).trans hcost⟩

/-- A move of COMPRESS with such a capacity goes on, or ends with OK (R236). -/
theorem economical_or_rests_of_step (hn : s.argInLen.toNat < 2 ^ 56)
    (hbudget : r * s.argInLen.toNat ≤ s.argOutCap.toNat) {v : State} (h : Economical r s u)
    (hstep : step u = .next v) : Economical r s v ∨ RestsWith (EndsWithin (r * s.argInLen.toNat)) v := by
  have hrun := h.compressing
  rw [← hrun.n, ← hrun.cap] at hbudget
  rw [← hrun.n] at hn ⊢
  rcases Nat.lt_or_ge u.work.n (u.work.p + 4) with hend | hscan
  · have hrest := rests_flushMove hrun
    rw [step_flush hrun.host hrun.running hend] at hstep
    cases hstep
    exact .inr ⟨hrest.1, hrest.2.1, endsWithin_flushMove h hbudget⟩
  · rw [step_scan hrun.host hrun.running hscan] at hstep
    cases hstep
    rcases scanMove_cases u with hmiss | ⟨ref, href, hpos, hhit⟩
    · rw [hmiss]
      exact .inl (economical_missAt h (by omega))
    · rw [hhit]
      exact .inl (economical_hitAt h hn hbudget hscan href hpos)

end

/-- At the start nothing is spent, and an empty index records nothing (R222, R223). -/
theorem economical_start {r : Nat} {s : State} (hhost : s.host = []) (hmin : minInput ≤ s.argInLen.toNat)
    (hrate : r = 2 + byteWidth s.argInLen.toNat ∨ r = 3 ∧ (s.index = [] ∨ s.cfg.clearIndexOnCompress = true)) :
    Economical r s (startCommand .compress (clearOnCompress s)) := by
  rw [clearOnCompress_eq]
  refine ⟨compressing_startCommand hmin hhost rfl rfl rfl fun _ => rfl, Nat.zero_le _, ?_⟩
  rcases hrate with hr | ⟨hr, hfresh⟩
  · exact .inl hr
  · have hempty : (if s.cfg.clearIndexOnCompress then [] else s.index) = [] := by
      rcases hfresh with hfresh | hfresh <;> simp [hfresh]
    rw [hempty]
    exact .inr ⟨hr, fun k off hk => by cases hk⟩

/-- Settles O47: each bound is `r * n` for a rate `r` that pays for every match. -/
theorem compressCapacityThatSuffices : Obligations.CompressCapacityThatSuffices := by
  unfold Obligations.CompressCapacityThatSuffices
  intro s bound hhost hlegal hvalid hmin hmax hcap hbound hbudget
  obtain ⟨r, rfl, hrate⟩ : ∃ r, bound = r * s.argInLen.toNat ∧ (r = 2 + byteWidth s.argInLen.toNat ∨
      r = 3 ∧ (s.index = [] ∨ s.cfg.clearIndexOnCompress = true)) := by
    rcases hbound with rfl | ⟨rfl, hfresh⟩
    · exact ⟨_, rfl, .inl rfl⟩
    · exact ⟨3, rfl, .inr ⟨rfl, hfresh⟩⟩
  have hn : s.argInLen.toNat < 2 ^ 56 := by
    obtain ⟨_, hnMax, _⟩ := hlegal
    omega
  obtain ⟨t, ⟨u, hexec, k, hk, hrun, hidle⟩, _⟩ := compressAlwaysCompletes s hhost hvalid hmin hmax hcap
  obtain rfl : u = startCommand .compress (clearOnCompress s) := Host.Outcome.next.inj
    (hexec.symm.trans (exec_compress_of_start (compressStartError_of_ok hvalid hmin hmax hcap)))
  exact ⟨t, ⟨_, _, hexec, k, hk, hrun, hidle⟩, run_ends_with (fun v hv => by simp [hv.compressing.running])
    (fun _ _ hv hstep => economical_or_rests_of_step hn hbudget hv hstep)
    (economical_start hhost hmin hrate) hrun hidle⟩

end Sys2Proof.Machine
end

section
/-! A run of DECOMPRESS on the bytes of well-formed tokens: each move reads one of them and extends OUT as
`expandToken` says (R263 to R270). With the stream that COMPRESS wrote this is the round trip (R237). -/

namespace Sys2Proof.Machine

/-! ## What a stream stands for, token by token -/

theorem expandTokens_cons_eq_some {policy : MatchTag10Policy} {out data : List Byte} {t : Token}
    {ts : List Token} (h : expandTokens policy out (t :: ts) = some data) :
    ∃ mid, expandToken policy out t = some mid ∧ expandTokens policy mid ts = some data := by
  rw [expandTokens] at h
  split at h
  next mid hmid => exact ⟨mid, hmid, h⟩
  next => cases h

/-- The bytes a match copies from the output before it (R181). -/
def copiedBytes (out : List Byte) (len dist : Nat) : List Byte :=
  (List.range len).map fun j => out.getD (out.length - dist + j % dist) 0

theorem expandToken_reference_eq_some {policy : MatchTag10Policy} {out data : List Byte} {tag10 : Bool}
    {lc dc len dist : Nat} (h : expandToken policy out (.reference tag10 lc dc len dist) = some data) :
    (tag10 = true → policy ≠ .malformed) ∧ 1 ≤ dist ∧ dist ≤ out.length ∧
      data = out ++ copiedBytes out len dist := by
  rw [expandToken] at h
  split at h
  next => cases h
  next htag =>
    split at h
    next => cases h
    next hdist => exact ⟨fun h1 h2 => htag ⟨h1, h2⟩, by omega, by omega, (Option.some.inj h).symm⟩

theorem le_length_of_expandToken {policy : MatchTag10Policy} {out data : List Byte} {t : Token}
    (h : expandToken policy out t = some data) : out.length ≤ data.length := by
  cases t with
  | literal cls payload => cases h; simp
  | reference tag10 lc dc len dist =>
    obtain ⟨_, _, _, rfl⟩ := expandToken_reference_eq_some h
    simp

theorem le_length_of_expandTokens {policy : MatchTag10Policy} {ts : List Token} {out data : List Byte}
    (h : expandTokens policy out ts = some data) : out.length ≤ data.length := by
  induction ts generalizing out with
  | nil => cases h; exact le_refl _
  | cons t ts ih =>
    obtain ⟨mid, ht, hts⟩ := expandTokens_cons_eq_some h
    exact (le_length_of_expandToken ht).trans (ih hts)

/-! ## Canonical tokens are well-formed -/

/-- A length fits its class (R103 to R105, R171). -/
theorem lt_two_pow_litClass {c : Nat} (h : c ≤ litMax) : c < 2 ^ (5 + 8 * litClass c) := by
  unfold litClass
  split
  next hshort => exact Nat.lt_succ_of_le hshort
  next =>
    split
    next hmiddle => exact Nat.lt_succ_of_le hmiddle
    next => exact Nat.lt_succ_of_le h

theorem wf_literal_of_canonical {cls : Nat} {payload : List Byte}
    (h : (Token.literal cls payload).canonical = true) : (Token.literal cls payload).wf = true := by
  simp only [Token.canonical, Bool.and_eq_true, beq_iff_eq, decide_eq_true_eq] at h
  obtain ⟨⟨rfl, _⟩, hmax⟩ := h
  simp only [Token.wf, Bool.and_eq_true, decide_eq_true_eq]
  exact ⟨litClass_le_two _, lt_two_pow_litClass hmax⟩

/-- A value below 2^56 takes at most the 7 bytes a header can count (R109). -/
theorem wf_reference_of_canonical {tag10 : Bool} {lc dc len dist : Nat}
    (h : (Token.reference tag10 lc dc len dist).canonical = true) (hdist : dist < 2 ^ 56) :
    (Token.reference tag10 lc dc len dist).wf = true := by
  simp only [Token.canonical, Bool.and_eq_true, beq_iff_eq, decide_eq_true_eq] at h
  obtain ⟨⟨⟨⟨_, rfl⟩, rfl⟩, _⟩, hle⟩ := h
  have hwidth {v : Nat} (hv : v < 2 ^ 56) : byteWidth v ≤ 7 ∧ v < 256 ^ byteWidth v := by
    refine ⟨byteWidth_le hv, ?_⟩
    rw [show 256 = 2 ^ 8 from rfl, ← Nat.pow_mul]
    exact lt_two_pow_byteWidthFrom (k := 0) (hv.trans (by decide))
  obtain ⟨hlc, hlen⟩ := hwidth (hle.trans_lt hdist)
  obtain ⟨hdc, hdist⟩ := hwidth hdist
  simp only [Token.wf, Bool.and_eq_true, decide_eq_true_eq]
  exact ⟨⟨⟨hlc, hdc⟩, hlen⟩, hdist⟩

/-- No distance reaches past the data, so canonical tokens for data of a legal length are well-formed. -/
theorem wf_of_canonical_of_expandTokens {policy : MatchTag10Policy} {ts : List Token} {out data : List Byte}
    (hcan : ∀ tok ∈ ts, tok.canonical = true) (h : expandTokens policy out ts = some data)
    (hdata : data.length < 2 ^ 56) : ∀ tok ∈ ts, tok.wf = true := by
  induction ts generalizing out with
  | nil => simp
  | cons t ts ih =>
    obtain ⟨hcanT, hcanTs⟩ := List.forall_mem_cons.mp hcan
    obtain ⟨mid, ht, hts⟩ := expandTokens_cons_eq_some h
    refine List.forall_mem_cons.mpr ⟨?_, ih hcanTs hts⟩
    cases t with
    | literal cls payload => exact wf_literal_of_canonical hcanT
    | reference tag10 lc dc len dist =>
      obtain ⟨_, _, hdist, _⟩ := expandToken_reference_eq_some ht
      have hout := (le_length_of_expandToken ht).trans (le_length_of_expandTokens hts)
      exact wf_reference_of_canonical hcanT (by omega)

/-! ## Reading a token from IN -/

/-- IN holds `bytes` from `a` on. -/
def ReadsAt (s : State) (a : Nat) (bytes : List Byte) : Prop := inBytes s a bytes.length = bytes

theorem readsAt_append {s : State} {a : Nat} {xs ys : List Byte} :
    ReadsAt s a (xs ++ ys) ↔ ReadsAt s a xs ∧ ReadsAt s (a + xs.length) ys := by
  rw [ReadsAt, List.length_append, inBytes_split]
  refine ⟨fun h => List.append_inj h (inBytes_length ..), fun ⟨hxs, hys⟩ => ?_⟩
  rw [hxs, hys]

theorem readsAt_cons {s : State} {a : Nat} {b : Byte} {bs : List Byte} :
    ReadsAt s a (b :: bs) ↔ inByte s a = b ∧ ReadsAt s (a + 1) bs := by
  rw [ReadsAt, List.length_cons, inBytes_succ, List.cons.injEq, ReadsAt]

theorem ReadsAt.fieldValue_eq {s : State} {a k v : Nat} (h : ReadsAt s a (beBytes k v)) (hv : v < 256 ^ k) :
    fieldValue s a k = v := by
  rw [ReadsAt, beBytes_length] at h
  rw [fieldValue, h, beValue_beBytes hv]

/-- A token begins with the byte that encodes its instruction (R101). -/
theorem encode_eq_cons (t : Token) : ∃ rest, t.encode = encode t.instr :: rest := by
  cases t with
  | literal cls payload =>
    match cls with
    | 0 => exact ⟨_, rfl⟩
    | 1 => exact ⟨_, rfl⟩
    | _ + 2 => exact ⟨_, rfl⟩
  | reference tag10 lc dc len dist => cases tag10 <;> exact ⟨_, rfl⟩

/-- The header byte of a well-formed token decodes to its instruction (R112). -/
theorem decodeHeader_encode_instr {t : Token} (hwf : t.wf = true) : decodeHeader (encode t.instr) = t.instr := by
  cases t with
  | literal cls payload =>
    obtain ⟨hcls, hlen⟩ : cls ≤ 2 ∧ payload.length < 2 ^ (5 + 8 * cls) := by simpa [Token.wf] using hwf
    interval_cases cls
    · exact decodeHeader_encode (decide_eq_true hlen) rfl
    · exact decodeHeader_encode (decide_eq_true (by omega)) rfl
    · exact decodeHeader_encode (decide_eq_true (by omega)) rfl
  | reference tag10 lc dc len dist =>
    simp only [Token.wf, Bool.and_eq_true, decide_eq_true_eq] at hwf
    obtain ⟨⟨⟨hlc, hdc⟩, _⟩, _⟩ := hwf
    cases tag10 with
    | true => exact decodeHeader_encode (by simp [Token.instr, Instr.wf]; omega) rfl
    | false => exact decodeHeader_encode (by simp [Token.instr, Instr.wf]; omega) rfl

/-- The header's field and the continuation bytes give the length of the payload (R106). -/
theorem exec_literal {cls : Nat} {payload : List Byte} {s : State}
    (hwf : (Token.literal cls payload).wf = true)
    (hread : ReadsAt s s.work.i (Token.literal cls payload).encode) :
    exec (Token.literal cls payload).instr s = .next (literalBody (cls + 1) payload.length s) := by
  obtain ⟨hcls, hlen⟩ : cls ≤ 2 ∧ payload.length < 2 ^ (5 + 8 * cls) := by simpa [Token.wf] using hwf
  interval_cases cls
  · rfl
  · obtain ⟨_, h1, _⟩ : _ ∧ inByte s (s.work.i + 1) = BitVec.ofNat 8 (payload.length / 256 ^ 0) ∧ _ := by
      simpa only [Token.encode, litHeader, beBytes, List.cons_append, readsAt_cons] using hread
    have hvalue : payload.length / 2 ^ 8 * 256 + (inByte s (s.work.i + 1)).toNat = payload.length := by
      rw [h1, BitVec.toNat_ofNat]
      omega
    rw [Token.instr, exec_lit1, litLength_one, hvalue]
  · obtain ⟨_, h1, h2, _⟩ : _ ∧ inByte s (s.work.i + 1) = BitVec.ofNat 8 (payload.length / 256 ^ 1) ∧
        inByte s (s.work.i + 1 + 1) = BitVec.ofNat 8 (payload.length / 256 ^ 0) ∧ _ := by
      simpa only [Token.encode, litHeader, beBytes, List.cons_append, readsAt_cons] using hread
    have hvalue : payload.length / 2 ^ 16 * 65536 + (inByte s (s.work.i + 1)).toNat * 256
        + (inByte s (s.work.i + 1 + 1)).toNat = payload.length := by
      rw [h1, h2, BitVec.toNat_ofNat, BitVec.toNat_ofNat]
      omega
    rw [show (Token.literal 2 payload).instr = .lit2 (payload.length / 2 ^ 16) from rfl, exec_lit2,
      litLength_two, hvalue]

/-! ## What a token does -/

/-- The cursors in `w` stand after a token of `size` bytes that stands for `count` (R264). -/
structure MovesPast (s : State) (w : Work) (size count : Nat) : Prop where
  n : w.n = s.work.n
  cap : w.cap = s.work.cap
  i : w.i = s.work.i + size
  o : w.o = s.work.o + count

theorem appendsBytes_exec_literal {cls : Nat} {payload : List Byte} {s : State}
    (hwf : (Token.literal cls payload).wf = true)
    (hread : ReadsAt s s.work.i (Token.literal cls payload).encode)
    (hn : s.work.i + (Token.literal cls payload).encode.length ≤ s.work.n)
    (hcap : s.work.o + payload.length ≤ s.work.cap) :
    ∃ w, MovesPast s w (Token.literal cls payload).encode.length payload.length ∧
      AppendsBytes s w payload (exec (Token.literal cls payload).instr s) := by
  have hcls : cls ≤ 2 := by
    simp only [Token.wf, Bool.and_eq_true, decide_eq_true_eq] at hwf
    exact hwf.1
  rw [exec_literal hwf hread]
  rw [Token.encode, readsAt_append, litHeader_length hcls] at hread
  rw [Token.encode, List.length_append, litHeader_length hcls, ← Nat.add_assoc] at hn
  have happends := appendsBytes_literalBody hn hcap
  rw [hread.2] at happends
  refine ⟨_, ?_, happends⟩
  refine ⟨rfl, rfl, ?_, rfl⟩
  rw [Token.encode, List.length_append, litHeader_length hcls]
  exact Nat.add_assoc ..

theorem exec_reference {tag10 : Bool} {lc dc len dist : Nat} {s : State}
    (htag : tag10 = true → s.cfg.matchTag10 ≠ .malformed) :
    exec (Token.reference tag10 lc dc len dist).instr s = .next (matchBody lc dc s) := by
  cases tag10 with
  | false => rfl
  | true =>
    have hpolicy : s.cfg.matchTag10 = .asMatch := by
      cases h : s.cfg.matchTag10 with
      | asMatch => rfl
      | malformed => exact absurd h (htag rfl)
    exact exec_match10_of_asMatch hpolicy lc dc

theorem appendsBytes_exec_reference {tag10 : Bool} {lc dc len dist : Nat} {s : State} {out : List Byte}
    (hwf : (Token.reference tag10 lc dc len dist).wf = true)
    (hread : ReadsAt s s.work.i (Token.reference tag10 lc dc len dist).encode)
    (hn : s.work.i + (Token.reference tag10 lc dc len dist).encode.length ≤ s.work.n)
    (htag : tag10 = true → s.cfg.matchTag10 ≠ .malformed) (hpos : 1 ≤ dist) (hdist : dist ≤ out.length)
    (ho : s.work.o = out.length) (hout : OutputIs s out) (hcap : s.work.o + len ≤ s.work.cap) :
    ∃ w, MovesPast s w (Token.reference tag10 lc dc len dist).encode.length len ∧
      AppendsBytes s w (copiedBytes out len dist) (exec (Token.reference tag10 lc dc len dist).instr s) := by
  simp only [Token.wf, Bool.and_eq_true, decide_eq_true_eq] at hwf
  obtain ⟨⟨_, hlenLt⟩, hdistLt⟩ := hwf
  rw [Token.encode, readsAt_cons, readsAt_append, beBytes_length] at hread
  obtain ⟨_, hlenRead, hdistRead⟩ := hread
  have hlen : matchLength lc s = len := hlenRead.fieldValue_eq hlenLt
  have hd : matchDistance lc dc s = dist := hdistRead.fieldValue_eq hdistLt
  have hsize : (Token.reference tag10 lc dc len dist).encode.length = 1 + lc + dc := by
    simp [Token.encode, beBytes_length]
    omega
  rw [hsize] at hn ⊢
  have hbytes : (List.range len).map (fun j => outByte s (s.work.o - dist + j % dist))
      = copiedBytes out len dist := by
    refine List.map_congr_left fun j _ => ?_
    have hj := Nat.mod_lt j hpos
    rw [hout _ (by omega), ho]
  rw [exec_reference htag, matchBody_of_fits (by omega) (by omega) (by omega) (by omega), hlen, hd, ← hbytes]
  refine ⟨_, ?_, appendsBytes_copyMatch lc dc hpos (by omega)⟩
  refine ⟨rfl, rfl, ?_, rfl⟩
  rw [← Nat.add_assoc, ← Nat.add_assoc]
  rfl

/-- A well-formed token at the input cursor extends OUT as `expandToken` says (R270). -/
theorem appendsBytes_exec_token {t : Token} {s : State} {out data : List Byte} (hwf : t.wf = true)
    (hread : ReadsAt s s.work.i t.encode) (hn : s.work.i + t.encode.length ≤ s.work.n)
    (ho : s.work.o = out.length) (hout : OutputIs s out)
    (hexpand : expandToken s.cfg.matchTag10 out t = some data) (hcap : data.length ≤ s.work.cap) :
    ∃ bytes w, data = out ++ bytes ∧ MovesPast s w t.encode.length bytes.length ∧
      AppendsBytes s w bytes (exec t.instr s) := by
  cases t with
  | literal cls payload =>
    cases hexpand
    rw [List.length_append, ← ho] at hcap
    obtain ⟨w, hw, happends⟩ := appendsBytes_exec_literal hwf hread hn hcap
    exact ⟨payload, w, rfl, hw, happends⟩
  | reference tag10 lc dc len dist =>
    obtain ⟨htag, hpos, hdist, rfl⟩ := expandToken_reference_eq_some hexpand
    have hlen : (copiedBytes out len dist).length = len := by simp [copiedBytes]
    rw [List.length_append, hlen, ← ho] at hcap
    obtain ⟨w, hw, happends⟩ := appendsBytes_exec_reference hwf hread hn htag hpos hdist ho hout hcap
    exact ⟨_, w, rfl, hlen.symm ▸ hw, happends⟩

/-! ## The run -/

/-- DECOMPRESS, started in `s`, has written `out` and has the tokens `todo` before it. -/
structure Decompressing (s u : State) (todo : List Token) (out : List Byte) : Prop where
  host : u.host = []
  running : u.engine = .decompress
  cfg : u.cfg = s.cfg
  cap : u.work.cap = s.argOutCap.toNat
  n : u.work.i + (streamBytes todo).length = u.work.n
  reads : ReadsAt u u.work.i (streamBytes todo)
  o : u.work.o = out.length
  out : OutBeginsWith s u out

theorem OutBeginsWith.of_appendsBytes {s u v : State} {out bytes : List Byte} {w : Work}
    (h : OutBeginsWith s u out) (ho : u.work.o = out.length) (happends : AppendsBytes u w bytes (.next v)) :
    OutBeginsWith s v (out ++ bytes) := by
  obtain ⟨m, hv, hnew, hold⟩ := happends
  cases hv
  intro a
  show outByteOf u.outDraws m a = _
  rw [List.length_append]
  rcases Nat.lt_or_ge a out.length with hlow | hhigh
  · rw [hold a (.inl (by omega)), h a, if_pos hlow, if_pos (by omega), List.getD_append _ _ _ _ hlow]
  · rcases Nat.lt_or_ge a (out.length + bytes.length) with hin | hpast
    · have hbyte := hnew (a - out.length) (by omega)
      rw [ho, Nat.add_sub_cancel' hhigh] at hbyte
      rw [hbyte, if_pos hin, List.getD_append_right _ _ _ _ hhigh]
    · rw [hold a (.inr (by omega)), h a, if_neg (by omega), if_neg (by omega)]

/-- A move runs the token at the cursor (R263, R264). -/
theorem decompressing_step {s u : State} {t : Token} {ts : List Token} {out data : List Byte}
    (h : Decompressing s u (t :: ts) out) (hwf : t.wf = true)
    (hexpand : expandToken s.cfg.matchTag10 out t = some data) (hcap : data.length ≤ s.argOutCap.toNat) :
    ∃ v, step u = .next v ∧ Decompressing s v ts data := by
  obtain ⟨hhost, hrun, hcfg, hcapU, hn, hreads, ho, hout⟩ := h
  rw [streamBytes_cons, List.length_append] at hn
  rw [streamBytes_cons, readsAt_append] at hreads
  obtain ⟨hread, hrest⟩ := hreads
  obtain ⟨rest, hencode⟩ := encode_eq_cons t
  have hheader : headerAt u = encode t.instr := (readsAt_cons.mp (hencode ▸ hread)).1
  have hpos : 0 < t.encode.length := by rw [hencode]; exact Nat.succ_pos _
  have hstep : step u = exec t.instr (latchHeader u) := by
    rw [step_of_host_nil hhost, engineMove, hrun]
    simp only [decompressMove, if_pos (show u.work.i < u.work.n by omega), hheader,
      decodeHeader_encode_instr hwf]
  rw [← hcfg] at hexpand
  rw [← hcapU] at hcap
  obtain ⟨bytes, w, rfl, hw, happends⟩ := appendsBytes_exec_token (s := latchHeader u) hwf hread
    (show u.work.i + t.encode.length ≤ u.work.n by omega) ho hout.outputIs hexpand hcap
  rw [← hstep] at happends
  have ⟨m, hv, _⟩ := happends
  rw [hv] at happends
  have hi : w.i = u.work.i + t.encode.length := hw.i
  refine ⟨_, hv, hhost, hrun, hcfg, hw.cap.trans hcapU, ?_, ?_, ?_,
    OutBeginsWith.of_appendsBytes (u := latchHeader u) hout ho happends⟩
  · show w.i + _ = w.n
    have hwn : w.n = u.work.n := hw.n
    omega
  · show ReadsAt u w.i _
    rwa [hi]
  · rw [List.length_append, ← ho]
    exact hw.o

/-- DECOMPRESS ended with OK in `t` and left `data` in OUT (R267). -/
structure Decompressed (s t : State) (data : List Byte) : Prop where
  idle : t.engine = .idle
  status : t.status = 0
  bytesWritten : t.bytesWritten.toNat = data.length
  out : OutBeginsWith s t data

theorem decompressed_step {s u : State} {out : List Byte} (h : Decompressing s u [] out)
    (hcap : out.length ≤ s.argOutCap.toNat) : ∃ t, step u = .next t ∧ Decompressed s t out := by
  have hend : ¬u.work.i < u.work.n := by
    have := h.n
    simp only [streamBytes, List.flatMap_nil, List.length_nil] at this
    omega
  have hstep : step u = .next (complete u) := by
    rw [step_of_host_nil h.host, engineMove, h.running]
    simp only [decompressMove, if_neg hend]
  refine ⟨complete u, hstep, rfl, rfl, ?_, h.out⟩
  rw [← h.o] at hcap ⊢
  exact Nat.mod_eq_of_lt (hcap.trans_lt s.argOutCap.isLt)

/-- One move for each token and one for the end (R266). -/
theorem decompressing_run {s u : State} {ts : List Token} {out data : List Byte}
    (h : Decompressing s u ts out) (hwf : ∀ tok ∈ ts, tok.wf = true)
    (hexpand : expandTokens s.cfg.matchTag10 out ts = some data) (hcap : data.length ≤ s.argOutCap.toNat) :
    ∃ t, Host.Core.run core (ts.length + 1) u = .next t ∧ Decompressed s t data := by
  induction ts generalizing u out with
  | nil =>
    cases hexpand
    obtain ⟨t, hstep, ht⟩ := decompressed_step h hcap
    exact ⟨t, run_succ_of_step core hstep 0, ht⟩
  | cons tok ts ih =>
    obtain ⟨hwfTok, hwfTs⟩ := List.forall_mem_cons.mp hwf
    obtain ⟨mid, hmid, hrest⟩ := expandTokens_cons_eq_some hexpand
    obtain ⟨v, hstep, hv⟩ := decompressing_step h hwfTok hmid
      ((le_length_of_expandTokens hrest).trans hcap)
    obtain ⟨t, hrun, ht⟩ := ih hv hwfTs hrest
    exact ⟨t, (run_succ_of_step core hstep _).trans hrun, ht⟩

theorem exec_decompress_of_start {s : State} (h : sizeError s = none) :
    exec .decompress s = .next (startCommand .decompress s) := by
  simp only [exec, execDecompress, h]

/-- DECOMPRESS of a stream of well-formed tokens leaves in OUT what they stand for (R260, R270). -/
theorem finishesWithin_decompress_of_stream {s : State} {ts : List Token} {data : List Byte}
    (hhost : s.host = []) (hwf : ∀ tok ∈ ts, tok.wf = true) (hinput : InputIs s (streamBytes ts))
    (hsize : sizeError s = none) (hexpand : expandTokens s.cfg.matchTag10 [] ts = some data)
    (hcap : data.length ≤ s.argOutCap.toNat) :
    ∃ t, FinishesWithin (ts.length + 1) .decompress s t ∧ Decompressed s t data := by
  have hreads : ReadsAt s 0 (streamBytes ts) := by
    rw [ReadsAt, ← hinput.1]
    exact inBytes_of_inputIs hinput
  have hstart : Decompressing s (startCommand .decompress s) ts [] :=
    ⟨hhost, rfl, rfl, rfl, (Nat.zero_add _).trans hinput.1.symm, hreads, rfl, fun _ => rfl⟩
  obtain ⟨t, hrun, ht⟩ := decompressing_run hstart hwf hexpand hcap
  exact ⟨t, ⟨_, exec_decompress_of_start hsize, _, le_refl _, hrun, ht.idle⟩, ht⟩

/-! ## The round trip -/

/-- A COMPRESS that ends with OK had passed the start check (R221). -/
theorem compressStartError_of_finishes_ok {s t : State} (hhost : s.host = []) (h : Finishes .compress s t)
    (hok : t.status = 0) : compressStartError s = none := by
  cases hstart : compressStartError s with
  | none => rfl
  | some r =>
    obtain ⟨_, u, hexec, k, _, hrun, _⟩ := h
    rw [exec_compress_of_error hstart] at hexec
    cases hexec
    have hstatus : r.status ≠ .ok := by rcases compressStartError_eq_some hstart with rfl | rfl <;> decide
    have hrest : RestsWith (fun v => v.status ≠ 0) (raise true r s) :=
      ⟨(raise_host ..).trans hhost, rfl, raise_status_ne_zero true hstatus s⟩
    exact absurd hok (hrest.of_run hrun)

/-- Settles O46: COMPRESS wrote canonical tokens that stand for the input, and DECOMPRESS expands them. -/
theorem compressThenDecompressGivesTheInput : Obligations.CompressThenDecompressGivesTheInput := by
  unfold Obligations.CompressThenDecompressGivesTheInput
  intro s t u input hhost hlegal hinput hfinishes hok hmin hmax huhost hucfg hulen hubytes hroom hucap
  obtain ⟨ts, hout, hcount, _, hcan, _, hexpand, _⟩ :=
    compressWritesTokensOfTheInput s t input hhost hlegal hinput hfinishes hok
  obtain ⟨_, hsize⟩ :=
    (compressStartError_eq_none s).mp (compressStartError_of_finishes_ok hhost hfinishes hok)
  obtain ⟨_, hsmax, _⟩ := (sizeError_eq_none s).mp hsize
  have hlength : input.length < 2 ^ 56 := by
    obtain ⟨_, hnMax, _⟩ := hlegal
    rw [← hinput.1]
    omega
  have huinput : InputIs u (streamBytes ts) := by
    rw [InputIs, hulen]
    exact ⟨hcount, fun j hj => (hubytes j (hcount ▸ hj)).trans (hout j hj)⟩
  have husize : sizeError u = none := by
    rw [sizeError_eq_none, hulen, hucfg]
    exact ⟨hmin, hmax, hucfg ▸ hucap⟩
  obtain ⟨v, hv, hdone⟩ := finishesWithin_decompress_of_stream huhost
    (wf_of_canonical_of_expandTokens hcan (hexpand .asMatch) hlength) huinput husize (hexpand _) hroom
  exact ⟨v, ⟨_, hv⟩, hdone.status, hdone.bytesWritten, hdone.out.outputIs⟩

end Sys2Proof.Machine
end

section
/-! DECOMPRESS from its start to its end: the size checks (R261), the end of the input (R267), that every run comes
to rest with a result R333 allows, and that a run leaves what lasts in the core as it was (R148, R262). -/

namespace Sys2Proof.Machine

/-! ## The start and the end -/

theorem exec_decompress_of_error {s : State} {r : Raise} (h : sizeError s = some r) :
    exec .decompress s = .next (raise true r s) := by
  simp only [exec, execDecompress, h]

theorem sizeError_of_bad_size {s : State}
    (h : s.argInLen.toNat < 4 ∨ s.cfg.nMax < s.argInLen.toNat ∨ s.cfg.capMax < s.argOutCap.toNat) :
    sizeError s = some (plainRaise .invalidParam) := by
  cases hres : sizeError s with
  | none =>
    obtain ⟨hmin, hmax, hcap⟩ := (sizeError_eq_none s).mp hres
    have hmin : 4 ≤ s.argInLen.toNat := hmin
    omega
  | some r => rw [sizeError_eq_some hres]

theorem step_of_decompress {s : State} (hhost : s.host = []) (hrun : s.engine = .decompress) :
    step s = decompressMove s := by
  rw [step_of_host_nil hhost, engineMove, hrun]

theorem decompressMove_of_end {s : State} (h : s.work.n ≤ s.work.i) : decompressMove s = .next (complete s) :=
  if_neg (Nat.not_lt.mpr h)

/-- Settles O34: one case for each answer of the size checks, which read no context. -/
theorem decompressStartsOrFails : Obligations.DecompressStartsOrFails := by
  unfold Obligations.DecompressStartsOrFails
  refine fun s => ⟨fun hsize => ?_, fun hmin hmax hcap => ?_⟩
  · rw [exec_decompress_of_error (sizeError_of_bad_size hsize)]
    exact endsPlainly_raise_plainRaise rfl s
  · rw [exec_decompress_of_start ((sizeError_eq_none s).mpr ⟨hmin, hmax, hcap⟩)]
    rfl

/-- Settles O20: the move at the end of the input is the normal exit. -/
theorem decompressEndsAtTheEndOfInput : Obligations.DecompressEndsAtTheEndOfInput := by
  unfold Obligations.DecompressEndsAtTheEndOfInput
  intro s hhost hrun hend
  rw [step_of_decompress hhost hrun, decompressMove_of_end hend]
  exact endsPlainly_complete s

/-! ## The results of a move -/

/-- Where the core is idle, STATUS is one that R333 allows DECOMPRESS once its tokens are read. -/
def IdleWithCodecResult (t : State) : Prop :=
  t.engine = .idle → t.status = 0 ∨ t.status = 3 ∨ t.status = 4

theorem idleWithCodecResult_malformed (d : Detail) (s : State) : IdleWithCodecResult (malformed d s) :=
  fun _ => .inr (.inr rfl)

theorem idleWithCodecResult_overCapacity (s : State) : IdleWithCodecResult (overCapacity s) :=
  fun _ => .inr (.inl rfl)

theorem idleWithCodecResult_complete (s : State) : IdleWithCodecResult (complete s) := fun _ => .inl rfl

theorem idleWithCodecResult_of_busy {t : State} (h : t.engine = .decompress) : IdleWithCodecResult t :=
  fun hidle => absurd (h.symm.trans hidle) (by decide)

theorem idleWithCodecResult_literalBody (header len : Nat) {s : State} (hrun : s.engine = .decompress) :
    IdleWithCodecResult (literalBody header len s) := by
  rcases literalBody_cases header len s with ⟨_, he⟩ | ⟨_, _, he⟩ | ⟨_, _, he⟩
  · rw [he]; exact idleWithCodecResult_malformed _ s
  · rw [he]; exact idleWithCodecResult_overCapacity s
  · rw [he]; exact idleWithCodecResult_of_busy hrun

theorem idleWithCodecResult_matchBody (lc dc : Nat) {s : State} (hrun : s.engine = .decompress) :
    IdleWithCodecResult (matchBody lc dc s) := by
  rcases matchBody_cases lc dc s with ⟨_, he⟩ | ⟨_, _, he⟩ | ⟨_, _, _, _, he⟩ | ⟨_, _, _, _, he⟩
  · rw [he]; exact idleWithCodecResult_malformed _ s
  · rw [he]; exact idleWithCodecResult_malformed _ s
  · rw [he]; exact idleWithCodecResult_overCapacity s
  · rw [he]; exact idleWithCodecResult_of_busy hrun

/-- A move of DECOMPRESS that ends it is the normal exit or an error of the token at the cursor. -/
theorem idleWithCodecResult_decompressMove {s t : State} (hrun : s.engine = .decompress)
    (h : decompressMove s = .next t) : IdleWithCodecResult t := by
  unfold decompressMove at h
  split at h
  · rcases exec_token_cases (isToken_decodeHeader _) h with ⟨d, rfl⟩ | ⟨header, len, rfl⟩ | ⟨lc, dc, rfl⟩
    · exact idleWithCodecResult_malformed d _
    · exact idleWithCodecResult_literalBody header len hrun
    · exact idleWithCodecResult_matchBody lc dc hrun
  · cases h
    exact idleWithCodecResult_complete s

/-- Only a move of COMPRESS writes something that lasts, the index (R148). -/
theorem lasting_of_engineMove {s t : State} (hrun : s.engine ≠ .compress) (h : engineMove s = .next t) :
    lasting t = lasting s := by
  cases engineMoved_of_engineMove h with
  | waited _ => rfl
  | ended hend => exact lasting_of_commandEnds hend
  | ranOn x m w _ hindex =>
    cases hindex.resolve_left hrun
    rfl

/-! ## A run on any input -/

/-- DECOMPRESS, started in `s`, runs in `u`, the host does nothing meanwhile, and what lasts is as in `s`. -/
structure ReadsTokens (s u : State) : Prop where
  host : u.host = []
  running : u.engine = .decompress
  lasting : lasting u = lasting s

/-- What every end of a started DECOMPRESS has. -/
def EndsAsDecompress (s t : State) : Prop :=
  (t.status = 0 ∨ t.status = 3 ∨ t.status = 4) ∧ lasting t = lasting s

/-- How many bytes of the input are not read yet. -/
def unreadBytes (s : State) : Nat := s.work.n - s.work.i

theorem readsTokens_startCommand {s : State} (hhost : s.host = []) :
    ReadsTokens s (startCommand .decompress s) := ⟨hhost, rfl, rfl⟩

/-- A move reads at least one byte and goes on, or comes to rest with a result (R264, R266, R333). -/
theorem reads_or_rests_of_step {s u v : State} (h : ReadsTokens s u) (hstep : step u = .next v) :
    ReadsTokens s v ∧ unreadBytes v < unreadBytes u ∨ RestsWith (EndsAsDecompress s) v := by
  obtain ⟨hhost, hrun, hlasting⟩ := h
  have hmove : engineMove u = .next v := by rwa [← step_of_host_nil hhost]
  obtain ⟨_, _, _, _, _, _, _, _, hhostV, _⟩ := engineMoveLeavesInputsAndContext u v hmove
  rw [hhost] at hhostV
  have hlastingV : lasting v = lasting s := (lasting_of_engineMove (by simp [hrun]) hmove).trans hlasting
  by_cases hidle : v.engine = .idle
  · rw [step_of_decompress hhost hrun] at hstep
    exact .inr ⟨hhostV, hidle, idleWithCodecResult_decompressMove hrun hstep hidle, hlastingV⟩
  · obtain ⟨hengine, hn, hcursor, _⟩ := cursorsAdvanceWithEveryMove u v hmove hidle
    obtain ⟨hlt, hle⟩ := hcursor hrun
    refine .inl ⟨⟨hhostV, hengine.trans hrun, hlastingV⟩, ?_⟩
    unfold unreadBytes
    omega

/-- Settles O35: the unread bytes get fewer with every move that goes on, and one move more ends the command. -/
theorem decompressAlwaysCompletes : Obligations.DecompressAlwaysCompletes := by
  unfold Obligations.DecompressAlwaysCompletes
  intro s hhost hmin hmax hcap
  have hstart := exec_decompress_of_start ((sizeError_eq_none s).mpr ⟨hmin, hmax, hcap⟩)
  have hstep (u : State) (hu : ReadsTokens s u) : ∃ v, step u = .next v ∧
      (ReadsTokens s v ∧ unreadBytes v < unreadBytes u ∨ RestsWith (EndsAsDecompress s) v) := by
    obtain ⟨v, hv⟩ := exists_engineMove_eq_next u
    rw [← step_of_host_nil hu.host] at hv
    exact ⟨v, hv, reads_or_rests_of_step hu hv⟩
  obtain ⟨k, hk, t, hrun, _, hidle, hstatus, _⟩ := exists_run_to_rest hstep (readsTokens_startCommand hhost)
  exact ⟨t, ⟨_, hstart, k, hk, hrun, hidle⟩, hstatus⟩

/-- A DECOMPRESS that starts leaves the parameters, the context, the index and IN as they were (R148, R262). -/
theorem lasting_of_finishesWithin_decompress {s t : State} {bound : Nat} (hhost : s.host = [])
    (hsize : sizeError s = none) (h : FinishesWithin bound .decompress s t) : lasting t = lasting s := by
  obtain ⟨u, hexec, k, _, hrun, hidle⟩ := h
  rw [exec_decompress_of_start hsize] at hexec
  cases hexec
  obtain ⟨_, hlasting⟩ : EndsAsDecompress s t := run_ends_with (fun v hv => by simp [hv.running])
    (fun _ _ hv hstep => (reads_or_rests_of_step hv hstep).imp_left And.left)
    (readsTokens_startCommand hhost) hrun hidle
  exact hlasting

/-- Settles O36: the tokens are read one by one, and a run leaves the rest of OUT and what lasts as they were. -/
theorem decompressProducesTheExpansion : Obligations.DecompressProducesTheExpansion := by
  unfold Obligations.DecompressProducesTheExpansion
  intro s ts out hhost hwf hinput hmin hmax hcap hexpand hfits
  have hsize : sizeError s = none := (sizeError_eq_none s).mpr ⟨hmin, hmax, hcap⟩
  obtain ⟨t, hfinishes, hdone⟩ := finishesWithin_decompress_of_stream hhost hwf hinput hsize hexpand hfits
  have hlasting := lasting_of_finishesWithin_decompress hhost hsize hfinishes
  exact ⟨t, hfinishes, hdone.status, hdone.bytesWritten, hdone.out.outputIs, fun _ => hdone.out.outside,
    congrArg Lasting.index hlasting, congrArg Lasting.ctxValid hlasting, congrArg Lasting.ctxLevel hlasting,
    congrArg Lasting.ctxWindow hlasting, congrArg Lasting.inMem hlasting⟩

end Sys2Proof.Machine
end

section
/-! The context commands CREATE_CONTEXT, DESTROY_CONTEXT and RESET_INDEX (R300 to R304): the level and its window,
the two ways such a command ends, and one equation for each outcome. -/

namespace Sys2Proof.Machine

/-! ## The level -/

/-- A level that is not negative is the same number read without a sign (R36). -/
theorem levelOf_toNat {s : State} (h : 0 ≤ levelOf s) : (levelOf s).toNat = s.argLevel.toNat := by
  have hlevel : levelOf s = s.argLevel.toNat := BitVec.toInt_eq_toNat_of_lt (BitVec.toInt_pos_iff.mp h)
  rw [hlevel, Int.toNat_natCast]

/-- The window of a level as a shift in the width of CTX_WINDOW (R46, R301). -/
theorem ofNat_windowOf (level : Nat) : BitVec.ofNat 32 (windowOf level) = 4096#32 <<< level := by
  rw [windowOf, ← Nat.shiftLeft_eq]
  rfl

/-! ## The two ends of a context command: BYTES_WRITTEN stays as it is (R41) -/

theorem endsPlainly_completeContext (s : State) :
    EndsPlainly s 0 s.bytesWritten (.next (completeContext s)) := ⟨Work.idle, rfl⟩

theorem endsPlainly_raise_false_plainRaise {st : Status} (h : leavesOutUnspecified st = false) (s : State) :
    EndsPlainly s (statusCode st) s.bytesWritten (.next (raise false (plainRaise st) s)) := by
  rw [raise_plainRaise false st s h]
  exact ⟨Work.idle, rfl⟩

/-! ## The outcomes -/

theorem exec_createContext_of_legal {s : State} (hmin : 0 ≤ levelOf s) (hmax : levelOf s ≤ levelMax) :
    exec .createContext s = .next (completeContext (installContext s.argLevel.toNat s)) := by
  rw [← levelOf_toNat hmin]
  exact if_neg (by omega)

theorem exec_createContext_of_illegal {s : State} (h : levelOf s < 0 ∨ levelMax < levelOf s) :
    exec .createContext s = .next (raise false (plainRaise .configError) (dropContext s)) :=
  if_pos h

theorem exec_destroyContext (s : State) :
    exec .destroyContext s = .next (completeContext (dropContext s)) := rfl

theorem exec_resetIndex_of_context {s : State} (h : s.ctxValid = 1) :
    exec .resetIndex s = .next (completeContext (withIndex s indexClear)) :=
  if_neg (by simp [h])

theorem exec_resetIndex_of_no_context {s : State} (h : s.ctxValid = 0) :
    exec .resetIndex s = .next (raise false (plainRaise .noContext) s) :=
  if_pos h

/-! ## The statements -/

/-- Settles O24: a legal level is installed and the command completes; any other drops the context and raises. -/
theorem createContextInstallsOrFails : Obligations.CreateContextInstallsOrFails := by
  unfold Obligations.CreateContextInstallsOrFails
  refine fun s => ⟨fun hmin hmax => ?_, fun hlevel => ?_⟩
  · rw [exec_createContext_of_legal hmin hmax, ← ofNat_windowOf]
    exact endsPlainly_completeContext (installContext s.argLevel.toNat s)
  · rw [exec_createContext_of_illegal hlevel]
    exact endsPlainly_raise_false_plainRaise (st := .configError) rfl (dropContext s)

/-- Settles O25: the context is dropped, whether there is one or not, and the command completes. -/
theorem destroyContextLeavesNoContext : Obligations.DestroyContextLeavesNoContext := by
  unfold Obligations.DestroyContextLeavesNoContext
  intro s
  rw [exec_destroyContext]
  exact endsPlainly_completeContext (dropContext s)

/-- Settles O26: one case for each value of CTX_VALID. -/
theorem resetIndexNeedsAContext : Obligations.ResetIndexNeedsAContext := by
  unfold Obligations.ResetIndexNeedsAContext
  refine fun s => ⟨fun hvalid => ?_, fun hvalid => ?_⟩
  · rw [exec_resetIndex_of_context hvalid]
    exact endsPlainly_completeContext (withIndex s indexClear)
  · rw [exec_resetIndex_of_no_context hvalid]
    exact endsPlainly_raise_false_plainRaise (st := .noContext) rfl s

end Sys2Proof.Machine
end

section
/-! The steps the host leaves to the engine: a poll of BUSY, `letRun`, and no transaction pending (log 10). -/

namespace Sys2Proof.Machine

/-! ## What the engine and a poll do -/

/-- While no command runs the engine waits (R349, R371). -/
theorem engineMove_of_idle {s : State} (h : busyBit s = 0) : engineMove s = .next s := by
  rw [engineMove, (busyBit_eq_zero_iff s).mp h]

/-- The BUSY register, read back, is the bit zero-extended (R34, R47). -/
theorem readRegister_busy (s : State) : readRegister s 12 = (busyBit s).setWidth 64 := rfl

theorem hostMove_waitIdle_of_busy {s : State} (h : busyBit s = 1) (rest : List HostAction) :
    hostMove .waitIdle rest s = engineMove s :=
  if_pos h

theorem hostMove_waitIdle_of_idle {s : State} (h : busyBit s = 0) (rest : List HostAction) :
    hostMove .waitIdle rest s = .next (withHostData (withHost s rest) 0) := by
  rw [hostMove, if_neg (busyBit_ne_one_of_eq_zero h), readRegister_busy, h]
  rfl

/-! ## The statement -/

/-- Settles O18: each of the three kinds of step is a move of the engine, an idle engine waits, and a poll
goes on when it reads 0. -/
theorem pollingWaitsForTheEngine : Obligations.PollingWaitsForTheEngine := by
  unfold Obligations.PollingWaitsForTheEngine
  refine fun s rest => ⟨fun hhost => ?_, fun hhost => ?_, fun hhost => ?_⟩
  · have hstep : step s = hostMove .waitIdle rest s := step_of_host_cons hhost
    exact ⟨fun hbusy => hstep.trans (hostMove_waitIdle_of_busy hbusy rest),
      fun hidle => hstep.trans (hostMove_waitIdle_of_idle hidle rest)⟩
  · have hstep : step s = engineMove (withHost s rest) := step_of_host_cons hhost
    exact ⟨hstep, fun hidle => hstep.trans (engineMove_of_idle (s := withHost s rest) hidle)⟩
  · have hstep : step s = engineMove s := step_of_host_nil hhost
    exact ⟨hstep, fun hidle => hstep.trans (engineMove_of_idle hidle)⟩

end Sys2Proof.Machine
end

section
/-! The reset event (R370, R372): a running command is abandoned and loses the bytes of OUT below its capacity; then the
registers take their reset values. -/

namespace Sys2Proof.Machine

/-! ## Abandoning a command -/

theorem abandon_of_idle {s : State} (h : busyBit s = 0) : abandon s = s := by
  rw [abandon, (busyBit_eq_zero_iff s).mp h]

theorem abandon_of_busy {s : State} (h : busyBit s = 1) : abandon s = scrambleOut s.work.cap s := by
  unfold abandon
  split
  next hidle => simp [(busyBit_eq_zero_iff s).mpr hidle] at h
  · rfl
  · rfl

@[simp] theorem abandon_host (s : State) : (abandon s).host = s.host := by
  unfold abandon
  split <;> rfl

@[simp] theorem abandon_hostData (s : State) : (abandon s).hostData = s.hostData := by
  unfold abandon
  split <;> rfl

theorem outByte_abandon_of_idle_or_ge {s : State} {a : Nat} (h : busyBit s = 0 ∨ s.work.cap ≤ a) :
    outByte (abandon s) a = outByte s a := by
  by_cases hbusy : busyBit s = 1
  · have hcap : s.work.cap ≤ a := h.resolve_left (by simp [hbusy])
    rw [abandon_of_busy hbusy, outByte_scrambleOut, if_neg (Nat.not_lt.mpr hcap)]
  · rw [abandon_of_idle (busyBit_eq_zero_of_ne_one hbusy)]

theorem outByte_abandon_of_busy_of_lt {s : State} {a : Nat} (hbusy : busyBit s = 1) (ha : a < s.work.cap) :
    outByte (abandon s) a = Config.freeOutByte s.draws a := by
  rw [abandon_of_busy hbusy, outByte_scrambleOut, if_pos ha]

/-! ## The reset event -/

/-- The values of R370 touch no byte of OUT. -/
theorem outByte_resetEvent (s : State) (a : Nat) : outByte (resetEvent s) a = outByte (abandon s) a := rfl

/-! ## The statement -/

/-- Settles O13: a reset abandons the running command, which decides every byte of OUT, and then sets the registers. -/
theorem resetEventSetsTheRegisters : Obligations.ResetEventSetsTheRegisters := by
  unfold Obligations.ResetEventSetsTheRegisters
  intro s rest hhost
  have hstep : step s = .next (resetEvent (withHost s rest)) := step_of_host_cons hhost
  have hlast : lasting (resetEvent (withHost s rest)) = ⟨s.cfg, 0, 0, 0, [], s.inMem⟩ := lasting_resetEvent _
  refine ⟨resetEvent (withHost s rest), hstep, rfl, rfl, rfl, rfl, rfl, rfl, rfl, rfl, rfl, indexLookup_clear,
    ⟨_, rfl, rfl, rfl⟩, congrArg Lasting.inMem hlast, congrArg Lasting.cfg hlast, abandon_host _,
    abandon_hostData _, fun a hkept => ?_, fun a hbusy hlt => ?_⟩
  · exact (outByte_resetEvent ..).trans <| outByte_abandon_of_idle_or_ge (s := withHost s rest) hkept
  · exact (outByte_resetEvent ..).trans <| outByte_abandon_of_busy_of_lt (s := withHost s rest) hbusy hlt

end Sys2Proof.Machine
end
